-- ==== Sys2Proof/Word.lean ====
section
/-! DEFINITION. Bytes, texts and the ASCII bytes the spec names (spec/00_scope.md R10, R11). -/

namespace Sys2Proof

/-- A `Byte` is an integer 0 to 255 (R11); the spec takes exclusive-ors of bytes (R10). -/
abbrev Byte := BitVec 8

/-- A `Text` is a finite sequence of bytes, indexed from 0 (R11). -/
abbrev Text := List Byte

/-- A 16-bit command word (30_encoding.md R74). -/
abbrev CmdWord := BitVec 16

/-- The text an ASCII string writes: how the spec's listings write text operands (R11, R80). -/
def txt (s : String) : Text := s.toList.map fun c => BitVec.ofNat 8 c.toNat

/-- LF, 0x0A (R11). -/
def LF : Byte := 0x0A
/-- CR, 0x0D (R11). -/
def CR : Byte := 0x0D
/-- `'!'`, the marker of an encapsulated frame (R11, R64). -/
def bang : Byte := 0x21
/-- `'#'`, the marker of a comment (R11, R64). -/
def hashSign : Byte := 0x23
/-- `'$'`, the marker of a delimited frame (R11, R64). -/
def dollar : Byte := 0x24
/-- `'*'`, the checksum delimiter (R11, R69). -/
def asterisk : Byte := 0x2A
/-- `','`, the field delimiter (R11, R63). -/
def comma : Byte := 0x2C

end Sys2Proof
end

