-- ==== Sys2Proof/Config.lean ====
section
/-! DEFINITION. The implementation parameters of spec/00_scope.md R8, and the free values of reset. -/

namespace Sys2Proof

/-- `BIT_ORDER` (R8, R41): the order in which a character's six bits enter the stream and in which a
read assembles an integer. The spec fixes `msb_first` (D3) and keeps the other reading available. -/
inductive BitOrder where
  | msbFirst
  | lsbFirst
  deriving DecidableEq, Repr

/-- `HEX_CASE` (R8, D8): which hex digits the checksum field accepts. -/
inductive HexCase where
  | both
  | upperOnly
  deriving DecidableEq, Repr

/-- `REAL_FORMAT` (R8, D15, U16): how a port represents a scaled value. The spec's rules compute exact
rationals and leave the rendering open: `machine k` is a machine number format, named by a number (log 8). -/
inductive RealFormat where
  | exact
  | machine (k : Nat)
  deriving DecidableEq, Repr

/-- The parameters the model takes as arguments (R8). A capacity `none` is unbounded, its default. -/
structure Config where
  bitOrder : BitOrder
  /-- The two members of `CHANNEL_SET`. -/
  channel1 : Text
  channel2 : Text
  hexCase  : HexCase
  lineMax  : Option Nat
  fragMax  : Option Nat
  partsMax : Option Nat
  realFormat : RealFormat
  deriving DecidableEq, Repr

namespace Config

/-- The values of R8's table: `msb_first`, the channels `"A"` and `"B"`, both hex cases, unbounded, exact
rationals. -/
def default : Config where
  bitOrder := .msbFirst
  channel1 := [0x41]
  channel2 := [0x42]
  hexCase  := .both
  lineMax  := none
  fragMax  := none
  partsMax := none
  realFormat := .exact

/-- `CHAR_BITS`: payload bits per armored character. -/
def charBits : Nat := 6
/-- `NMAX`: largest `n` of a read. -/
def nMax : Nat := 32
/-- `TYPE_BITS`: width of the type code. -/
def typeBits : Nat := 6
/-- `TYPE_LO`, `TYPE_HI`: the registry's range of type codes. -/
def typeLo : Nat := 1
def typeHi : Nat := 27

/-! Free values: what the elements that R37 and R251 leave unspecified hold after the k-th reset
(log 2). They have no body, so nothing can be proved of one; no file but State.lean uses them. -/

/-- The bits of `BUF` after a reset, six to a character (`LEN` is always a multiple of 6, R20). -/
opaque freeChars : Nat → List (BitVec 6)
/-- `CUR` after a reset, before it is brought into `0 … LEN`. -/
opaque freeCur : Nat → Nat
/-- `RES` after a reset. -/
opaque freeRes : Nat → BitVec 32
/-- `TYPE` after a reset. -/
opaque freeType : Nat → BitVec 6
/-- `NOW` after a reset (93_implementation_defined.md U3: any value). -/
opaque freeNow : Nat → BitVec 64

/-- The value that the machine format `k` shows for the exact rational `q`: open (U16), so free (log 8). Only
Machine/Port.lean uses it. -/
opaque rendered (k : Nat) (q : Rat) : Rat

end Config
end Sys2Proof
end

