-- ==== Sys2Proof/Syntax.lean ====
section
/-! DEFINITION. The records an operation takes as an operand, and the fifteen operations of
spec/opcode_table.json (30_encoding.md R74, R75), one constructor each. -/

namespace Sys2Proof

/-- The fields of an encapsulated `Sentence`, which is what a `Fragment` of the queue is (10_state.md
R30, R31). R30 gives `talker` as a Text of length 2, which PAR.PARSE always returns; that the type admits a talker
of any length, and other fields that fit no line, is the model's choice (DESIGN CHOICE, log 12). -/
structure Fragment where
  /-- The whole line as given to PAR.PARSE. -/
  raw       : Text
  /-- Two bytes in R30; any length here (log 12). -/
  talker    : Text
  subtype   : Text
  partCount : Nat
  /-- 1-based. -/
  partIndex : Nat
  /-- `[]` means absent (not multi-part). -/
  seqId     : Text
  channel   : Text
  /-- Armored text. -/
  payload   : Text
  checksum  : Byte
  deriving DecidableEq, Repr

/-- One parsed line (R30): for a frame that is not encapsulated every field but `raw` and the kind is
absent. -/
inductive Sentence where
  | encapsulated (f : Fragment)
  | delimited (raw : Text)
  | comment (raw : Text)
  deriving DecidableEq, Repr

/-- The frame kind (R30, R64). -/
inductive FrameKind where
  | encapsulated
  | delimited
  | comment
  deriving DecidableEq, Repr

namespace Sentence

def kind : Sentence → FrameKind
  | .encapsulated _ => .encapsulated
  | .delimited _ => .delimited
  | .comment _ => .comment

def raw : Sentence → Text
  | .encapsulated f => f.raw
  | .delimited r => r
  | .comment r => r

/-- The sentence line of a request whose operand lines carry nothing (log 11). -/
def zero : Sentence :=
  .encapsulated ⟨[], [], [], 0, 0, [], [], [], 0⟩

end Sentence

/-- One request of the host (R74): the command word, and beside it the operand as a value. The operand
has two lines, one for a `Text` and one for a `Sentence`; an operation takes the one R75 gives it
(log 11). -/
structure Request where
  cw       : CmdWord
  text     : Text
  sentence : Sentence
  deriving DecidableEq, Repr

/-- The fifteen operations with their operands (R75). `n` is `ARG`, unsigned (R76). -/
inductive Instr where
  | abrLoad (text : Text)
  | abrRdu (n : Nat)
  | abrRdi (n : Nat)
  | abrRdb
  | abrRdr (n : Nat)
  | abrAex
  | parParse (line : Text)
  | rsmPush (snt : Sentence)
  | dspDisp
  | fdcPosa
  | frmPush (chunk : Text)
  | frmEos
  | topFeed (chunk : Text)
  | topEos
  | topSrcerr
  deriving DecidableEq, Repr

/-- The operation's mnemonic, as the listings of R80 write it. -/
def Instr.mnemonic : Instr → String
  | .abrLoad _ => "ABR.LOAD"
  | .abrRdu _ => "ABR.RDU"
  | .abrRdi _ => "ABR.RDI"
  | .abrRdb => "ABR.RDB"
  | .abrRdr _ => "ABR.RDR"
  | .abrAex => "ABR.AEX"
  | .parParse _ => "PAR.PARSE"
  | .rsmPush _ => "RSM.PUSH"
  | .dspDisp => "DSP.DISP"
  | .fdcPosa => "FDC.POSA"
  | .frmPush _ => "FRM.PUSH"
  | .frmEos => "FRM.EOS"
  | .topFeed _ => "TOP.FEED"
  | .topEos => "TOP.EOS"
  | .topSrcerr => "TOP.SRCERR"

end Sys2Proof
end

