-- ==== Sys2Proof/WellFormed.lean ====
section
/-! DEFINITION. When an operation has a command word: its count must fit the 8-bit `ARG` field
(30_encoding.md R74, R76). Whether the count is LEGAL (1 to 32) is the operation's own check (R92). -/

namespace Sys2Proof

/-- `n` fits `ARG`, eight bits unsigned (R76). -/
def argFits (n : Nat) : Bool := n < 256

/-- Every operand value but a count beyond `ARG` can be issued. -/
def Instr.wellFormed : Instr → Bool
  | .abrRdu n => argFits n
  | .abrRdi n => argFits n
  | .abrRdr n => argFits n
  | .abrLoad _ => true
  | .abrRdb => true
  | .abrAex => true
  | .parParse _ => true
  | .rsmPush _ => true
  | .dspDisp => true
  | .fdcPosa => true
  | .frmPush _ => true
  | .frmEos => true
  | .topFeed _ => true
  | .topEos => true
  | .topSrcerr => true

end Sys2Proof
end

