-- ==== Sys2Proof/Decode.lean ====
section
/-! DEFINITION. The command word's decoder, total on every request and rejecting by name, and the encoder
(30_encoding.md R74 to R77). -/

namespace Sys2Proof

/-- `CW[15:12]` (R74). -/
def cwUnit (cw : CmdWord) : Nat := (cw.extractLsb' 12 4).toNat
/-- `CW[11:8]` (R74). -/
def cwFunc (cw : CmdWord) : Nat := (cw.extractLsb' 8 4).toNat
/-- `CW[7:0]` (R74). -/
def cwArg (cw : CmdWord) : Nat := (cw.extractLsb' 0 8).toNat

/-- Why a command word is reserved (R77). -/
inductive Reject where
  | reservedUnit
  | reservedFunc
  | nonzeroArg
  deriving DecidableEq, Repr

/-- A fixed operation is legal with `ARG = 0` only (R77). -/
def fixedArg (arg : Nat) (i : Instr) : Except Reject Instr :=
  if arg = 0 then .ok i else .error .nonzeroArg

/-- The operation a request selects (R75), with the operand taken from the request's operand lines. -/
def decode (r : Request) : Except Reject Instr :=
  let arg := cwArg r.cw
  match cwUnit r.cw, cwFunc r.cw with
  | 1, 0 => fixedArg arg (.abrLoad r.text)
  | 1, 1 => .ok (.abrRdu arg)
  | 1, 2 => .ok (.abrRdi arg)
  | 1, 3 => fixedArg arg .abrRdb
  | 1, 4 => .ok (.abrRdr arg)
  | 1, 5 => fixedArg arg .abrAex
  | 1, _ => .error .reservedFunc
  | 2, 0 => fixedArg arg (.parParse r.text)
  | 2, _ => .error .reservedFunc
  | 3, 0 => fixedArg arg (.rsmPush r.sentence)
  | 3, _ => .error .reservedFunc
  | 4, 0 => fixedArg arg .dspDisp
  | 4, _ => .error .reservedFunc
  | 5, 0 => fixedArg arg .fdcPosa
  | 5, _ => .error .reservedFunc
  | 6, 0 => fixedArg arg (.frmPush r.text)
  | 6, 1 => fixedArg arg .frmEos
  | 6, _ => .error .reservedFunc
  | 7, 0 => fixedArg arg (.topFeed r.text)
  | 7, 1 => fixedArg arg .topEos
  | 7, 2 => fixedArg arg .topSrcerr
  | 7, _ => .error .reservedFunc
  | _, _ => .error .reservedUnit

/-- The request whose operand lines carry nothing (log 11). -/
def wordRequest (cw : CmdWord) : Request := ⟨cw, [], .zero⟩

/-- The instruction the decoder reads from a table row's word `w` of `nbits` bits, operand lines empty. -/
def decodeTableWord (nbits w : Nat) : Option Instr :=
  if nbits = 16 ∧ w < 65536 then (decode (wordRequest (BitVec.ofNat 16 w))).toOption else none

/-- A command word from its three fields (R74). -/
def cmdWord (unit func arg : Nat) : CmdWord :=
  BitVec.ofNat 4 unit ++ BitVec.ofNat 4 func ++ BitVec.ofNat 8 arg

/-- An operation's command word, from the table of R75. -/
def encodeWord : Instr → CmdWord
  | .abrLoad _ => cmdWord 1 0 0
  | .abrRdu n => cmdWord 1 1 n
  | .abrRdi n => cmdWord 1 2 n
  | .abrRdb => cmdWord 1 3 0
  | .abrRdr n => cmdWord 1 4 n
  | .abrAex => cmdWord 1 5 0
  | .parParse _ => cmdWord 2 0 0
  | .rsmPush _ => cmdWord 3 0 0
  | .dspDisp => cmdWord 4 0 0
  | .fdcPosa => cmdWord 5 0 0
  | .frmPush _ => cmdWord 6 0 0
  | .frmEos => cmdWord 6 1 0
  | .topFeed _ => cmdWord 7 0 0
  | .topEos => cmdWord 7 1 0
  | .topSrcerr => cmdWord 7 2 0

/-- The request that issues an operation: its word, its operand on the line R75 gives it, the other line
empty. -/
def encode : Instr → Request
  | .abrLoad t => { wordRequest (encodeWord (.abrLoad t)) with text := t }
  | .abrRdu n => wordRequest (encodeWord (.abrRdu n))
  | .abrRdi n => wordRequest (encodeWord (.abrRdi n))
  | .abrRdb => wordRequest (encodeWord .abrRdb)
  | .abrRdr n => wordRequest (encodeWord (.abrRdr n))
  | .abrAex => wordRequest (encodeWord .abrAex)
  | .parParse t => { wordRequest (encodeWord (.parParse t)) with text := t }
  | .rsmPush s => { wordRequest (encodeWord (.rsmPush s)) with sentence := s }
  | .dspDisp => wordRequest (encodeWord .dspDisp)
  | .fdcPosa => wordRequest (encodeWord .fdcPosa)
  | .frmPush t => { wordRequest (encodeWord (.frmPush t)) with text := t }
  | .frmEos => wordRequest (encodeWord .frmEos)
  | .topFeed t => { wordRequest (encodeWord (.topFeed t)) with text := t }
  | .topEos => wordRequest (encodeWord .topEos)
  | .topSrcerr => wordRequest (encodeWord .topSrcerr)

/-- A row of the table of R75: a word belongs to it when `word && mask = value`. -/
structure OpcodeRow where
  mnemonic : String
  value    : CmdWord
  mask     : CmdWord
  deriving DecidableEq, Repr

/-- The match / mask column of R75, read off the table (not computed from the decoder). -/
def opcodeRows : List OpcodeRow :=
  [⟨"ABR.LOAD", 0x1000, 0xFFFF⟩, ⟨"ABR.RDU", 0x1100, 0xFF00⟩, ⟨"ABR.RDI", 0x1200, 0xFF00⟩,
   ⟨"ABR.RDB", 0x1300, 0xFFFF⟩, ⟨"ABR.RDR", 0x1400, 0xFF00⟩, ⟨"ABR.AEX", 0x1500, 0xFFFF⟩,
   ⟨"PAR.PARSE", 0x2000, 0xFFFF⟩, ⟨"RSM.PUSH", 0x3000, 0xFFFF⟩, ⟨"DSP.DISP", 0x4000, 0xFFFF⟩,
   ⟨"FDC.POSA", 0x5000, 0xFFFF⟩, ⟨"FRM.PUSH", 0x6000, 0xFFFF⟩, ⟨"FRM.EOS", 0x6100, 0xFFFF⟩,
   ⟨"TOP.FEED", 0x7000, 0xFFFF⟩, ⟨"TOP.EOS", 0x7100, 0xFFFF⟩, ⟨"TOP.SRCERR", 0x7200, 0xFFFF⟩]

/-- The word is one of the row's. -/
def OpcodeRow.has (row : OpcodeRow) (cw : CmdWord) : Bool := cw &&& row.mask == row.value

end Sys2Proof
end

