-- ==== Sys2Proof/Machine/Records.lean ====
section
/-! DEFINITION. The values an operation returns: errors, events, decoded fields, messages, items
(spec/00_scope.md R15 to R17, 10_state.md R32, R33, 60_exceptions.md R220, R221). -/

namespace Sys2Proof.Machine

/-- The result kinds of R220. -/
inductive Kind where
  | ok
  | parseError
  | reassemblyError
  | continuityBreak
  | decodeError
  | unsupportedType
  | sourceError
  | illegalCommand
  deriving DecidableEq, Repr

/-- The causes of a ParseError (R221), in code order. -/
inductive ParseCause where
  | marker
  | fields
  | header
  | integer
  | ckField
  | ckSum
  | partIdx
  | channel
  | seqId
  | armor
  deriving DecidableEq, Repr

/-- The cause of a ReassemblyError (R221). -/
inductive ReassemblyCause where
  | shape
  deriving DecidableEq, Repr

/-- The causes of a continuity break (R221, R232), which is an event and not an error. -/
inductive BreakCause where
  | sequence
  | orphan
  | preempt
  deriving DecidableEq, Repr

/-- The causes of a DecodeError (R221). `enumRange` (`ENUM`) is listed and reserved: no operation raises
it (R169). -/
inductive DecodeCause where
  | underrun
  | trailing
  | enumRange
  deriving DecidableEq, Repr

/-- The causes of an IllegalCommand (R221). -/
inductive IllegalCause where
  | opcode
  | operand
  | nobuf
  | cursor
  | srcState
  deriving DecidableEq, Repr

/-- An error `(kind, cause)` (R220, R221): the pairs not listed there have no term (93 U8). `source` is
SourceError with cause NONE, which appears in an item only (46_pipeline.md R212). -/
inductive Error where
  | parse (c : ParseCause)
  | reassembly (c : ReassemblyCause)
  | decode (c : DecodeCause)
  | source
  | illegal (c : IllegalCause)
  deriving DecidableEq, Repr

/-- The names of the class-A field map, in bit order (30_encoding.md R72, D19). -/
inductive FieldName where
  | repeatInd
  | mmsi
  | status
  | turn
  | speed
  | accuracy
  | lon
  | lat
  | course
  | heading
  | second
  | maneuver
  | spare
  | raim
  | syncState
  | slotTimeout
  | commState
  deriving DecidableEq, Repr

/-- The name as R72 and R161 spell it. -/
def FieldName.spelling : FieldName → String
  | .repeatInd => "repeat"
  | .mmsi => "mmsi"
  | .status => "status"
  | .turn => "turn"
  | .speed => "speed"
  | .accuracy => "accuracy"
  | .lon => "lon"
  | .lat => "lat"
  | .course => "course"
  | .heading => "heading"
  | .second => "second"
  | .maneuver => "maneuver"
  | .spare => "spare"
  | .raim => "raim"
  | .syncState => "sync_state"
  | .slotTimeout => "slot_timeout"
  | .commState => "comm_state"

/-- The value of a decoded field (R16). `real q` is the exact rational `q` (R10, D15); `raw b` is
`Raw(n, b)` with `n` the length of `b`, the bits in address order. -/
inductive Value where
  | int (i : Int)
  | real (q : Rat)
  | bool (b : Bool)
  | enum (e : Nat)
  | raw (bits : List Bool)
  | instant (t : Int)
  | timeMode (c : Nat)
  | notAvailable
  | turnLeftUnbounded
  | turnRightUnbounded
  deriving DecidableEq, Repr

/-- A field map: an ordered list of `(name, value)` pairs (R32); the empty map is `[]`. -/
abbrev FieldMap := List (FieldName × Value)

/-- The output record of a decoded message (R32). -/
structure DecodedMessage where
  typeCode : BitVec 6
  fields   : FieldMap
  deriving DecidableEq, Repr

/-- One element of the pipeline's output sequence (R33). -/
inductive Item where
  | message (m : DecodedMessage)
  | nonAis (s : Sentence)
  | error (e : Error) (raw : Text)
  | event (c : BreakCause)
  deriving DecidableEq, Repr

/-- The value an operation returns when it succeeds (the result column of R75). -/
inductive Val where
  | none
  | nat (u : Nat)
  | int (i : Int)
  | bool (b : Bool)
  | raw (bits : List Bool)
  | sentence (s : Sentence)
  | text (t : Option Text)
  | message (m : DecodedMessage)
  | fieldMap (f : FieldMap)
  | lines (l : List Text)
  | items (l : List Item)
  deriving DecidableEq, Repr

/-- The result of an operation: `Ok(v)` or `Err(kind, cause)` (R15). -/
inductive Result where
  | ok (v : Val)
  | err (e : Error)
  deriving DecidableEq, Repr

/-- The state of the byte source (10_state.md R29). -/
inductive Src where
  | opened
  | ended
  | failed
  deriving DecidableEq, Repr

/-- What the host can do to a session between two operations: issue an operation (R74), write `NOW`
(R23, R240), assert reset (70_reset_and_hazards.md R250). -/
inductive HostAct where
  | issue (r : Request)
  | writeNow (t : BitVec 64)
  | reset
  deriving DecidableEq, Repr

end Sys2Proof.Machine
end

