-- ==== Sys2Proof/Machine/State.lean ====
section
/-! DEFINITION. The state of one session (spec/10_state.md R20), the reasons a step can stop, and the
state after reset (R37, 70_reset_and_hazards.md R250, R251). -/

namespace Sys2Proof.Machine

/-- Nothing in the spec stops the machine: an error is a value, the result of the operation that met it
(60_exceptions.md, opening; log 6). So no step faults, and this type has no constructor. -/
inductive Fault where
  deriving DecidableEq, Repr

/-- Why a step is refused. -/
inductive Refusal where
  /-- Raised by `exec` for an instruction with no meaning yet; safe. No arm uses it. -/
  | notModelled (mnemonic : String)
  /-- Raised by PAR.PARSE, RSM.PUSH, FRM.PUSH and TOP.FEED when a line or token is longer than a finite
  `LINE_MAX` (00_scope.md R9); safe. -/
  | overLineMax
  /-- Raised by PAR.PARSE, RSM.PUSH and TOP.FEED when a payload is longer than a finite `FRAG_MAX`
  (R9); safe. -/
  | overFragMax
  /-- Raised by PAR.PARSE, RSM.PUSH and TOP.FEED when a part count is above a finite `PARTS_MAX` (R9);
  safe. -/
  | overPartsMax
  /-- Raised by ABR.LOAD when the text is longer than `FRAG_MAX · PARTS_MAX`, both finite (R9, R90);
  safe. -/
  | overLoadMax
  deriving DecidableEq, Repr

/-- One session. The first eleven fields after `cfg` are R20's table, `LEN` being the length of `buf`
(00_scope.md R12). -/
structure State where
  /-- The parameters (00_scope.md R8); no step writes them (log 1). -/
  cfg      : Config
  /-- `BV`: a buffer is loaded. -/
  bv       : Bool
  /-- `BUF`: the bit at address `a` is element `a` (R40). -/
  buf      : List Bool
  /-- `CUR`: bit address of the next unread bit (R24). -/
  cur      : Nat
  /-- `Q`: the fragment queue, oldest first (R27). -/
  q        : List Fragment
  /-- `CARRY`: the bytes since the last LF (R29). -/
  carry    : Text
  /-- `SRC` (R29). -/
  src      : Src
  /-- `RES` (R21). -/
  res      : BitVec 32
  /-- `STAT` (R22). -/
  stat     : BitVec 8
  /-- `TYPE` (R23). -/
  typeCode : BitVec 6
  /-- `NOW` (R23, 60_exceptions.md R240). -/
  now      : BitVec 64
  /-- The result the last operation returned (00_scope.md R15; log 3). -/
  result   : Result
  /-- The events the last operation emitted (R15, 60_exceptions.md R232; log 3). -/
  events   : List BreakCause
  /-- What the host has asked for and the block has not yet taken, oldest first (log 4). -/
  pending  : List HostAct
  /-- How many resets have been; each draws fresh free values (log 2). -/
  resets   : Nat
  deriving DecidableEq, Repr

/-- `LEN = |BUF|` (00_scope.md R12). -/
def State.len (s : State) : Nat := s.buf.length

/-- What `BUF` holds after the k-th reset: free bits, six to a character (R20, R37). -/
def freeBuf (k : Nat) : List Bool :=
  (Config.freeChars k).flatMap fun v =>
    [v.getLsbD 5, v.getLsbD 4, v.getLsbD 3, v.getLsbD 2, v.getLsbD 1, v.getLsbD 0]

/-- A session after its k-th reset (R37, R250): the elements R37 gives a value hold it, the others hold a
free value within their type (R20, R251; log 2). The parameters and the host's remaining requests are
no part of the session's state and stand. -/
def State.resetWith (cfg : Config) (k : Nat) (pending : List HostAct) : State where
  cfg      := cfg
  bv       := false
  buf      := freeBuf k
  cur      := Config.freeCur k % ((freeBuf k).length + 1)
  q        := []
  carry    := []
  src      := .opened
  res      := Config.freeRes k
  stat     := 0x00
  typeCode := Config.freeType k
  now      := Config.freeNow k
  result   := .ok .none
  events   := []
  pending  := pending
  resets   := k

/-- A fresh session with R8's default parameters and nothing asked of it (R250: a fresh session and a
reset session are the same thing). -/
def State.reset : State := State.resetWith Config.default 0 []

end Sys2Proof.Machine
end

