-- ==== Sys2Proof/Machine/Flags.lean ====
section
/-! DEFINITION. The status latch: kind codes, cause codes and the word `STAT` holds (spec/10_state.md
R22, 60_exceptions.md R220, R221). The block has no arithmetic condition codes (R34). -/

namespace Sys2Proof.Machine

/-- R220's codes. -/
def Kind.code : Kind → BitVec 4
  | .ok => 0
  | .parseError => 1
  | .reassemblyError => 2
  | .continuityBreak => 3
  | .decodeError => 4
  | .unsupportedType => 5
  | .sourceError => 6
  | .illegalCommand => 7

/-- R221's cause codes of ParseError. -/
def ParseCause.code : ParseCause → BitVec 4
  | .marker => 1
  | .fields => 2
  | .header => 3
  | .integer => 4
  | .ckField => 5
  | .ckSum => 6
  | .partIdx => 7
  | .channel => 8
  | .seqId => 9
  | .armor => 10

def ReassemblyCause.code : ReassemblyCause → BitVec 4
  | .shape => 1

/-- R221's cause codes of ContinuityBreak. -/
def BreakCause.code : BreakCause → BitVec 4
  | .sequence => 1
  | .orphan => 2
  | .preempt => 3

/-- R221's cause codes of DecodeError. -/
def DecodeCause.code : DecodeCause → BitVec 4
  | .underrun => 1
  | .trailing => 2
  | .enumRange => 3

/-- R221's cause codes of IllegalCommand. -/
def IllegalCause.code : IllegalCause → BitVec 4
  | .opcode => 1
  | .operand => 2
  | .nobuf => 3
  | .cursor => 4
  | .srcState => 5

/-- The kind of an error (R220). -/
def Error.kind : Error → Kind
  | .parse _ => .parseError
  | .reassembly _ => .reassemblyError
  | .decode _ => .decodeError
  | .source => .sourceError
  | .illegal _ => .illegalCommand

/-- The cause code of an error (R221); SourceError's is 0, `NONE`. -/
def Error.causeCode : Error → BitVec 4
  | .parse c => c.code
  | .reassembly c => c.code
  | .decode c => c.code
  | .source => 0
  | .illegal c => c.code

/-- `STAT[7:4] = KIND`, `STAT[3:0] = CAUSE` (R22). -/
def statusWord (kind cause : BitVec 4) : BitVec 8 := kind ++ cause

/-- What an operation writes to `STAT` when it ends (R22): `Ok` writes kind 0, cause 0. -/
def Result.status : Result → BitVec 8
  | .ok _ => statusWord Kind.ok.code 0
  | .err e => statusWord e.kind.code e.causeCode

/-- `STAT[7:4]`. -/
def State.statKind (s : State) : BitVec 4 := s.stat.extractLsb' 4 4
/-- `STAT[3:0]`. -/
def State.statCause (s : State) : BitVec 4 := s.stat.extractLsb' 0 4

end Sys2Proof.Machine
end

