-- ==== Sys2Proof/Machine/Operands.lean ====
section
/-! DEFINITION. Everything an operand is read through: the armor alphabet, bit order and extension, the
splitting of texts, decimal and hex fields, the checksum span, capacities (spec/00_scope.md R9 to R13,
20_memory.md R41, 30_encoding.md R60 to R71). -/

namespace Sys2Proof.Machine

/-! ### Capacities -/

/-- An input of size `n` exceeds the capacity (R9); `none` is unbounded. -/
def exceeds (cap : Option Nat) (n : Nat) : Bool :=
  match cap with
  | none => false
  | some m => m < n

/-- `FRAG_MAX · PARTS_MAX` (R90), unbounded unless both are finite. -/
def loadMax (c : Config) : Option Nat :=
  match c.fragMax, c.partsMax with
  | some f, some p => some (f * p)
  | _, _ => none

/-! ### The armor alphabet (R60 to R62) -/

/-- `armor(c)`, the 6-bit value of a legal armor byte (R60); `none` is invalid (R62). -/
def armor (c : Byte) : Option Nat :=
  if 0x30 ≤ c.toNat ∧ c.toNat ≤ 0x57 then some (c.toNat - 0x30)
  else if 0x60 ≤ c.toNat ∧ c.toNat ≤ 0x77 then some (c.toNat - 0x38)
  else none

/-- `unarmor(v)`, the byte of a 6-bit value (R61). -/
def unarmor (v : Nat) : Byte :=
  if v ≤ 39 then BitVec.ofNat 8 (v + 0x30) else BitVec.ofNat 8 (v + 0x38)

/-- The six bits a character's value contributes, in address order (R41). -/
def charBits (order : BitOrder) (v : Nat) : List Bool :=
  match order with
  | .msbFirst => [v.testBit 5, v.testBit 4, v.testBit 3, v.testBit 2, v.testBit 1, v.testBit 0]
  | .lsbFirst => [v.testBit 0, v.testBit 1, v.testBit 2, v.testBit 3, v.testBit 4, v.testBit 5]

/-- The bits of an armored text, or `none` when some byte of it is invalid (R90). -/
def dearmor (order : BitOrder) : Text → Option (List Bool)
  | [] => some []
  | c :: cs =>
    match armor c, dearmor order cs with
    | some v, some bits => some (charBits order v ++ bits)
    | _, _ => none

/-! ### Integers of bit sequences (R12, R13, R41) -/

/-- `uint` with the bit at the lowest address most significant: `Σ b_i · 2^(n-1-i)` (R12). -/
def uintMsb : List Bool → Nat
  | [] => 0
  | b :: bs => b.toNat * 2 ^ bs.length + uintMsb bs

/-- The set-aside reading, `Σ b_i · 2^i` (R41). -/
def uintLsb : List Bool → Nat
  | [] => 0
  | b :: bs => b.toNat + 2 * uintLsb bs

/-- `uint` under the `BIT_ORDER` in force (R41). -/
def uint (order : BitOrder) (bits : List Bool) : Nat :=
  match order with
  | .msbFirst => uintMsb bits
  | .lsbFirst => uintLsb bits

/-- `sext_n(u)`, the two's-complement reading of an n-bit pattern (R13). -/
def sext (n u : Nat) : Int := if 2 ^ (n - 1) ≤ u then (u : Int) - 2 ^ n else u

/-- The counts `n` a read accepts: 1 to `NMAX` (R76, R92). -/
def legalCount (n : Nat) : Bool := 1 ≤ n && n ≤ Config.nMax

/-! ### Texts (R63, R113, R191, R192) -/

/-- The first token of a text and the tokens after it. -/
def splitTokens (sep : Byte) : Text → Text × List Text
  | [] => ([], [])
  | c :: cs =>
    let r := splitTokens sep cs
    if c = sep then ([], r.1 :: r.2) else (c :: r.1, r.2)

/-- `split(t, sep)`: `m` separators give `m + 1` tokens, some possibly empty (R113, R191). -/
def split (sep : Byte) (t : Text) : List Text :=
  (splitTokens sep t).1 :: (splitTokens sep t).2

/-- `rtrim_cr`: the longest suffix made of CR only is dropped (R192). -/
def rtrimCr (x : Text) : Text := (x.reverse.dropWhile (· == CR)).reverse

/-- The index of a byte's last occurrence. -/
def lastIndexOf (b : Byte) : Text → Option Nat
  | [] => none
  | c :: cs =>
    match lastIndexOf b cs with
    | some i => some (i + 1)
    | none => if c = b then some 0 else none

/-! ### Decimal and hex fields (R66, R69, R115, R116) -/

/-- A byte `'0'` to `'9'`. -/
def isDigit (c : Byte) : Bool := 0x30 ≤ c.toNat && c.toNat ≤ 0x39

/-- `decimal(t)`: one or more decimal digits and nothing else (R115). -/
def decimal (t : Text) : Bool := !t.isEmpty && t.all isDigit

/-- `value(t)`, most significant digit first (R66). -/
def decimalValue (t : Text) : Nat := t.foldl (fun a c => 10 * a + (c.toNat - 0x30)) 0

/-- `val` of a hex digit, or `none` when the byte is not one that `HEX_CASE` accepts (R69, R116). -/
def hexVal (hc : HexCase) (c : Byte) : Option Nat :=
  if 0x30 ≤ c.toNat ∧ c.toNat ≤ 0x39 then some (c.toNat - 0x30)
  else if 0x41 ≤ c.toNat ∧ c.toNat ≤ 0x46 then some (c.toNat - 0x41 + 10)
  else if 0x61 ≤ c.toNat ∧ c.toNat ≤ 0x66 then
    match hc with
    | .both => some (c.toNat - 0x61 + 10)
    | .upperOnly => none
  else none

/-- The checksum a checksum field states, or `none` when the field is malformed: the last `'*'` must be
followed by exactly two hex digits (R69, R116). -/
def statedChecksum (hc : HexCase) (f6 : Text) : Option Byte :=
  match lastIndexOf asterisk f6 with
  | none => none
  | some k =>
    if f6.length - k - 1 ≠ 2 then none
    else
      match (f6[k + 1]?).bind (hexVal hc), (f6[k + 2]?).bind (hexVal hc) with
      | some h, some l => some (BitVec.ofNat 8 (16 * h + l))
      | _, _ => none

/-- The XOR of a span of bytes, 0 when it is empty (R70). -/
def xorAll (t : Text) : Byte := t.foldl (· ^^^ ·) 0

/-- The checksum span of a line that ends with `'*'` and two digits: `line[1 .. |line| - 3)` (R70, R110). -/
def checksumSpan (line : Text) : Text := (line.take (line.length - 3)).drop 1

end Sys2Proof.Machine
end

