-- ==== Sys2Proof/Machine/Ops.lean ====
section
/-! DEFINITION. The named operations over the state: memory access (spec/00_scope.md R14), the latches,
how an operation ends with a result or with an error (R15, 10_state.md R22, 60_exceptions.md R235), and
how the block takes what the host asks. -/

namespace Sys2Proof.Machine

/-! ### State updates, one per element -/

namespace State

/-- `MemWrite(0, m, bits)` of ABR.LOAD, with `CUR <- 0` and `BV <- 1` (R90). -/
def loadBuf (bits : List Bool) (s : State) : State := { s with buf := bits, cur := 0, bv := true }
/-- `CUR <- CUR + n` (R24). -/
def advance (n : Nat) (s : State) : State := { s with cur := s.cur + n }
/-- `RES <- v` (R21). -/
def setRes (v : BitVec 32) (s : State) : State := { s with res := v }
/-- `TYPE <- t` (R23). -/
def setType (t : BitVec 6) (s : State) : State := { s with typeCode := t }
/-- `Q <- q`. -/
def setQ (q : List Fragment) (s : State) : State := { s with q := q }
/-- `CARRY <- c`. -/
def setCarry (c : Text) (s : State) : State := { s with carry := c }
/-- `SRC <- v`. -/
def setSrc (v : Src) (s : State) : State := { s with src := v }
/-- The host writes `NOW` (R23). -/
def writeNow (t : BitVec 64) (s : State) : State := { s with now := t }
/-- The host's requests that remain. -/
def setPending (p : List HostAct) (s : State) : State := { s with pending := p }

/-- An operation ends (R15, R22): its result and events are returned and `STAT` is written. -/
def respond (r : Result) (ev : List BreakCause) (s : State) : State :=
  { s with result := r, events := ev, stat := r.status }

/-- The operation ends with `Ok(v)`. -/
def complete (v : Val) (ev : List BreakCause) (s : State) : State := s.respond (.ok v) ev

/-- TAKING AN ERROR, the block's whole "trap entry" (R235): the operation ends with `Err(kind, cause)`,
`STAT` says which, nothing is saved, no mode changes and control goes nowhere; `s` holds whatever the
failing operation changed before. There is no return: the next operation proceeds (R237). -/
def takeError (e : Error) (s : State) : State := s.respond (.err e) []

end State

/-! ### What an operation, or a part of one, answers -/

/-- The end of an operation or of a step inside one: `return v`, `raise e` (both with the state reached,
R14), or a refusal (R9). -/
inductive Ret (α : Type) where
  | ok (v : α) (s : State)
  | err (e : Error) (s : State)
  | refused (r : Refusal)
  deriving Repr

namespace Ret

/-- Go on with the value returned; an error or a refusal ends the whole at once (R238). -/
def bind {α β : Type} (r : Ret α) (f : α → State → Ret β) : Ret β :=
  match r with
  | .ok v s => f v s
  | .err e s => .err e s
  | .refused w => .refused w

/-- Change the value returned. -/
def map {α β : Type} (f : α → β) (r : Ret α) : Ret β :=
  match r with
  | .ok v s => .ok (f v) s
  | .err e s => .err e s
  | .refused w => .refused w

/-- The operation's outcome: its value and events returned, or its error taken. -/
def outcome {α : Type} (val : α → Val) (ev : α → List BreakCause) (r : Ret α) :
    Host.Outcome State Fault Refusal :=
  match r with
  | .ok v s => .next (s.complete (val v) (ev v))
  | .err e s => .next (s.takeError e)
  | .refused w => .refused w

end Ret

/-- An operation that emits no event. -/
def noEvents {α : Type} (_ : α) : List BreakCause := []

/-! ### The bit buffer -/

/-- `MemRead(a, n)`: the bits `BUF[a] … BUF[a+n-1]` in address order (R14). -/
def memRead (a n : Nat) (s : State) : List Bool := (s.buf.drop a).take n

/-- The three checks of a read in their order, then the bits at the cursor (R91 to R93): `NOBUF`,
`OPERAND`, `UNDERRUN`; a failed read changes nothing, one that succeeds advances `CUR` by `n`. -/
def readBits (n : Nat) (s : State) : Ret (List Bool) :=
  if s.bv = false then .err (.illegal .nobuf) s
  else if legalCount n = false then .err (.illegal .operand) s
  else if s.len - s.cur < n then .err (.decode .underrun) s
  else .ok (memRead s.cur n s) (s.advance n)

/-- Read and latch: the value returned is `f bits`, and `RES <- g bits` (R21). -/
def readLatch {α : Type} (n : Nat) (f : List Bool → α) (g : List Bool → BitVec 32) (s : State) : Ret α :=
  (readBits n s).bind fun bits s1 => .ok (f bits) (s1.setRes (g bits))

/-! ### Taking what the host asks -/

/-- What the next step does: nothing is asked; an action that is no operation has been applied; the word
selects no operation; an operation is to run in the state given. -/
inductive Fetched where
  | idle
  | applied (s : State)
  | illegal (s : State)
  | run (i : Instr) (s : State)
  deriving Repr

/-- Take the oldest of the host's pending actions (log 4): a write of `NOW` (R23), a reset (R250), or a
request, which is decoded (R75, R77). -/
def fetch (s : State) : Fetched :=
  match s.pending with
  | [] => .idle
  | .writeNow t :: rest => .applied ((s.setPending rest).writeNow t)
  | .reset :: rest => .applied (State.resetWith s.cfg (s.resets + 1) rest)
  | .issue r :: rest =>
    match decode r with
    | .ok i => .run i (s.setPending rest)
    | .error _ => .illegal (s.setPending rest)

end Sys2Proof.Machine
end

