-- ==== Sys2Proof/Machine/Abr.lean ====
section
/-! DEFINITION. The Armor Bit Reader: ABR.LOAD, RDU, RDI, RDB, RDR, AEX (spec/40_armor_reader.md R90 to
R97). -/

namespace Sys2Proof.Machine

/-- ABR.LOAD(text) (R90): all or nothing; an invalid byte leaves a buffer loaded before as it was. -/
def abrLoad (text : Text) (s : State) : Ret Unit :=
  if exceeds (loadMax s.cfg) text.length then .refused .overLoadMax
  else
    match dearmor s.cfg.bitOrder text with
    | none => .err (.parse .armor) s
    | some bits => .ok () (s.loadBuf bits)

/-- ABR.RDU(n) (R93): the next `n` bits as an unsigned integer; `RES <- zext_32(u)`. -/
def abrRdu (n : Nat) (s : State) : Ret Nat :=
  readLatch n (uint s.cfg.bitOrder) (fun b => BitVec.ofNat 32 (uint s.cfg.bitOrder b)) s

/-- ABR.RDI(n) (R94): the same bits as a two's-complement integer; `RES` is its 32-bit pattern. -/
def abrRdi (n : Nat) (s : State) : Ret Int :=
  readLatch n (fun b => sext n (uint s.cfg.bitOrder b))
    (fun b => BitVec.ofInt 32 (sext n (uint s.cfg.bitOrder b))) s

/-- ABR.RDB() (R95): one bit; 1 is true. -/
def abrRdb (s : State) : Ret Bool :=
  readLatch 1 (fun b => uint s.cfg.bitOrder b == 1) (fun b => BitVec.ofNat 32 (uint s.cfg.bitOrder b)) s

/-- ABR.RDR(n) (R96): the next `n` bits as an opaque bit range, in address order. -/
def abrRdr (n : Nat) (s : State) : Ret (List Bool) :=
  readLatch n id (fun b => BitVec.ofNat 32 (uint s.cfg.bitOrder b)) s

/-- ABR.AEX() (R97): fails if unread bits remain; changes nothing. -/
def abrAex (s : State) : Ret Unit :=
  if s.bv = false then .err (.illegal .nobuf) s
  else if s.cur ≠ s.len then .err (.decode .trailing) s
  else .ok () s

def execAbrLoad (text : Text) (s : State) : Host.Outcome State Fault Refusal :=
  (abrLoad text s).outcome (fun _ => .none) noEvents

def execAbrRdu (n : Nat) (s : State) : Host.Outcome State Fault Refusal :=
  (abrRdu n s).outcome .nat noEvents

def execAbrRdi (n : Nat) (s : State) : Host.Outcome State Fault Refusal :=
  (abrRdi n s).outcome .int noEvents

def execAbrRdb (s : State) : Host.Outcome State Fault Refusal :=
  (abrRdb s).outcome .bool noEvents

def execAbrRdr (n : Nat) (s : State) : Host.Outcome State Fault Refusal :=
  (abrRdr n s).outcome .raw noEvents

def execAbrAex (s : State) : Host.Outcome State Fault Refusal :=
  (abrAex s).outcome (fun _ => .none) noEvents

end Sys2Proof.Machine
end

