-- ==== Sys2Proof/Machine/Fdc.lean ====
section
/-! DEFINITION. The class-A position-report decoder FDC.POSA and its converters
(spec/44_field_decoder_posa.md R160 to R173). -/

namespace Sys2Proof.Machine

/-! ### The unit converters, in exact rationals (R10) -/

/-- `CONV_ROT(raw)` (R162): `sign(raw) · raw² · 50000 / 67203867` degrees per second. -/
def convRot (raw : Int) : Value :=
  if raw = -128 then .notAvailable
  else if raw = -127 then .turnLeftUnbounded
  else if raw = 127 then .turnRightUnbounded
  else .real (mkRat (raw.sign * raw ^ 2 * 50000) 67203867)

/-- `CONV_SOG(raw)` (R163): tenths of a knot, no sentinel. -/
def convSog (raw : Nat) : Value := .real (mkRat raw 10)

/-- `CONV_LON(raw)` (R164): `raw / 600000` degrees; the sentinel is `181 · 600000`. -/
def convLon (raw : Int) : Value := if raw = 108600000 then .notAvailable else .real (mkRat raw 600000)

/-- `CONV_LAT(raw)` (R165): `raw / 600000` degrees; the sentinel is `91 · 600000`. -/
def convLat (raw : Int) : Value := if raw = 54600000 then .notAvailable else .real (mkRat raw 600000)

/-- `CONV_COG(raw)` (R166): tenths of a degree; the sentinel is 3600. -/
def convCog (raw : Nat) : Value := if raw = 3600 then .notAvailable else .real (mkRat raw 10)

/-- `CONV_HDG(raw)` (R167): degrees; the sentinel is 511. -/
def convHdg (raw : Nat) : Value := if raw = 511 then .notAvailable else .int raw

/-- `CONV_TS(raw, now)` (R168): a mode code from 60 on, else the instant with that second of a minute
that lies within 30 s of `now`. -/
def convTs (raw : Nat) (now : BitVec 64) : Value :=
  if 60 ≤ raw then .timeMode raw
  else
    let n : Int := now.toNat
    let cand : Int := 60 * (n / 60) + raw
    let d : Int := cand - n
    if 30 < d then .instant (cand - 60)
    else if d < -30 then .instant (cand + 60)
    else .instant cand

/-! ### The field sequence -/

/-- The read and the converter of each field (R161, R169, R170). -/
def readField (f : FieldName) (s : State) : Ret Value :=
  match f with
  | .repeatInd => (abrRdu 2 s).map fun (u : Nat) => .int u
  | .mmsi => (abrRdu 30 s).map fun (u : Nat) => .int u
  | .status => (abrRdu 4 s).map .enum
  | .turn => (abrRdi 8 s).map convRot
  | .speed => (abrRdu 10 s).map convSog
  | .accuracy => (abrRdb s).map .bool
  | .lon => (abrRdi 28 s).map convLon
  | .lat => (abrRdi 27 s).map convLat
  | .course => (abrRdu 12 s).map convCog
  | .heading => (abrRdu 9 s).map convHdg
  | .second => (abrRdu 6 s).map fun u => convTs u s.now
  | .maneuver => (abrRdu 2 s).map .enum
  | .spare => (abrRdr 3 s).map .raw
  | .raim => (abrRdb s).map .bool
  | .syncState => (abrRdu 2 s).map .enum
  | .slotTimeout => (abrRdu 3 s).map fun (u : Nat) => .int u
  | .commState => (abrRdr 14 s).map .raw

/-- The seventeen fields in bit order, "strictly left-to-right" (R161). -/
def classA : List FieldName :=
  [.repeatInd, .mmsi, .status, .turn, .speed, .accuracy, .lon, .lat, .course, .heading, .second,
   .maneuver, .spare, .raim, .syncState, .slotTimeout, .commState]

/-- Read fields one after another; the first that fails ends the sequence (R172). -/
def readFields : List FieldName → State → Ret FieldMap
  | [], s => .ok [] s
  | f :: fs, s =>
    (readField f s).bind fun v s1 => (readFields fs s1).bind fun m s2 => .ok ((f, v) :: m) s2

/-- FDC.POSA() (R160, R161): needs a buffer and `CUR = 6`, reads the fields, asserts exhaustion (R171). -/
def fdcPosa (s : State) : Ret FieldMap :=
  if s.bv = false then .err (.illegal .nobuf) s
  else if s.cur ≠ Config.typeBits then .err (.illegal .cursor) s
  else (readFields classA s).bind fun m s1 => (abrAex s1).bind fun _ s2 => .ok m s2

def execFdcPosa (s : State) : Host.Outcome State Fault Refusal :=
  (fdcPosa s).outcome .fieldMap noEvents

end Sys2Proof.Machine
end

