-- ==== Sys2Proof/Machine/Dsp.lean ====
section
/-! DEFINITION. The Message Dispatcher: DSP.DISP (spec/43_dispatcher.md R150 to R153). -/

namespace Sys2Proof.Machine

/-- What the static registry holds for a type code (R151, R152): the class-A decoder, a stub, or nothing. -/
inductive RegistryEntry where
  | classA
  | stub
  | absent
  deriving DecidableEq, Repr

/-- The registry: 1, 2 and 3 select FDC.POSA, the other codes from `TYPE_LO` to `TYPE_HI` are stubs. -/
def registry (t : Nat) : RegistryEntry :=
  if t = 1 ∨ t = 2 ∨ t = 3 then .classA
  else if Config.typeLo ≤ t ∧ t ≤ Config.typeHi then .stub
  else .absent

/-- DSP.DISP() (R150): needs a buffer and `CUR = 0`, reads the type code, routes. A stub and an
unrecognised code alike give the empty field map (R152). -/
def dspDisp (s : State) : Ret DecodedMessage :=
  if s.bv = false then .err (.illegal .nobuf) s
  else if s.cur ≠ 0 then .err (.illegal .cursor) s
  else
    (abrRdu Config.typeBits s).bind fun t s1 =>
      let code := BitVec.ofNat 6 t
      let s2 := s1.setType code
      match registry t with
      | .classA => (fdcPosa s2).map fun m => ⟨code, m⟩
      | .stub => .ok ⟨code, []⟩ s2
      | .absent => .ok ⟨code, []⟩ s2

def execDspDisp (s : State) : Host.Outcome State Fault Refusal :=
  (dspDisp s).outcome .message noEvents

end Sys2Proof.Machine
end

