-- ==== Sys2Proof/Machine/Frm.lean ====
section
/-! DEFINITION. The Line Framer: FRM.PUSH and FRM.EOS (spec/45_line_framer.md R190 to R195). -/

namespace Sys2Proof.Machine

/-- The lines of the terminated tokens: trimmed of trailing CR, empty ones suppressed (R192, R193). -/
def linesOf (tokens : List Text) : List Text := (tokens.map rtrimCr).filter (· ≠ [])

/-- FRM.PUSH(chunk) (R190): the last token is held back as the carry. -/
def frmPush (chunk : Text) (s : State) : Ret (List Text) :=
  let tokens := split LF (s.carry ++ chunk)
  if tokens.any fun t => exceeds s.cfg.lineMax t.length then .refused .overLineMax
  else .ok (linesOf tokens.dropLast) (s.setCarry (tokens.getLastD []))

/-- FRM.EOS() (R194): the carry is discarded. -/
def frmEos (s : State) : Ret Unit := .ok () (s.setCarry [])

def execFrmPush (chunk : Text) (s : State) : Host.Outcome State Fault Refusal :=
  (frmPush chunk s).outcome .lines noEvents

def execFrmEos (s : State) : Host.Outcome State Fault Refusal :=
  (frmEos s).outcome (fun _ => .none) noEvents

end Sys2Proof.Machine
end

