-- ==== Sys2Proof/Machine/Par.lean ====
section
/-! DEFINITION. The Sentence Parser: PAR.PARSE (spec/41_sentence_parser.md R110 to R123). -/

namespace Sys2Proof.Machine

/-- What parsing a line gives: a Sentence, the cause of a ParseError, or a refusal (R9). -/
inductive Parsed where
  | sentence (s : Sentence)
  | error (c : ParseCause)
  | refused (r : Refusal)
  deriving DecidableEq, Repr

/-- `F[4]` is one of the two members of `CHANNEL_SET` (R119). -/
def inChannelSet (c : Config) (ch : Text) : Bool := ch == c.channel1 || ch == c.channel2

/-- The checks of an encapsulated line after it has split into its seven fields, in the order of R122. -/
def parseFields (c : Config) (line f0 f1 f2 f3 f4 f5 f6 : Text) : Parsed :=
  if f0.length < 3 then .error .header
  else if decimal f1 = false ∨ decimal f2 = false then .error .integer
  else
    match statedChecksum c.hexCase f6 with
    | none => .error .ckField
    | some stated =>
      if xorAll (checksumSpan line) ≠ stated then .error .ckSum
      else if exceeds c.partsMax (decimalValue f1) then .refused .overPartsMax
      else if ¬(1 ≤ decimalValue f2 ∧ decimalValue f2 ≤ decimalValue f1) then .error .partIdx
      else if inChannelSet c f4 = false then .error .channel
      else if ¬(f3 ≠ [] ↔ 1 < decimalValue f1) then .error .seqId
      else if exceeds c.fragMax f5.length then .refused .overFragMax
      else .sentence (.encapsulated
        { raw := line, talker := (f0.drop 1).take 2, subtype := f0.drop 3,
          partCount := decimalValue f1, partIndex := decimalValue f2,
          seqId := f3, channel := f4, payload := f5, checksum := stated })

/-- PAR.PARSE(line) (R110), a pure function of the line and the parameters. -/
def parse (c : Config) (line : Text) : Parsed :=
  if exceeds c.lineMax line.length then .refused .overLineMax
  else
    match line.head? with
    | none => .error .marker
    | some m =>
      if m = dollar then .sentence (.delimited line)
      else if m = hashSign then .sentence (.comment line)
      else if m = bang then
        match split comma line with
        | [f0, f1, f2, f3, f4, f5, f6] => parseFields c line f0 f1 f2 f3 f4 f5 f6
        | _ => .error .fields
      else .error .marker

/-- PAR.PARSE as an operation: it changes no state. -/
def parParse (line : Text) (s : State) : Ret Sentence :=
  match parse s.cfg line with
  | .sentence snt => .ok snt s
  | .error c => .err (.parse c) s
  | .refused r => .refused r

def execParParse (line : Text) (s : State) : Host.Outcome State Fault Refusal :=
  (parParse line s).outcome .sentence noEvents

end Sys2Proof.Machine
end

