-- ==== Sys2Proof/Machine/Rsm.lean ====
section
/-! DEFINITION. The Reassembler: RSM.PUSH (spec/42_reassembler.md R130 to R137). -/

namespace Sys2Proof.Machine

/-- A self-contained message (R131). -/
def selfContained (f : Fragment) : Bool := f.partCount == 1 && f.seqId == [] && f.partIndex == 1

/-- A genuine multi-part fragment (R132 to R135). -/
def isFragment (f : Fragment) : Bool :=
  f.seqId != [] && 1 < f.partCount && 1 ≤ f.partIndex && f.partIndex ≤ f.partCount

/-- `continues(p, s)` (R132). -/
def continues (p f : Fragment) : Bool :=
  p.talker == f.talker && p.subtype == f.subtype && p.channel == f.channel && p.seqId == f.seqId
    && p.partCount == f.partCount && f.partIndex == p.partIndex + 1

/-- `Q ≠ []` and the last fragment queued is not continued (R133). -/
def breaks (q : List Fragment) (f : Fragment) : Bool :=
  match q.getLast? with
  | none => false
  | some p => !continues p f

/-- The completed payload, if any, and the events of the operation. -/
abbrev Pushed := Option Text × List BreakCause

/-- The fragment arm (R133 to R135): discard the queue on a break, drop a fragment that cannot start an
accumulation, else append it and complete the message when it is the last part. -/
def pushFragment (f : Fragment) (s : State) : Ret Pushed :=
  let q0 := if breaks s.q f then [] else s.q
  let ev := if breaks s.q f then [BreakCause.sequence] else []
  if q0 = [] ∧ f.partIndex ≠ 1 then
    .ok (none, if ev = [] then [.orphan] else ev) (s.setQ [])
  else if f.partIndex = f.partCount then
    .ok (some ((q0 ++ [f]).flatMap (·.payload)), ev) (s.setQ [])
  else
    .ok (none, ev) (s.setQ (q0 ++ [f]))

/-- RSM.PUSH(s) of a Sentence that fits (R130). It is "defined for every Sentence value", one whose fields fit no
line included (log 12). -/
def offer (snt : Sentence) (s : State) : Ret Pushed :=
  match snt with
  | .delimited _ => .err (.reassembly .shape) (s.setQ [])
  | .comment _ => .err (.reassembly .shape) (s.setQ [])
  | .encapsulated f =>
    if selfContained f then
      .ok (some f.payload, if s.q = [] then [] else [.preempt]) (s.setQ [])
    else if isFragment f then pushFragment f s
    else .err (.reassembly .shape) (s.setQ [])

/-- The finite capacity a Sentence exceeds, if any: the line by its `raw` text, then the part count, then the
payload (R9, for a Sentence the host made by hand; log 7). -/
def overCapacity (c : Config) (snt : Sentence) : Option Refusal :=
  if exceeds c.lineMax snt.raw.length then some .overLineMax
  else
    match snt with
    | .delimited _ => none
    | .comment _ => none
    | .encapsulated f =>
      if exceeds c.partsMax f.partCount then some .overPartsMax
      else if exceeds c.fragMax f.payload.length then some .overFragMax
      else none

/-- RSM.PUSH(s): a Sentence beyond a finite capacity is refused (R9; log 7), any other is offered to the state
machine (R130). -/
def rsmPush (snt : Sentence) (s : State) : Ret Pushed :=
  match overCapacity s.cfg snt with
  | some r => .refused r
  | none => offer snt s

def execRsmPush (snt : Sentence) (s : State) : Host.Outcome State Fault Refusal :=
  (rsmPush snt s).outcome (fun p => .text p.1) (fun p => p.2)

end Sys2Proof.Machine
end

