-- ==== Sys2Proof/Machine/Top.lean ====
section
/-! DEFINITION. The pipeline: TOP.FEED, TOP.EOS, TOP.SRCERR (spec/46_pipeline.md R205 to R213). -/

namespace Sys2Proof.Machine

/-- FINISH(text, line) (R207): build the buffer and dispatch; a failure is an `Error` item that carries the
line whose arrival completed the message. -/
def finish (text line : Text) (s : State) : Ret (List Item) :=
  match abrLoad text s with
  | .refused r => .refused r
  | .err e s1 => .ok [.error e line] s1
  | .ok _ s1 =>
    match dspDisp s1 with
    | .refused r => .refused r
    | .err e s2 => .ok [.error e line] s2
    | .ok m s2 => .ok [.message m] s2

/-- What follows an RSM.PUSH inside PROCESS (R206): its events first, then the error or the message. -/
def afterPush (line : Text) (r : Ret Pushed) : Ret (List Item) :=
  match r with
  | .refused w => .refused w
  | .err e s1 => .ok [.error e line] s1
  | .ok p s1 =>
    match p.1 with
    | none => .ok (p.2.map .event) s1
    | some text => (finish text line s1).map (p.2.map .event ++ ·)

/-- PROCESS(line) (R206). A sentence that is not encapsulated is passed through, never reassembled. -/
def process (line : Text) (s : State) : Ret (List Item) :=
  match parse s.cfg line with
  | .refused r => .refused r
  | .error c => .ok [.error (.parse c) line] s
  | .sentence (.delimited raw) => .ok [.nonAis (.delimited raw)] s
  | .sentence (.comment raw) => .ok [.nonAis (.comment raw)] s
  | .sentence (.encapsulated f) => afterPush line (rsmPush (.encapsulated f) s)

/-- The lines of one chunk, in order (R205). -/
def processAll : List Text → State → Ret (List Item)
  | [], s => .ok [] s
  | line :: ls, s =>
    (process line s).bind fun items s1 => (processAll ls s1).bind fun more s2 => .ok (items ++ more) s2

/-- TOP.FEED(chunk) (R205). -/
def topFeed (chunk : Text) (s : State) : Ret (List Item) :=
  if s.src ≠ .opened then .err (.illegal .srcState) s
  else (frmPush chunk s).bind fun lines s1 => processAll lines s1

/-- TOP.EOS() (R211). -/
def topEos (s : State) : Ret (List Item) :=
  if s.src ≠ .opened then .err (.illegal .srcState) s
  else (frmEos s).bind fun _ s1 => .ok [] (s1.setSrc .ended)

/-- TOP.SRCERR() (R212). -/
def topSrcerr (s : State) : Ret (List Item) :=
  if s.src ≠ .opened then .err (.illegal .srcState) s
  else .ok [.error .source []] (s.setSrc .failed)

/-- The continuity-break events among the items: TOP.FEED's event list (00_scope.md R15; log 10). -/
def itemEvents (items : List Item) : List BreakCause :=
  items.filterMap fun
    | .event c => some c
    | .message _ => none
    | .nonAis _ => none
    | .error _ _ => none

def execTopFeed (chunk : Text) (s : State) : Host.Outcome State Fault Refusal :=
  (topFeed chunk s).outcome .items itemEvents

def execTopEos (s : State) : Host.Outcome State Fault Refusal :=
  (topEos s).outcome .items noEvents

def execTopSrcerr (s : State) : Host.Outcome State Fault Refusal :=
  (topSrcerr s).outcome .items noEvents

end Sys2Proof.Machine
end

