-- ==== Sys2Proof/Machine/Dispatch.lean ====
section
/-! DEFINITION. One arm per operation of spec/opcode_table.json. -/

namespace Sys2Proof.Machine

def exec (i : Instr) (s : State) : Host.Outcome State Fault Refusal :=
  match i with
  | .abrLoad text => Sys2Proof.Machine.execAbrLoad text s
  | .abrRdu n => Sys2Proof.Machine.execAbrRdu n s
  | .abrRdi n => Sys2Proof.Machine.execAbrRdi n s
  | .abrRdb => Sys2Proof.Machine.execAbrRdb s
  | .abrRdr n => Sys2Proof.Machine.execAbrRdr n s
  | .abrAex => Sys2Proof.Machine.execAbrAex s
  | .parParse line => Sys2Proof.Machine.execParParse line s
  | .rsmPush snt => Sys2Proof.Machine.execRsmPush snt s
  | .dspDisp => Sys2Proof.Machine.execDspDisp s
  | .fdcPosa => Sys2Proof.Machine.execFdcPosa s
  | .frmPush chunk => Sys2Proof.Machine.execFrmPush chunk s
  | .frmEos => Sys2Proof.Machine.execFrmEos s
  | .topFeed chunk => Sys2Proof.Machine.execTopFeed chunk s
  | .topEos => Sys2Proof.Machine.execTopEos s
  | .topSrcerr => Sys2Proof.Machine.execTopSrcerr s

end Sys2Proof.Machine
end

