-- ==== Sys2Proof/Machine/Step.lean ====
section
/-! DEFINITION. One step: the block takes the oldest of the host's pending actions. -/

namespace Sys2Proof.Machine

/-- With nothing asked the state survives unchanged (60_exceptions.md R244); a write of `NOW` or a reset is
applied (R23, R250); a reserved word fails with IllegalCommand(OPCODE) (30_encoding.md R77); an operation
runs, one at a time and atomically (20_memory.md R47, R50). -/
def step (s : State) : Host.Outcome State Fault Refusal :=
  match fetch s with
  | .idle => .next s
  | .applied s1 => .next s1
  | .illegal s1 => .next (s1.takeError (.illegal .opcode))
  | .run i s1 => exec i s1

/-- The state in which the host's very next action is to issue the word `w`, operand lines empty. -/
def State.withFetchWord (s : State) (_nbits w : Nat) : State :=
  s.setPending (.issue (wordRequest (BitVec.ofNat 16 w)) :: s.pending)

end Sys2Proof.Machine
end

