-- ==== Sys2Proof/Machine/Port.lean ====
section
/-! DEFINITION. What the host sees of a result: the scaled values in the representation `REAL_FORMAT` (spec/00_scope.md
R8, R16; 92_eei_decisions.md D15). State keeps the exact rationals, since the parameter is "rendering only" and
changes no rule's result. -/

namespace Sys2Proof.Machine

/-- The number a port shows for the scaled value `q` (D15, U16; log 8). -/
def showReal (f : RealFormat) (q : Rat) : Rat :=
  match f with
  | .exact => q
  | .machine k => Config.rendered k q

/-- A field's value: only a `Real` has a representation of its own (R16). -/
def Value.shown (f : RealFormat) : Value → Value
  | .real q => .real (showReal f q)
  | .int i => .int i
  | .bool b => .bool b
  | .enum e => .enum e
  | .raw bits => .raw bits
  | .instant t => .instant t
  | .timeMode c => .timeMode c
  | .notAvailable => .notAvailable
  | .turnLeftUnbounded => .turnLeftUnbounded
  | .turnRightUnbounded => .turnRightUnbounded

def showFields (f : RealFormat) (m : FieldMap) : FieldMap := m.map fun p => (p.1, p.2.shown f)

def DecodedMessage.shown (f : RealFormat) (m : DecodedMessage) : DecodedMessage :=
  { m with fields := showFields f m.fields }

def Item.shown (f : RealFormat) : Item → Item
  | .message m => .message (m.shown f)
  | .nonAis s => .nonAis s
  | .error e raw => .error e raw
  | .event c => .event c

def Val.shown (f : RealFormat) : Val → Val
  | .message m => .message (m.shown f)
  | .fieldMap m => .fieldMap (showFields f m)
  | .items l => .items (l.map (Item.shown f))
  | .none => .none
  | .nat u => .nat u
  | .int i => .int i
  | .bool b => .bool b
  | .raw bits => .raw bits
  | .sentence s => .sentence s
  | .text t => .text t
  | .lines l => .lines l

def Result.shown (f : RealFormat) : Result → Result
  | .ok v => .ok (v.shown f)
  | .err e => .err e

/-- What the host reads on the result port (R15). -/
def State.port (s : State) : Result := s.result.shown s.cfg.realFormat

end Sys2Proof.Machine
end

