-- ==== Sys2Proof/Machine/Sessions.lean ====
section
/-! DEFINITION. Several sessions: `N_SESSIONS` independent copies of the state, one per byte source
(spec/00_scope.md R8, 10_state.md R38, 60_exceptions.md R243). -/

namespace Sys2Proof.Machine

/-- The instances of a system with `N_SESSIONS = n + 1`, so at least 1 (R8). They share nothing. -/
abbrev Sessions (n : Nat) := Vector State (n + 1)

/-- What one step of one session does to a system: the other sessions stay. Which session moves is the caller's
choice (R50: between sessions there is nothing to order). -/
def stepSession {n : Nat} (k : Fin (n + 1)) (ss : Sessions n) : Host.Outcome (Sessions n) Fault Refusal :=
  match step ss[k] with
  | .next s1 => .next (ss.set k s1)
  | .fault f => .fault f
  | .refused r => .refused r

end Sys2Proof.Machine
end

