-- ==== Sys2Proof/Safety.lean ====
section
/-! DEFINITION. What claims about runs are stated in: the invariants the spec gives the state, and a run
that goes on. -/

namespace Sys2Proof

open Machine

/-- The bit buffer's form: `LEN` is a multiple of 6 (spec/10_state.md R20, R26). A buffer is dense from
address 0, so a list is its one form (log 5). -/
def Memory.wf (bits : List Bool) : Bool := bits.length % Config.charBits == 0

/-- `0 ≤ CUR ≤ LEN` (R24, R25). -/
def cursorOk (s : State) : Prop := s.cur ≤ s.len

/-- `CARRY` holds no LF (R29). -/
def carryOk (s : State) : Prop := LF ∉ s.carry

/-- Two fragments belong to one message: they agree on talker, subtype, channel, sequence id and part
count (R28). -/
def sameMessage (f g : Fragment) : Prop :=
  f.talker = g.talker ∧ f.subtype = g.subtype ∧ f.channel = g.channel ∧ f.seqId = g.seqId ∧
    f.partCount = g.partCount

/-- The queue invariant of R28: every fragment has a sequence id and `part_count > 1`, all belong to one
message, the j-th (from 1) has part index j, and there are fewer than `part_count` of them. -/
def queueOk (q : List Fragment) : Prop :=
  ∀ j f, q[j]? = some f →
    f.seqId ≠ [] ∧ 1 < f.partCount ∧ f.partIndex = j + 1 ∧ q.length < f.partCount ∧
      ∀ g ∈ q, sameMessage f g

/-- `STAT` is the word of the result last returned (R22; at reset 0x00, and the port holds `Ok`). -/
def statOk (s : State) : Prop := s.stat = s.result.status

/-- The invariants of a session together. -/
structure Inv (s : State) : Prop where
  memory : Memory.wf s.buf = true
  cursor : cursorOk s
  queue  : queueOk s.q
  carry  : carryOk s
  status : statOk s

/-- A step that goes on. -/
def stepsTo (s t : State) : Prop := step s = .next t

/-- No capacity is finite: R8's default, under which no input is refused for size (R9). -/
def unbounded (c : Config) : Prop := c.lineMax = none ∧ c.fragMax = none ∧ c.partsMax = none

/-! ### Lines put together from their parts (spec/30_encoding.md R63) -/

/-- The parts of an encapsulated line: the seven fields of R63, with the header cut into talker and subtype
and the last field into the text before the last `'*'` and the two bytes after it. -/
structure LineParts where
  talker  : Text
  subtype : Text
  count   : Text
  index   : Text
  seqId   : Text
  channel : Text
  payload : Text
  pad     : Text
  hi      : Byte
  lo      : Byte
  deriving DecidableEq, Repr

namespace LineParts

/-- The bytes between the marker and the last `'*'` (R70). -/
def span (p : LineParts) : Text :=
  p.talker ++ (p.subtype ++ comma :: (p.count ++ comma :: (p.index ++ comma :: (p.seqId ++
    comma :: (p.channel ++ comma :: (p.payload ++ comma :: p.pad))))))

/-- The line (R63). -/
def line (p : LineParts) : Text := bang :: (p.span ++ [asterisk, p.hi, p.lo])

/-- The parts pass the structural checks of R63: a two-byte talker, no comma inside a field, decimal part
count and part index. -/
abbrev fieldsOk (p : LineParts) : Prop :=
  p.talker.length = 2 ∧ comma ∉ p.talker ∧ comma ∉ p.subtype ∧ decimal p.count = true ∧
    decimal p.index = true ∧ comma ∉ p.seqId ∧ comma ∉ p.channel ∧ comma ∉ p.payload ∧ comma ∉ p.pad

/-- The two bytes after the `'*'` are hex digits that state the checksum `ck` (R69). -/
abbrev states (p : LineParts) (hc : HexCase) (ck : Byte) : Prop :=
  ∃ h l, hexVal hc p.hi = some h ∧ hexVal hc p.lo = some l ∧ ck = BitVec.ofNat 8 (16 * h + l)

/-- The part count and the part index. -/
abbrev countOf (p : LineParts) : Nat := decimalValue p.count
abbrev indexOf (p : LineParts) : Nat := decimalValue p.index

/-- The Sentence the parts make (R63, R110). -/
def fragment (p : LineParts) (ck : Byte) : Fragment where
  raw := p.line
  talker := p.talker
  subtype := p.subtype
  partCount := p.countOf
  partIndex := p.indexOf
  seqId := p.seqId
  channel := p.channel
  payload := p.payload
  checksum := ck

end LineParts

/-! ### The class-A report by its bit addresses (R72) -/

/-- The bits of `w` addresses from `a` on. -/
abbrev bitsAt (buf : List Bool) (a w : Nat) : List Bool := (buf.drop a).take w

/-- The first address and the width of the seventeen fields, from R72's table. -/
def classALayout : List (Nat × Nat) :=
  [(6, 2), (8, 30), (38, 4), (42, 8), (50, 10), (60, 1), (61, 28), (89, 27), (116, 12), (128, 9), (137, 6),
   (143, 2), (145, 3), (148, 1), (149, 2), (151, 3), (154, 14)]

/-- The addresses of the fields that R72 reads as two's-complement integers: turn, lon, lat. -/
def classASigned : List Nat := [42, 61, 89]

/-- What `RES` holds once the fields below address `a` have been read (R21 for each read; log 9): the value of
the field that ends at `a`, `old` when none does. -/
def classARes (o : BitOrder) (buf : List Bool) (old : BitVec 32) (a : Nat) : BitVec 32 :=
  match classALayout.find? fun p => p.1 + p.2 == a with
  | none => old
  | some (b, w) =>
    if b ∈ classASigned then BitVec.ofInt 32 (sext w (uint o (bitsAt buf b w)))
    else BitVec.ofNat 32 (uint o (bitsAt buf b w))

/-- The seventeen fields of a class-A report as functions of the bits at the addresses of R72. -/
def classAReport (o : BitOrder) (buf : List Bool) (now : BitVec 64) : FieldMap :=
  let u := fun a w => uint o (bitsAt buf a w)
  [(.repeatInd, .int (u 6 2)), (.mmsi, .int (u 8 30)), (.status, .enum (u 38 4)),
   (.turn, convRot (sext 8 (u 42 8))), (.speed, convSog (u 50 10)), (.accuracy, .bool (u 60 1 == 1)),
   (.lon, convLon (sext 28 (u 61 28))), (.lat, convLat (sext 27 (u 89 27))), (.course, convCog (u 116 12)),
   (.heading, convHdg (u 128 9)), (.second, convTs (u 137 6) now), (.maneuver, .enum (u 143 2)),
   (.spare, .raw (bitsAt buf 145 3)), (.raim, .bool (u 148 1 == 1)), (.syncState, .enum (u 149 2)),
   (.slotTimeout, .int (u 151 3)), (.commState, .raw (bitsAt buf 154 14))]

end Sys2Proof
end

