-- ==== Sys2Proof/Certificates/Slice0/Obligations.lean ====
section
/-! DEFINITION. The statements for the provers. Each docstring names the rules it formalises; "spec's decision
D<n>" marks a clause that spec/92_eei_decisions.md declares the spec's own choice, "log <n>" a choice of the
model's (notes/assumptions). -/

open Sys2Proof Sys2Proof.Machine

/-! ### The command interface -/

/-- A request whose word selects an operation runs it: the request is taken off the host's list and `step` is
`exec` of the operation (30_encoding.md R75; the list is the model's, log 4). -/
def Obligations.StepRunsDecodedInstruction : Prop :=
  ∀ (s : State) (r : Request) (rest : List HostAct) (i : Instr),
    s.pending = .issue r :: rest → decode r = .ok i → step s = exec i { s with pending := rest }

/-- A command word that matches no row of the table fails with IllegalCommand(OPCODE), `STAT = 0x71`, and
changes nothing else (R77, spec's decision D1). -/
def Obligations.ReservedWordChangesOnlyStatus : Prop :=
  ∀ (s : State) (r : Request) (rest : List HostAct),
    s.pending = .issue r :: rest → (∀ row ∈ opcodeRows, row.has r.cw = false) →
    step s = .next { s with
      pending := rest, result := .err (.illegal .opcode), events := [], stat := 0x71 }

/-- A word that matches a row of the table decodes to that row's operation, and encoding the operation gives
the word back, `ARG` included (R75, R76, spec's decision D1). -/
def Obligations.DecodeFollowsOpcodeTable : Prop :=
  ∀ (r : Request) (row : OpcodeRow), row ∈ opcodeRows → row.has r.cw = true →
    ∃ i, decode r = .ok i ∧ i.mnemonic = row.mnemonic ∧ encodeWord i = r.cw ∧ i.wellFormed = true

/-- Decoding the encoding of any operation that has one gives it back, operands and count included (R74 to
R76, spec's decision D1; the operand lines are the model's, log 11). -/
def Obligations.DecodeEncodeAgree : Prop :=
  ∀ i : Instr, i.wellFormed = true → decode (encode i) = .ok i

/-- Words written out from R75's table decode to the operations they stand for. -/
def Obligations.DecodesWrittenOutWords : Prop :=
  decodeTableWord 16 0b0001000000000000 = some (.abrLoad []) ∧
  decodeTableWord 16 0b0001000100011110 = some (.abrRdu 30) ∧
  decodeTableWord 16 0b0001001000011100 = some (.abrRdi 28) ∧
  decodeTableWord 16 0b0010000000000000 = some (.parParse []) ∧
  decodeTableWord 16 0b0110000100000000 = some .frmEos ∧
  decodeTableWord 16 0b0111001000000000 = some .topSrcerr ∧
  decodeTableWord 16 0b0001001100000001 = none

/-- What a step does when the host issues no operation: with nothing asked the state survives unchanged
(60_exceptions.md R244); a write of `NOW` changes `NOW` only (R23); reset gives every element that R37 gives a
value that value (R250, spec's decision D25), keeps the parameters and the remaining requests, and the port
holds `Ok` (log 3); a fresh session is a reset session (R250). -/
def Obligations.HostActionsBetweenOperations : Prop :=
  (∀ s : State, s.pending = [] → step s = .next s) ∧
  (∀ (s : State) (t : BitVec 64) (rest : List HostAct), s.pending = .writeNow t :: rest →
    step s = .next { s with now := t, pending := rest }) ∧
  (∀ (s : State) (rest : List HostAct), s.pending = .reset :: rest →
    ∃ t, step s = .next t ∧ t.q = [] ∧ t.carry = [] ∧ t.bv = false ∧ t.src = .opened ∧ t.stat = 0x00 ∧
      t.cfg = s.cfg ∧ t.pending = rest ∧ t.result = .ok .none ∧ t.events = []) ∧
  (∀ s : State, s.cfg = Config.default → s.pending = [.reset] →
    ∃ t, step s = .next t ∧ t.q = State.reset.q ∧ t.carry = State.reset.carry ∧ t.bv = State.reset.bv ∧
      t.src = State.reset.src ∧ t.stat = State.reset.stat ∧ t.cfg = State.reset.cfg)

/-! ### Invariants and whole-machine rules -/

/-- The invariants hold right after every reset, whatever the free values (R20, R26, R28, R29; the free
values are the model's, log 2). -/
def Obligations.InvHoldsAfterReset : Prop :=
  ∀ (c : Config) (k : Nat) (p : List HostAct), Inv (State.resetWith c k p)

/-- Every step keeps the invariants: `LEN` stays a multiple of 6, `CUR` within 0 and `LEN` (R24, R25), the
queue holds parts 1 to k of one message, k below its part count (R28), `CARRY` holds no LF (R29), `STAT` is the
word of the last result (R22, spec's decisions D2, D18). -/
def Obligations.StepKeepsInv : Prop :=
  ∀ s t : State, Inv s → step s = .next t → Inv t

/-- No operation writes `NOW` (R23: "the block never writes it"), a parameter (log 1), or what the host asks
for next (log 4). -/
def Obligations.NoOperationWritesTheClock : Prop :=
  ∀ (i : Instr) (s t : State), exec i s = .next t →
    t.now = s.now ∧ t.cfg = s.cfg ∧ t.pending = s.pending ∧ t.resets = s.resets

/-- Only TOP.EOS and TOP.SRCERR change `SRC`, only from OPEN, and never back to it (R20, R213, spec's decision
D16): no operation reopens a session. -/
def Obligations.OnlyEndOperationsCloseTheSource : Prop :=
  ∀ (i : Instr) (s t : State), exec i s = .next t →
    (t.src ≠ s.src → s.src = .opened ∧ (i = .topEos ∧ t.src = .ended ∨ i = .topSrcerr ∧ t.src = .failed)) ∧
    (s.src ≠ .opened → t.src = s.src)

/-- Each operation writes only the elements R20 lists for it, beside `STAT`, the result and the events, which
every operation writes (R15, R22); only RSM.PUSH and TOP.FEED return events (R15). For DSP.DISP, FDC.POSA and
TOP.FEED this follows R150, R160 and R205, where the reads inside them write `RES` (log 9). -/
def Obligations.EachOperationWritesOnlyItsElements : Prop :=
  ∀ (i : Instr) (s t : State), exec i s = .next t →
    match i with
    | .abrLoad _ => t = { s with
        bv := t.bv, buf := t.buf, cur := t.cur, result := t.result, events := [], stat := t.stat }
    | .abrRdu _ => t = { s with
        cur := t.cur, res := t.res, result := t.result, events := [], stat := t.stat }
    | .abrRdi _ => t = { s with
        cur := t.cur, res := t.res, result := t.result, events := [], stat := t.stat }
    | .abrRdb => t = { s with
        cur := t.cur, res := t.res, result := t.result, events := [], stat := t.stat }
    | .abrRdr _ => t = { s with
        cur := t.cur, res := t.res, result := t.result, events := [], stat := t.stat }
    | .abrAex => t = { s with result := t.result, events := [], stat := t.stat }
    | .parParse _ => t = { s with result := t.result, events := [], stat := t.stat }
    | .rsmPush _ => t = { s with q := t.q, result := t.result, events := t.events, stat := t.stat }
    | .dspDisp => t = { s with
        cur := t.cur, res := t.res, typeCode := t.typeCode,
        result := t.result, events := [], stat := t.stat }
    | .fdcPosa => t = { s with
        cur := t.cur, res := t.res, result := t.result, events := [], stat := t.stat }
    | .frmPush _ => t = { s with carry := t.carry, result := t.result, events := [], stat := t.stat }
    | .frmEos => t = { s with carry := t.carry, result := t.result, events := [], stat := t.stat }
    | .topFeed _ => t = { s with
        bv := t.bv, buf := t.buf, cur := t.cur, q := t.q, carry := t.carry, res := t.res,
        typeCode := t.typeCode, result := t.result, events := t.events, stat := t.stat }
    | .topEos => t = { s with
        carry := t.carry, src := t.src, result := t.result, events := [], stat := t.stat }
    | .topSrcerr => t = { s with src := t.src, result := t.result, events := [], stat := t.stat }

/-- After every operation `STAT` is the word of its result (R22); its kind is one of Ok, ParseError,
ReassemblyError, DecodeError, IllegalCommand: ContinuityBreak, UnsupportedType and SourceError are never
written (R220, R232, R152, R212), and DecodeError(ENUM) never arises (R169, R221) (spec's decisions D2, D18,
D24). -/
def Obligations.StatusEncodesTheResult : Prop :=
  ∀ (i : Instr) (s t : State), exec i s = .next t →
    t.stat = t.result.status ∧ t.statKind ∈ [(0 : BitVec 4), 1, 2, 4, 7] ∧
      t.result ≠ .err .source ∧ t.result ≠ .err (.decode .enumRange)

/-- With the default capacities (unbounded) every operation completes: no input is refused for size (R9,
spec's decision D17) and nothing else stops the block (60_exceptions.md R235). -/
def Obligations.NothingRefusedWhenUnbounded : Prop :=
  ∀ (i : Instr) (s : State), unbounded s.cfg → ∃ t, exec i s = .next t

/-- Inputs beyond a finite capacity are refused, each operation that R9 reaches: ABR.LOAD's text (R90); PAR.PARSE's
line, part count and payload, each when the checks R110 puts before it pass; every token of FRM.PUSH (R190);
RSM.PUSH's raw line, of any frame kind, part count and payload (the model applies R9 to a Sentence the host made by
hand, log 7); and TOP.FEED's tokens, and each of its lines that PAR.PARSE refuses, the first line under the same name
(R205). R9, spec's decision D17. -/
def Obligations.InputsBeyondCapacityAreRefused : Prop :=
  (∀ (s : State) (t : Text) (f p : Nat), s.cfg.fragMax = some f → s.cfg.partsMax = some p →
    f * p < t.length → exec (.abrLoad t) s = .refused .overLoadMax) ∧
  (∀ (s : State) (l : Text) (m : Nat), s.cfg.lineMax = some m → m < l.length →
    exec (.parParse l) s = .refused .overLineMax) ∧
  (∀ (s : State) (p : LineParts) (ck : Byte) (m : Nat), p.fieldsOk → p.states s.cfg.hexCase ck →
    xorAll p.span = ck → exceeds s.cfg.lineMax p.line.length = false →
    (s.cfg.partsMax = some m → m < p.countOf → exec (.parParse p.line) s = .refused .overPartsMax) ∧
    (exceeds s.cfg.partsMax p.countOf = false → 1 ≤ p.indexOf → p.indexOf ≤ p.countOf →
      inChannelSet s.cfg p.channel = true → (p.seqId ≠ [] ↔ 1 < p.countOf) →
      s.cfg.fragMax = some m → m < p.payload.length → exec (.parParse p.line) s = .refused .overFragMax)) ∧
  (∀ (s : State) (c x : Text) (m : Nat), s.cfg.lineMax = some m → x ∈ split LF (s.carry ++ c) →
    m < x.length → exec (.frmPush c) s = .refused .overLineMax) ∧
  (∀ (s : State) (snt : Sentence) (m : Nat), s.cfg.lineMax = some m → m < snt.raw.length →
    exec (.rsmPush snt) s = .refused .overLineMax) ∧
  (∀ (s : State) (g : Fragment) (m : Nat), exceeds s.cfg.lineMax g.raw.length = false →
    (s.cfg.partsMax = some m → m < g.partCount →
      exec (.rsmPush (.encapsulated g)) s = .refused .overPartsMax) ∧
    (exceeds s.cfg.partsMax g.partCount = false → s.cfg.fragMax = some m → m < g.payload.length →
      exec (.rsmPush (.encapsulated g)) s = .refused .overFragMax)) ∧
  (∀ (s : State) (c x : Text) (m : Nat), s.src = .opened → s.cfg.lineMax = some m →
    x ∈ split LF (s.carry ++ c) → m < x.length → exec (.topFeed c) s = .refused .overLineMax) ∧
  (∀ (s t : State) (c l : Text) (before after : List Text) (r : Refusal), s.src = .opened →
    exec (.frmPush c) s = .next t → t.result = .ok (.lines (before ++ l :: after)) →
    exec (.parParse l) s = .refused r →
    ∃ r', exec (.topFeed c) s = .refused r' ∧ (before = [] → r' = r))

/-- A failed operation is invisible: the state after it is the state before it but for `STAT`, the result and
the events, for every operation but RSM.PUSH, which empties the queue (R136), and FDC.POSA and DSP.DISP, whose
earlier reads keep their effect (R172, R235) (R98 (e), R236; spec's decisions D4, D12). -/
def Obligations.FailedOperationIsInvisible : Prop :=
  ∀ (i : Instr) (s t : State) (e : Error), exec i s = .next t → t.result = .err e →
    (∀ g, i ≠ .rsmPush g) → i ≠ .dspDisp → i ≠ .fdcPosa →
    t = { s with result := .err e, events := [], stat := t.stat }

/-! ### The Armor Bit Reader -/

/-- The armor alphabet: both ranges, inclusive at both ends, and nothing else; under R41's `msb_first` a value
contributes its six bits, most significant first (R60). -/
def Obligations.ArmorAlphabet : Prop :=
  (∀ c : Byte, 0x30 ≤ c.toNat → c.toNat ≤ 0x57 → armor c = some (c.toNat - 0x30)) ∧
  (∀ c : Byte, 0x60 ≤ c.toNat → c.toNat ≤ 0x77 → armor c = some (c.toNat - 0x38)) ∧
  (∀ c : Byte, (c.toNat < 0x30 ∨ 0x57 < c.toNat) → (c.toNat < 0x60 ∨ 0x77 < c.toNat) → armor c = none) ∧
  (∀ v, v < 64 → (charBits .msbFirst v).length = 6 ∧ uintMsb (charBits .msbFirst v) = v)

/-- `armor` on the legal bytes and `unarmor` are inverse bijections with the values 0 to 63 (R61, derived by
the spec from R60). -/
def Obligations.ArmorIsABijection : Prop :=
  (∀ v, v < 64 → armor (unarmor v) = some v) ∧
  (∀ (c : Byte) (v : Nat), armor c = some v → v < 64 ∧ unarmor v = c)

/-- The invalid armor bytes are 0x00 to 0x2F, 0x58 to 0x5F and 0x78 to 0xFF, 192 of them; any of them, at any
position, makes the construction of the buffer fail as a whole (R62). The failure is ParseError(ARMOR) with `STAT`
0x1A, and the buffer and the cursor held before stay as they were (R90, R221; spec's decisions D12, D18). -/
def Obligations.InvalidArmorFailsTheLoad : Prop :=
  (∀ c : Byte, armor c = none ↔
    c.toNat ≤ 0x2F ∨ (0x58 ≤ c.toNat ∧ c.toNat ≤ 0x5F) ∨ 0x78 ≤ c.toNat) ∧
  ((List.range 256).filter fun c => armor (BitVec.ofNat 8 c) == none).length = 192 ∧
  (∀ (s : State) (t : Text) (c : Byte), exceeds (loadMax s.cfg) t.length = false → c ∈ t → armor c = none →
    exec (.abrLoad t) s = .next { s with
      result := .err (.parse .armor), events := [], stat := 0x1A })

/-- ABR.LOAD of a legal text: the buffer is the six bits of each character in order, `LEN = 6 · L`, the cursor
is at 0 and a buffer is loaded (R26, R40, R41, R90; spec's decisions D3, D5, D12). -/
def Obligations.LoadBuildsTheBuffer : Prop :=
  ∀ (s : State) (t : Text), exceeds (loadMax s.cfg) t.length = false → (∀ c ∈ t, armor c ≠ none) →
    let bits := t.flatMap fun c => charBits s.cfg.bitOrder ((armor c).getD 0)
    bits.length = 6 * t.length ∧
    exec (.abrLoad t) s = .next { s with
      buf := bits, cur := 0, bv := true, result := .ok .none, events := [], stat := 0x00 }

/-- ABR.RDU: with a buffer, `n` from 1 to 32 and at least `n` bits left, the value is the `uint` of the `n` bits
at the cursor, below `2^n`; `CUR` advances by `n` and `RES` holds the value zero-extended (R21, R93; spec's
decisions D2, D4). Under `msb_first` the bit at the lowest address is the most significant (R41, D3). -/
def Obligations.UnsignedReadReturnsTheNextBits : Prop :=
  ∀ (s : State) (n : Nat), s.bv = true → 1 ≤ n → n ≤ 32 → s.cur + n ≤ s.len →
    let u := uint s.cfg.bitOrder (bitsAt s.buf s.cur n)
    u < 2 ^ n ∧
    (s.cfg.bitOrder = .msbFirst →
      u = ((List.range n).map fun i => ((s.buf.getD (s.cur + i) false).toNat) * 2 ^ (n - 1 - i)).sum) ∧
    exec (.abrRdu n) s = .next { s with
      cur := s.cur + n, res := BitVec.ofNat 32 u, result := .ok (.nat u), events := [], stat := 0x00 }

/-- ABR.RDI makes the same three checks as ABR.RDU in the same order with the same errors, then returns the
two's-complement reading of the bits, in `-2^(n-1) … 2^(n-1) - 1`; `RES` is its 32-bit pattern (R94). -/
def Obligations.SignedReadIsTwosComplement : Prop :=
  ∀ (s : State) (n : Nat),
    (s.bv = false → exec (.abrRdi n) s = .next { s with
      result := .err (.illegal .nobuf), events := [], stat := 0x73 }) ∧
    (s.bv = true → (n < 1 ∨ 32 < n) → exec (.abrRdi n) s = .next { s with
      result := .err (.illegal .operand), events := [], stat := 0x72 }) ∧
    (s.bv = true → 1 ≤ n → n ≤ 32 → s.len - s.cur < n → exec (.abrRdi n) s = .next { s with
      result := .err (.decode .underrun), events := [], stat := 0x41 }) ∧
    (s.bv = true → 1 ≤ n → n ≤ 32 → s.cur + n ≤ s.len →
      let u := uint s.cfg.bitOrder (bitsAt s.buf s.cur n)
      ∃ v : Int, (v = if 2 ^ (n - 1) ≤ u then (u : Int) - 2 ^ n else u) ∧
        -(2 ^ (n - 1)) ≤ v ∧ v ≤ 2 ^ (n - 1) - 1 ∧ (BitVec.ofInt 32 v).toInt = v ∧
        exec (.abrRdi n) s = .next { s with
          cur := s.cur + n, res := BitVec.ofInt 32 v, result := .ok (.int v), events := [], stat := 0x00 })

/-- ABR.RDB returns the next bit, 1 being true, and ABR.RDR the next `n` bits in address order; both latch
their `uint` in `RES` and advance `CUR` (R81, R95, R96; spec's decision D6). -/
def Obligations.BooleanAndRawReads : Prop :=
  (∀ (s : State) (b : Bool), s.bv = true → s.buf[s.cur]? = some b →
    exec .abrRdb s = .next { s with
      cur := s.cur + 1, res := BitVec.ofNat 32 b.toNat, result := .ok (.bool b), events := [], stat := 0x00 }) ∧
  (∀ (s : State) (n : Nat), s.bv = true → 1 ≤ n → n ≤ 32 → s.cur + n ≤ s.len →
    (bitsAt s.buf s.cur n).length = n ∧
    exec (.abrRdr n) s = .next { s with
      cur := s.cur + n, res := BitVec.ofNat 32 (uint s.cfg.bitOrder (bitsAt s.buf s.cur n)),
      result := .ok (.raw (bitsAt s.buf s.cur n)), events := [], stat := 0x00 })

/-- The checks of the reads in their order: NOBUF, then OPERAND, then UNDERRUN; a read that fails changes
nothing but `STAT` (R91, R92, R93, R95, R96, R234; spec's decisions D4, D5, D6). -/
def Obligations.ReadChecksInOrder : Prop :=
  ∀ (s : State) (n : Nat) (i : Instr),
    (s.bv = false → i ∈ [.abrRdu n, .abrRdr n, .abrRdb] → exec i s = .next { s with
      result := .err (.illegal .nobuf), events := [], stat := 0x73 }) ∧
    (s.bv = true → (n = 0 ∨ 32 < n) → i ∈ [.abrRdu n, .abrRdr n] → exec i s = .next { s with
      result := .err (.illegal .operand), events := [], stat := 0x72 }) ∧
    (s.bv = true → 1 ≤ n → n ≤ 32 → s.len - s.cur < n → i ∈ [.abrRdu n, .abrRdr n] → exec i s = .next { s with
      result := .err (.decode .underrun), events := [], stat := 0x41 }) ∧
    (s.bv = true → s.len ≤ s.cur → exec .abrRdb s = .next { s with
      result := .err (.decode .underrun), events := [], stat := 0x41 })

/-- ABR.AEX fails if any unread bits remain, succeeds at the end of the buffer, and writes no state (R97). -/
def Obligations.ExhaustionCheck : Prop :=
  ∀ s : State,
    (s.bv = false → exec .abrAex s = .next { s with
      result := .err (.illegal .nobuf), events := [], stat := 0x73 }) ∧
    (s.bv = true → s.cur ≠ s.len → exec .abrAex s = .next { s with
      result := .err (.decode .trailing), events := [], stat := 0x42 }) ∧
    (s.bv = true → s.cur = s.len → exec .abrAex s = .next { s with
      result := .ok .none, events := [], stat := 0x00 })

/-- Concatenation (R98 (a), derived by the spec): under `msb_first`, reading `a` bits and then `b` bits gives
`x` and `y` with `x · 2^b + y` the value of one read of `a + b` bits, and the same cursor. -/
def Obligations.ReadsConcatenate : Prop :=
  ∀ (s : State) (a b : Nat), s.cfg.bitOrder = .msbFirst → s.bv = true → 1 ≤ a → 1 ≤ b → a + b ≤ 32 →
    s.cur + (a + b) ≤ s.len →
    ∃ x y t1 t2 t, exec (.abrRdu a) s = .next t1 ∧ t1.result = .ok (.nat x) ∧
      exec (.abrRdu b) t1 = .next t2 ∧ t2.result = .ok (.nat y) ∧
      exec (.abrRdu (a + b)) s = .next t ∧ t.result = .ok (.nat (x * 2 ^ b + y)) ∧ t.cur = t2.cur

/-- Character recovery (R98 (b), derived by the spec; the source's bijectivity property S1): after ABR.LOAD of a
legal text, the six-bit read at address `6 k` returns `armor` of character `k`, and `unarmor` of it is the
character; under either bit order (R41). -/
def Obligations.SixBitReadsRecoverTheText : Prop :=
  ∀ (s t : State) (text : Text) (k : Nat) (c : Byte), exceeds (loadMax s.cfg) text.length = false →
    (∀ x ∈ text, armor x ≠ none) → exec (.abrLoad text) s = .next t → text[k]? = some c →
    ∃ u v, exec (.abrRdu 6) { t with cur := 6 * k } = .next u ∧ u.cur = 6 * (k + 1) ∧
      u.result = .ok (.nat v) ∧ armor c = some v ∧ unarmor v = c

/-! ### The Sentence Parser -/

/-- A line put together by the grammar of R63, with the right checksum, a part index in range, a channel of
`CHANNEL_SET` and a consistent sequence id parses to the Sentence of its parts, and no state changes (R63, R65,
R66, R69, R70, R110; spec's decisions D7, D8, D10, D11, D17). -/
def Obligations.WellFormedLineParses : Prop :=
  ∀ (s : State) (p : LineParts) (ck : Byte), p.fieldsOk → p.states s.cfg.hexCase ck → xorAll p.span = ck →
    1 ≤ p.indexOf → p.indexOf ≤ p.countOf → inChannelSet s.cfg p.channel = true →
    (p.seqId ≠ [] ↔ 1 < p.countOf) → exceeds s.cfg.lineMax p.line.length = false →
    exceeds s.cfg.partsMax p.countOf = false → exceeds s.cfg.fragMax p.payload.length = false →
    exec (.parParse p.line) s = .next { s with
      result := .ok (.sentence (.encapsulated (p.fragment ck))), events := [], stat := 0x00 }

/-- The checksum must equal the XOR of every byte between the marker and the last `'*'`: a mismatch in a line
that passes the structural checks is ParseError(CKSUM); changing any single byte of the span of a line that
parses makes PAR.PARSE return a ParseError; the unmodified line succeeds, and its checksum is that XOR (R117;
the source's property S2). -/
def Obligations.ChecksumGuardsTheSpan : Prop :=
  (∀ (s : State) (p : LineParts) (ck : Byte), p.fieldsOk → p.states s.cfg.hexCase ck → xorAll p.span ≠ ck →
    exceeds s.cfg.lineMax p.line.length = false →
    exec (.parParse p.line) s = .next { s with
      result := .err (.parse .ckSum), events := [], stat := 0x16 }) ∧
  (∀ (s : State) (l : Text) (f : Fragment) (k : Nat) (b : Byte),
    parse s.cfg l = .sentence (.encapsulated f) → 1 ≤ k → k < l.length - 3 → l[k]? ≠ some b →
    ∃ (c : ParseCause) (t : State), exec (.parParse (l.set k b)) s = .next t ∧ t.result = .err (.parse c)) ∧
  (∀ (s : State) (l : Text) (f : Fragment), parse s.cfg l = .sentence (.encapsulated f) →
    f.checksum = xorAll ((l.take (l.length - 3)).drop 1) ∧
    ∃ t, exec (.parParse l) s = .next t ∧ t.result = .ok (.sentence (.encapsulated f)))

/-- The part index must lie within 1 and the part count, else ParseError(PARTIDX) (R118); the sentence passes
with a sequence id and a part count above 1, or with neither, else ParseError(SEQID) (R120). -/
def Obligations.PartFieldsAreConsistent : Prop :=
  ∀ (s : State) (p : LineParts) (ck : Byte), p.fieldsOk → p.states s.cfg.hexCase ck → xorAll p.span = ck →
    exceeds s.cfg.lineMax p.line.length = false → exceeds s.cfg.partsMax p.countOf = false →
    (¬(1 ≤ p.indexOf ∧ p.indexOf ≤ p.countOf) → exec (.parParse p.line) s = .next { s with
      result := .err (.parse .partIdx), events := [], stat := 0x17 }) ∧
    (1 ≤ p.indexOf → p.indexOf ≤ p.countOf → inChannelSet s.cfg p.channel = true →
      ¬(p.seqId ≠ [] ↔ 1 < p.countOf) → exec (.parParse p.line) s = .next { s with
        result := .err (.parse .seqId), events := [], stat := 0x19 }) ∧
    (1 ≤ p.indexOf → p.indexOf ≤ p.countOf → inChannelSet s.cfg p.channel = true →
      exceeds s.cfg.fragMax p.payload.length = false →
      (p.seqId ≠ [] ∧ 1 < p.countOf) ∨ (p.seqId = [] ∧ p.countOf = 1) →
      ∃ t, exec (.parParse p.line) s = .next t ∧
        t.result = .ok (.sentence (.encapsulated (p.fragment ck))))

/-- The earlier checks in the order of R122: not seven fields (FIELDS), a header below three bytes (HEADER), a
part count or index that is no decimal number (INTEGER), a last field that does not end with `'*'` and two hex
digits (CKFIELD); and a channel outside `CHANNEL_SET` (CHANNEL) (R113 to R116, R119; spec's decisions D7, D8,
D10, D11, D18). -/
def Obligations.MalformedLinesAreParseErrors : Prop :=
  (∀ (s : State) (line : Text), line.head? = some bang → exceeds s.cfg.lineMax line.length = false →
    ((split comma line).length ≠ 7 → exec (.parParse line) s = .next { s with
      result := .err (.parse .fields), events := [], stat := 0x12 }) ∧
    (∀ f0 f1 f2 f3 f4 f5 f6, split comma line = [f0, f1, f2, f3, f4, f5, f6] →
      (f0.length < 3 → exec (.parParse line) s = .next { s with
        result := .err (.parse .header), events := [], stat := 0x13 }) ∧
      (3 ≤ f0.length → (decimal f1 = false ∨ decimal f2 = false) → exec (.parParse line) s = .next { s with
        result := .err (.parse .integer), events := [], stat := 0x14 }) ∧
      (3 ≤ f0.length → decimal f1 = true → decimal f2 = true →
        (∀ pad h l, f6 = pad ++ [asterisk, h, l] →
          hexVal s.cfg.hexCase h = none ∨ hexVal s.cfg.hexCase l = none) →
        exec (.parParse line) s = .next { s with
          result := .err (.parse .ckField), events := [], stat := 0x15 }))) ∧
  (∀ (s : State) (p : LineParts) (ck : Byte), p.fieldsOk → p.states s.cfg.hexCase ck → xorAll p.span = ck →
    exceeds s.cfg.lineMax p.line.length = false → exceeds s.cfg.partsMax p.countOf = false →
    1 ≤ p.indexOf → p.indexOf ≤ p.countOf → p.channel ≠ s.cfg.channel1 → p.channel ≠ s.cfg.channel2 →
    exec (.parParse p.line) s = .next { s with
      result := .err (.parse .channel), events := [], stat := 0x18 })

/-- A `'$'` or `'#'` line is returned at once with its raw text and kind only, and any other first byte, or none,
is ParseError(MARKER) (R111, R112; spec's decisions D9, D10). -/
def Obligations.OtherFramesPassThrough : Prop :=
  ∀ (s : State) (line : Text), exceeds s.cfg.lineMax line.length = false →
    (line.head? = some dollar → exec (.parParse line) s = .next { s with
      result := .ok (.sentence (.delimited line)), events := [], stat := 0x00 }) ∧
    (line.head? = some hashSign → exec (.parParse line) s = .next { s with
      result := .ok (.sentence (.comment line)), events := [], stat := 0x00 }) ∧
    (line.head? ≠ some bang → line.head? ≠ some dollar → line.head? ≠ some hashSign →
      exec (.parParse line) s = .next { s with
        result := .err (.parse .marker), events := [], stat := 0x11 })

/-- What a returned encapsulated Sentence guarantees (R30, R121, derived by the spec): the raw line, a checksum
equal to the XOR of the span, a part index in range, a channel of the set, a sequence id exactly when it is
multi-part; it is self-contained or a genuine fragment, so RSM.PUSH never raises an error on it. -/
def Obligations.ParsedSentenceGuarantees : Prop :=
  ∀ (c : Config) (line : Text) (f : Fragment), parse c line = .sentence (.encapsulated f) →
    f.raw = line ∧ f.talker.length = 2 ∧ f.checksum = xorAll (checksumSpan line) ∧
    1 ≤ f.partIndex ∧ f.partIndex ≤ f.partCount ∧ inChannelSet c f.channel = true ∧
    (f.seqId ≠ [] ↔ 1 < f.partCount) ∧ (selfContained f = true ∨ isFragment f = true) ∧
    (∀ (s t : State) (e : Error), exec (.rsmPush (.encapsulated f)) s = .next t → t.result ≠ .err e)

/-! ### The Reassembler -/

/-- A self-contained sentence is emitted whatever the queue holds; the queue is emptied, and if it held
fragments the discard is reported as PREEMPT (R131; the report is the spec's decision D20). -/
def Obligations.SelfContainedIsEmittedAtOnce : Prop :=
  ∀ (s : State) (f : Fragment), f.partCount = 1 → f.seqId = [] → f.partIndex = 1 →
    exceeds s.cfg.lineMax f.raw.length = false → exceeds s.cfg.partsMax 1 = false → exceeds s.cfg.fragMax f.payload.length = false →
    exec (.rsmPush (.encapsulated f)) s = .next { s with
      q := [], result := .ok (.text (some f.payload)), stat := 0x00,
      events := if s.q = [] then [] else [.preempt] }

/-- A fragment that starts an accumulation or continues the last one queued is appended; when it is the last
part the payloads are concatenated in order and emitted and the queue is Empty, otherwise accumulation goes
on (R135, with R132's predicate). -/
def Obligations.FragmentIsAppendedOrCompletes : Prop :=
  ∀ (s : State) (f : Fragment), f.seqId ≠ [] → 1 < f.partCount → 1 ≤ f.partIndex → f.partIndex ≤ f.partCount →
    exceeds s.cfg.lineMax f.raw.length = false → exceeds s.cfg.partsMax f.partCount = false →
    exceeds s.cfg.fragMax f.payload.length = false →
    ((s.q = [] ∧ f.partIndex = 1) ∨
      ∃ p, s.q.getLast? = some p ∧ sameMessage p f ∧ f.partIndex = p.partIndex + 1) →
    (f.partIndex = f.partCount → exec (.rsmPush (.encapsulated f)) s = .next { s with
      q := [], result := .ok (.text (some ((s.q ++ [f]).flatMap (·.payload)))), events := [], stat := 0x00 }) ∧
    (f.partIndex ≠ f.partCount → exec (.rsmPush (.encapsulated f)) s = .next { s with
      q := s.q ++ [f], result := .ok (.text none), events := [], stat := 0x00 })

/-- A fragment that does not continue the last one queued discards the queue with one SEQUENCE event; it then
starts an accumulation if its part index is 1 and is dropped otherwise. A fragment with another index that
arrives at an empty queue is dropped with one ORPHAN event (R133, R134; 90_conflicts.md C2, spec's decisions
D21, D22). -/
def Obligations.BrokenSequenceRestarts : Prop :=
  ∀ (s : State) (f : Fragment), f.seqId ≠ [] → 1 < f.partCount → 1 ≤ f.partIndex → f.partIndex ≤ f.partCount →
    exceeds s.cfg.lineMax f.raw.length = false → exceeds s.cfg.partsMax f.partCount = false →
    exceeds s.cfg.fragMax f.payload.length = false →
    (∀ p, s.q.getLast? = some p → ¬(sameMessage p f ∧ f.partIndex = p.partIndex + 1) →
      exec (.rsmPush (.encapsulated f)) s = .next { s with
        q := if f.partIndex = 1 then [f] else [],
        result := .ok (.text none), events := [.sequence], stat := 0x00 }) ∧
    (s.q = [] → f.partIndex ≠ 1 → exec (.rsmPush (.encapsulated f)) s = .next { s with
      q := [], result := .ok (.text none), events := [.orphan], stat := 0x00 })

/-- Any other combination is a ReassemblyError for that sentence and discards the accumulation: a sentence that
is not encapsulated, or one whose part count, part index and sequence id fit neither shape; PAR.PARSE returns
none of these shapes (R136). -/
def Obligations.OtherShapesAreReassemblyErrors : Prop :=
  (∀ (s : State) (snt : Sentence), snt.kind ≠ .encapsulated →
    exceeds s.cfg.lineMax snt.raw.length = false → exec (.rsmPush snt) s = .next { s with
      q := [], result := .err (.reassembly .shape), events := [], stat := 0x21 }) ∧
  (∀ (s : State) (f : Fragment),
    exceeds s.cfg.lineMax f.raw.length = false → exceeds s.cfg.partsMax f.partCount = false →
    exceeds s.cfg.fragMax f.payload.length = false →
    ((f.partCount = 1 ∧ f.seqId ≠ []) ∨ (1 < f.partCount ∧ f.seqId = []) ∨ f.partCount = 0 ∨
      f.partIndex < 1 ∨ f.partCount < f.partIndex) →
    exec (.rsmPush (.encapsulated f)) s = .next { s with
      q := [], result := .err (.reassembly .shape), events := [], stat := 0x21 }) ∧
  (∀ (c : Config) (line : Text) (f : Fragment), parse c line = .sentence (.encapsulated f) →
    ¬((f.partCount = 1 ∧ f.seqId ≠ []) ∨ (1 < f.partCount ∧ f.seqId = []) ∨ f.partCount = 0 ∨
      f.partIndex < 1 ∨ f.partCount < f.partIndex))

/-- Whatever the input, an emitted text is one self-contained payload, or the payloads of parts 1 to c of one
message in order, never a proper subset (R137 (e), derived by the spec). -/
def Obligations.EmittedTextIsAWholeMessage : Prop :=
  ∀ (s t : State) (f : Fragment) (text : Text), queueOk s.q →
    exec (.rsmPush (.encapsulated f)) s = .next t → t.result = .ok (.text (some text)) →
    (selfContained f = true ∧ text = f.payload) ∨
    ∃ parts : List Fragment, parts = s.q ++ [f] ∧ parts.length = f.partCount ∧
      (∀ j g, parts[j]? = some g → g.partIndex = j + 1 ∧ sameMessage g f) ∧
      text = parts.flatMap (·.payload)

/-- Parts 1, 2, 3 of one message yield one text, the payloads in order, and no event; parts 1, 3 discard the queue
with one SEQUENCE event and emit nothing (R137 (a), (b), derived by the spec; the source's property S3). -/
def Obligations.PartsInOrderAndPartsSkipped : Prop :=
  ∀ (s : State) (f g h : Fragment), s.q = [] → unbounded s.cfg → sameMessage f g → sameMessage g h →
    f.seqId ≠ [] → f.partCount = 3 → f.partIndex = 1 → g.partIndex = 2 → h.partIndex = 3 →
    ∃ t1 t2 t3 u, exec (.rsmPush (.encapsulated f)) s = .next t1 ∧ t1.result = .ok (.text none) ∧
      t1.events = [] ∧
      exec (.rsmPush (.encapsulated g)) t1 = .next t2 ∧ t2.result = .ok (.text none) ∧ t2.events = [] ∧
      exec (.rsmPush (.encapsulated h)) t2 = .next t3 ∧
      t3.result = .ok (.text (some (f.payload ++ g.payload ++ h.payload))) ∧ t3.events = [] ∧ t3.q = [] ∧
      exec (.rsmPush (.encapsulated h)) t1 = .next u ∧ u.result = .ok (.text none) ∧
      u.events = [.sequence] ∧ u.q = []

/-- An event is never lost: every RSM.PUSH that discards a non-empty queue, and is no completion by a fragment and no
ReassemblyError, produces exactly one event, a self-contained sentence included; no RSM.PUSH produces two (R232,
spec's decision D20). -/
def Obligations.EveryDiscardIsReported : Prop :=
  ∀ (s t : State) (snt : Sentence), exec (.rsmPush snt) s = .next t →
    t.events.length ≤ 1 ∧
    (s.q ≠ [] → (∀ e, t.result ≠ .err e) →
      (∀ f, snt = .encapsulated f → t.q ≠ s.q ++ [f] ∧ (selfContained f = false →
        t.result ≠ .ok (.text (some ((s.q ++ [f]).flatMap (·.payload)))))) →
      t.events.length = 1)

/-! ### The Message Dispatcher and the class-A decoder -/

/-- An unrecognised or not yet implemented type code gives the empty field map and no error: for every code but
1, 2 and 3, with the cursor at the front and at least six bits, whatever follows (R152; the front is R150's and the
spec's decision D23). `RES` holds the code just read (R150; log 9). -/
def Obligations.UnsupportedTypesGiveAnEmptyMap : Prop :=
  ∀ (s : State) (t : Nat), s.bv = true → s.cur = 0 → 6 ≤ s.len →
    t = uint s.cfg.bitOrder (bitsAt s.buf 0 6) → (t = 0 ∨ (4 ≤ t ∧ t ≤ 27) ∨ (28 ≤ t ∧ t ≤ 63)) →
    exec .dspDisp s = .next { s with
      cur := 6, res := BitVec.ofNat 32 t, typeCode := BitVec.ofNat 6 t,
      result := .ok (.message ⟨BitVec.ofNat 6 t, []⟩), events := [], stat := 0x00 }

/-- FDC.POSA on a buffer of exactly 168 bits with the cursor at 6 returns the seventeen fields of R72 in bit
order, each from the bits at its address, and consumes the buffer (R72, R160, R161, R169, R170; spec's decisions
D19, D23, D24). `RES` holds the last field read (R160; log 9). -/
def Obligations.ClassAFieldsByAddress : Prop :=
  ∀ s : State, s.bv = true → s.cur = 6 → s.len = 168 →
    exec .fdcPosa s = .next { s with
      cur := 168, res := BitVec.ofNat 32 (uint s.cfg.bitOrder (bitsAt s.buf 154 14)),
      result := .ok (.fieldMap (classAReport s.cfg.bitOrder s.buf s.now)), events := [], stat := 0x00 }

/-- DSP.DISP routes types 1, 2 and 3 to the class-A decoder: on 168 bits from the front it returns the message
of that type with the fields of R72 (R150, R151; spec's decision D23). `RES` holds the last field read (R150;
log 9). -/
def Obligations.ClassAMessagesAreDispatched : Prop :=
  ∀ (s : State) (t : Nat), s.bv = true → s.cur = 0 → s.len = 168 →
    t = uint s.cfg.bitOrder (bitsAt s.buf 0 6) → (t = 1 ∨ t = 2 ∨ t = 3) →
    exec .dspDisp s = .next { s with
      cur := 168, res := BitVec.ofNat 32 (uint s.cfg.bitOrder (bitsAt s.buf 154 14)),
      typeCode := BitVec.ofNat 6 t,
      result := .ok (.message ⟨BitVec.ofNat 6 t, classAReport s.cfg.bitOrder s.buf s.now⟩),
      events := [], stat := 0x00 }

/-- A class-A buffer of another length: a shorter one fails with UNDERRUN at the first field that does not fit,
the cursor left at that field's address; a longer one fails with TRAILING after all fields, the cursor at 168
(R171, R172, R73; spec's decision D4). Issued as FDC.POSA at `CUR = 6`, or as DSP.DISP at `CUR = 0` on type 1, 2 or 3,
which fails with FDC.POSA's error and leaves `TYPE` holding the type (R150; spec's decision D23). `RES` holds the value
of the last field that fitted; when none did, what it held before FDC.POSA, which inside DSP.DISP is the type (log 9).
The premise `CUR ≤ LEN` is R24's, kept by every step. -/
def Obligations.ClassAOfAnotherLengthFails : Prop :=
  (∀ s : State, s.bv = true → s.cur = 6 → cursorOk s →
    (s.len < 168 → ∃ a w : Nat, (a, w) ∈ classALayout ∧ a ≤ s.len ∧ s.len < a + w ∧
      exec .fdcPosa s = .next { s with
        cur := a, res := classARes s.cfg.bitOrder s.buf s.res a,
        result := .err (.decode .underrun), events := [], stat := 0x41 }) ∧
    (168 < s.len → exec .fdcPosa s = .next { s with
      cur := 168, res := BitVec.ofNat 32 (uint s.cfg.bitOrder (bitsAt s.buf 154 14)),
      result := .err (.decode .trailing), events := [], stat := 0x42 })) ∧
  (∀ (s : State) (t : Nat), s.bv = true → s.cur = 0 → 6 ≤ s.len →
    t = uint s.cfg.bitOrder (bitsAt s.buf 0 6) → (t = 1 ∨ t = 2 ∨ t = 3) →
    (s.len < 168 → ∃ a w : Nat, (a, w) ∈ classALayout ∧ a ≤ s.len ∧ s.len < a + w ∧
      exec .dspDisp s = .next { s with
        cur := a, res := classARes s.cfg.bitOrder s.buf (BitVec.ofNat 32 t) a, typeCode := BitVec.ofNat 6 t,
        result := .err (.decode .underrun), events := [], stat := 0x41 }) ∧
    (168 < s.len → exec .dspDisp s = .next { s with
      cur := 168, res := BitVec.ofNat 32 (uint s.cfg.bitOrder (bitsAt s.buf 154 14)),
      typeCode := BitVec.ofNat 6 t, result := .err (.decode .trailing), events := [], stat := 0x42 }))

/-- The preconditions of the composite decoders and the empty buffer: NOBUF, CURSOR (DSP.DISP needs `CUR = 0`,
FDC.POSA `CUR = 6`), and UNDERRUN when there is no type code, each with no change but `STAT` (R150, R160; spec's
decisions D5, D23). -/
def Obligations.DecoderPreconditions : Prop :=
  ∀ s : State,
    (s.bv = false → ∀ i ∈ [Instr.dspDisp, .fdcPosa], exec i s = .next { s with
      result := .err (.illegal .nobuf), events := [], stat := 0x73 }) ∧
    (s.bv = true → s.cur ≠ 0 → exec .dspDisp s = .next { s with
      result := .err (.illegal .cursor), events := [], stat := 0x74 }) ∧
    (s.bv = true → s.cur ≠ 6 → exec .fdcPosa s = .next { s with
      result := .err (.illegal .cursor), events := [], stat := 0x74 }) ∧
    (s.bv = true → s.cur = 0 → s.len < 6 → exec .dspDisp s = .next { s with
      result := .err (.decode .underrun), events := [], stat := 0x41 })

/-- The rate of turn: three sentinels, and between them `sign(raw) · (|raw| / 4.733)² / 60` degrees per second, an
odd function whose largest value is 264600000/22401289 (R162). -/
def Obligations.RateOfTurn : Prop :=
  convRot (-128) = .notAvailable ∧ convRot (-127) = .turnLeftUnbounded ∧
  convRot 127 = .turnRightUnbounded ∧ convRot 0 = .real 0 ∧
  (∀ raw : Int, -126 ≤ raw → raw ≤ 126 →
    ∃ q : Rat, convRot raw = .real q ∧ q = (raw.sign : Rat) * (|(raw : Rat)| / (4733 / 1000)) ^ 2 / 60 ∧
      q = (raw.sign : Rat) * raw ^ 2 * 50000 / 67203867 ∧ convRot (-raw) = .real (-q) ∧
      -(264600000 / 22401289) ≤ q ∧ q ≤ 264600000 / 22401289)

/-- Longitude and latitude: raw ÷ 10000 ÷ 60 degrees, except the raw values that scale to exactly 181 and 91,
which decode to NotAvailable (R164, R165). -/
def Obligations.PositionScalingAndSentinels : Prop :=
  (∀ raw : Int, convLon raw = .notAvailable ↔ (raw : Rat) / 10000 / 60 = 181) ∧
  (∀ raw : Int, raw ≠ 108600000 → convLon raw = .real ((raw : Rat) / 10000 / 60)) ∧
  (∀ raw : Int, convLat raw = .notAvailable ↔ (raw : Rat) / 10000 / 60 = 91) ∧
  (∀ raw : Int, raw ≠ 54600000 → convLat raw = .real ((raw : Rat) / 10000 / 60))

/-- Speed is raw ÷ 10 with no sentinel (R163); course is raw ÷ 10 and 3600 is NotAvailable (R166); heading is raw
degrees and 511 is NotAvailable (R167). -/
def Obligations.SpeedCourseAndHeading : Prop :=
  (∀ raw : Nat, raw ≤ 1023 → convSog raw = .real ((raw : Rat) / 10)) ∧
  convCog 3600 = .notAvailable ∧
  (∀ raw : Nat, raw ≤ 4095 → raw ≠ 3600 → convCog raw = .real ((raw : Rat) / 10)) ∧
  convHdg 511 = .notAvailable ∧
  (∀ raw : Nat, raw < 511 → convHdg raw = .int raw)

/-- The time stamp: a code of 60 or more is a mode; otherwise the instant has the decoded second, lies within
30 s of `NOW`, and is the decoded second of the current minute whenever that lies within 30 s (R168; spec's
decision D14). -/
def Obligations.TimestampReconciliation : Prop :=
  (∀ (raw : Nat) (now : BitVec 64), 60 ≤ raw → raw ≤ 63 → convTs raw now = .timeMode raw) ∧
  (∀ (raw : Nat) (now : BitVec 64), raw < 60 →
    ∃ t : Int, convTs raw now = .instant t ∧ t % 60 = raw ∧
      t - now.toNat ≤ 30 ∧ (now.toNat : Int) - t ≤ 30 ∧
      (∀ c : Int, c = 60 * ((now.toNat : Int) / 60) + raw → c - now.toNat ≤ 30 →
        (now.toNat : Int) - c ≤ 30 → t = c))

/-- Purity of FDC.POSA: its result is a function of the bits from address 6 on, the length and `NOW`, and `NOW`
counts only when a time stamp below 60 is read; the rest of the state counts for nothing (R173). -/
def Obligations.DecoderIsPure : Prop :=
  ∀ s1 s2 : State, s1.cfg.bitOrder = s2.cfg.bitOrder → s1.bv = true → s2.bv = true → s1.cur = 6 →
    s2.cur = 6 → s1.len = s2.len → s1.buf.drop 6 = s2.buf.drop 6 →
    (s1.now = s2.now ∨ s1.len < 143 ∨ 60 ≤ uint s1.cfg.bitOrder (bitsAt s1.buf 137 6)) →
    ∃ t1 t2, exec .fdcPosa s1 = .next t1 ∧ exec .fdcPosa s2 = .next t2 ∧ t1.result = t2.result ∧
      t1.cur = t2.cur ∧ t1.stat = t2.stat

/-! ### The Line Framer -/

/-- FRM.PUSH: every text is uniquely LF-terminated tokens and a rest without LF; if the carry and the chunk
together are such tokens and a rest, the lines returned are the tokens, trimmed of every trailing CR and the
empty ones left out, and the rest is the new carry (R190, R191; the trimming is R192's, spec's decision
D13). -/
def Obligations.FramerReturnsTheCompletedLines : Prop :=
  (∀ t : Text, ∃! p : List Text × Text, (∀ l ∈ p.1, LF ∉ l) ∧ LF ∉ p.2 ∧
    t = (p.1.flatMap fun l => l ++ [LF]) ++ p.2) ∧
  (∀ x : Text, ∃ n, x = rtrimCr x ++ List.replicate n CR ∧ (rtrimCr x).getLast? ≠ some CR) ∧
  (∀ (s : State) (chunk : Text) (ls : List Text) (rest : Text), (∀ l ∈ ls, LF ∉ l) → LF ∉ rest →
    s.carry ++ chunk = (ls.flatMap fun l => l ++ [LF]) ++ rest →
    (∀ l ∈ rest :: ls, exceeds s.cfg.lineMax l.length = false) →
    exec (.frmPush chunk) s = .next { s with
      carry := rest, result := .ok (.lines ((ls.map rtrimCr).filter (· ≠ []))), events := [], stat := 0x00 })

/-- Chunking does not matter (R195, derived by the spec): pushing two chunks one after the other returns the
lines of their concatenation and leaves the same carry. -/
def Obligations.FramerChunkingDoesNotMatter : Prop :=
  ∀ (s : State) (a b : Text), unbounded s.cfg →
    ∃ ta tb tab la lb, exec (.frmPush a) s = .next ta ∧ ta.result = .ok (.lines la) ∧
      exec (.frmPush b) ta = .next tb ∧ tb.result = .ok (.lines lb) ∧
      exec (.frmPush (a ++ b)) s = .next tab ∧ tab.result = .ok (.lines (la ++ lb)) ∧ tab.carry = tb.carry

/-! ### The pipeline -/

/-- The end of the stream: FRM.EOS and TOP.EOS discard the carry, TOP.EOS yields no item and ends the source,
TOP.SRCERR yields one SourceError item and fails it, returning Ok; the queue stays (R194, R211, R212; spec's
decisions D13, D16; 90_conflicts.md C9, C13). -/
def Obligations.EndOfStreamOperations : Prop :=
  (∀ s : State, exec .frmEos s = .next { s with
    carry := [], result := .ok .none, events := [], stat := 0x00 }) ∧
  (∀ s : State, s.src = .opened → exec .topEos s = .next { s with
    carry := [], src := .ended, result := .ok (.items []), events := [], stat := 0x00 }) ∧
  (∀ s : State, s.src = .opened → exec .topSrcerr s = .next { s with
    src := .failed, result := .ok (.items [.error .source []]), events := [], stat := 0x00 })

/-- After the end every TOP operation fails with SRCSTATE and changes nothing but `STAT` (R213; spec's decision
D16). -/
def Obligations.NothingMoreAfterTheEnd : Prop :=
  ∀ (s : State) (chunk : Text) (i : Instr), s.src ≠ .opened → i ∈ [.topFeed chunk, .topEos, .topSrcerr] →
    exec i s = .next { s with result := .err (.illegal .srcState), events := [], stat := 0x75 }

/-- TOP.FEED on an open source completes with a list of items, whatever the bytes: errors in lines are items
and never the operation's own error. It runs FRM.PUSH and processes the lines it returns, in order; a chunk that
completes no line returns no item and extends the carry (R205). Its event list is the events among its items
(R15; log 10). -/
def Obligations.FeedAlwaysCompletes : Prop :=
  ∀ (s : State) (chunk : Text), unbounded s.cfg → s.src = .opened →
    (∃ t items, exec (.topFeed chunk) s = .next t ∧ t.result = .ok (.items items) ∧ t.stat = 0x00) ∧
    (∀ t1 ls, exec (.frmPush chunk) s = .next t1 → t1.result = .ok (.lines ls) →
      exec (.topFeed chunk) s =
        (processAll ls { s with carry := t1.carry }).outcome .items itemEvents) ∧
    (LF ∉ s.carry → LF ∉ chunk → exec (.topFeed chunk) s = .next { s with
      carry := s.carry ++ chunk, result := .ok (.items []), events := [], stat := 0x00 })

/-- PROCESS and FINISH as the composition of the unit operations: feeding one line does what PAR.PARSE, then
RSM.PUSH, then ABR.LOAD, then DSP.DISP issued one by one do, with their results as items; a ParseError leaves the
queue as it was, a sentence that is not encapsulated is never offered to the Reassembler, and the
ReassemblyError arm is never taken (R206, and R207 with the spec's decision D12). The event list is the events among
the items (R15; log 10), and `RES` is what DSP.DISP leaves in it (log 9). -/
def Obligations.FeedingALineIsTheUnitOperationsInOrder : Prop :=
  ∀ (s : State) (line : Text), unbounded s.cfg → s.src = .opened → s.carry = [] → LF ∉ line → line ≠ [] →
    line.getLast? ≠ some CR →
    ∃ p, exec (.parParse line) s = .next p ∧
      (∀ e, p.result = .err e → exec (.topFeed (line ++ [LF])) s = .next { s with
        result := .ok (.items [.error e line]), events := [], stat := 0x00 }) ∧
      (∀ snt, p.result = .ok (.sentence snt) → snt.kind ≠ .encapsulated →
        exec (.topFeed (line ++ [LF])) s = .next { s with
          result := .ok (.items [.nonAis snt]), events := [], stat := 0x00 }) ∧
      (∀ f, p.result = .ok (.sentence (.encapsulated f)) →
        ∃ t, exec (.rsmPush (.encapsulated f)) s = .next t ∧ (∀ e, t.result ≠ .err e) ∧
          (t.result = .ok (.text none) → exec (.topFeed (line ++ [LF])) s = .next { t with
            result := .ok (.items (t.events.map .event)), stat := 0x00 }) ∧
          (∀ text, t.result = .ok (.text (some text)) →
            ∃ u, exec (.abrLoad text) t = .next u ∧
              (∀ e, u.result = .err e → exec (.topFeed (line ++ [LF])) s = .next { t with
                result := .ok (.items (t.events.map .event ++ [.error e line])), stat := 0x00 }) ∧
              (u.result = .ok .none → ∃ v, exec .dspDisp u = .next v ∧
                (∀ e, v.result = .err e → exec (.topFeed (line ++ [LF])) s = .next { v with
                  result := .ok (.items (t.events.map .event ++ [.error e line])),
                  events := t.events, stat := 0x00 }) ∧
                (∀ m, v.result = .ok (.message m) → exec (.topFeed (line ++ [LF])) s = .next { v with
                  result := .ok (.items (t.events.map .event ++ [.message m])),
                  events := t.events, stat := 0x00 }))))

/-- Chunking does not matter for the pipeline (R209, derived by the spec): feeding two chunks one after the other
yields the items of their concatenation and ends in the same state, the port apart (TOP.FEED's event list is the
events among its items, log 10). -/
def Obligations.FeedChunkingDoesNotMatter : Prop :=
  ∀ (s : State) (a b : Text), unbounded s.cfg → s.src = .opened →
    ∃ ta tb ia ib, exec (.topFeed a) s = .next ta ∧ ta.result = .ok (.items ia) ∧
      exec (.topFeed b) ta = .next tb ∧ tb.result = .ok (.items ib) ∧
      exec (.topFeed (a ++ b)) s = .next { tb with
        result := .ok (.items (ia ++ ib)), events := ta.events ++ tb.events }

/-- The items of one line: at most one event, which comes first, and at most one of Message, NonAis, Error; an
event and a message together only when a self-contained sentence pre-empts an accumulation (R208; spec's decision
D20). -/
def Obligations.ItemsOfOneLine : Prop :=
  ∀ (s t : State) (line : Text) (items : List Item), process line s = .ok items t →
    ∃ (ev : List BreakCause) (rest : List Item), items = ev.map .event ++ rest ∧ ev.length ≤ 1 ∧
      rest.length ≤ 1 ∧ (∀ c, .event c ∉ rest) ∧ (ev ≠ [] → rest ≠ [] → ev = [.preempt] ∧ s.q ≠ [])

/-- Sessions share nothing (R38, R243): a step of one leaves every other as it was, and what it does depends on
its own state only; it completes when that state's step does. -/
def Obligations.SessionsAreIndependent : Prop :=
  ∀ (n : Nat) (k : Fin (n + 1)) (ss : Sessions n),
    (∀ ss', stepSession k ss = .next ss' →
      (∀ j : Fin (n + 1), j ≠ k → ss'[j] = ss[j]) ∧ step ss[k] = .next ss'[k]) ∧
    (∀ t, step ss[k] = .next t → ∃ ss', stepSession k ss = .next ss' ∧ ss'[k] = t) ∧
    (∀ r, step ss[k] = .refused r → stepSession k ss = .refused r)

/-- `REAL_FORMAT` is rendering only and changes no rule's result (R8, R16; spec's decision D15): an operation does the
same under every format; the port shows the result itself under exact rationals, and under any format an error as it
is and a field map with the same names in the same order, only its `Real` values rendered (a machine format's numbers
are free, log 8). -/
def Obligations.RealFormatIsRenderingOnly : Prop :=
  (∀ (i : Instr) (s t : State) (f : RealFormat), exec i s = .next t →
    exec i { s with cfg := { s.cfg with realFormat := f } } =
      .next { t with cfg := { t.cfg with realFormat := f } }) ∧
  (∀ s : State, s.cfg.realFormat = .exact → s.port = s.result) ∧
  (∀ (s : State) (m : FieldMap), s.result = .ok (.fieldMap m) →
    ∃ m', s.port = .ok (.fieldMap m') ∧ m'.map (·.1) = m.map (·.1) ∧
      ∀ (k : Nat) (n : FieldName) (v : Value), m[k]? = some (n, v) → (∀ q, v ≠ .real q) →
        m'[k]? = some (n, v)) ∧
  (∀ (s : State) (e : Error), s.result = .err e → s.port = .err e)
end

