-- ==== Sys2Proof/Laws/Decode.lean ====
section
/-! SUPPORT. The three fields of a command word, and what it is to match a row of the opcode table. -/

namespace Sys2Proof

theorem cwUnit_cmdWord (u f a : Nat) : cwUnit (cmdWord u f a) = u % 16 := by
  have : (cmdWord u f a).extractLsb' 12 4 = BitVec.ofNat 4 u := by
    apply BitVec.eq_of_getLsbD_eq
    intro i hi
    simp only [cmdWord, BitVec.getLsbD_extractLsb', BitVec.getLsbD_append]
    simp [hi, show ¬ 12 + i < 8 by omega, show ¬ 12 + i - 8 < 4 by omega, show 12 + i - 8 - 4 = i by omega]
  simp [cwUnit, this]

theorem cwFunc_cmdWord (u f a : Nat) : cwFunc (cmdWord u f a) = f % 16 := by
  have : (cmdWord u f a).extractLsb' 8 4 = BitVec.ofNat 4 f := by
    apply BitVec.eq_of_getLsbD_eq
    intro i hi
    simp only [cmdWord, BitVec.getLsbD_extractLsb', BitVec.getLsbD_append]
    simp [hi]
  simp [cwFunc, this]

theorem cwArg_cmdWord (u f a : Nat) : cwArg (cmdWord u f a) = a % 256 := by
  have : (cmdWord u f a).extractLsb' 0 8 = BitVec.ofNat 8 a := by
    apply BitVec.eq_of_getLsbD_eq
    intro i hi
    simp only [cmdWord, BitVec.getLsbD_extractLsb', BitVec.getLsbD_append]
    simp [hi]
  simp [cwArg, this]

theorem cwUnit_lt (w : CmdWord) : cwUnit w < 16 := BitVec.isLt _
theorem cwFunc_lt (w : CmdWord) : cwFunc w < 16 := BitVec.isLt _
theorem cwArg_lt (w : CmdWord) : cwArg w < 256 := BitVec.isLt _

/-- A word is its three fields. -/
theorem cmdWord_eta (w : CmdWord) : cmdWord (cwUnit w) (cwFunc w) (cwArg w) = w := by
  apply BitVec.eq_of_getLsbD_eq
  intro i hi
  simp only [cmdWord, cwUnit, cwFunc, cwArg, BitVec.ofNat_toNat, BitVec.setWidth_eq, BitVec.getLsbD_append,
    BitVec.getLsbD_extractLsb']
  by_cases h1 : i < 8
  · simp [h1]
  · by_cases h2 : i - 8 < 4
    · simp [h1, h2, show 8 + (i - 8) = i by omega]
    · simp [h1, h2, show i - 8 - 4 < 4 by omega, show 12 + (i - 8 - 4) = i by omega]

/-- A row with a full mask has one word. -/
theorem has_full (m : String) (v w : CmdWord) : (OpcodeRow.mk m v 0xFFFF).has w = (w == v) := by
  have : w &&& 0xFFFF = w := BitVec.and_allOnes
  simp only [OpcodeRow.has, this]

/-- A row whose mask leaves `ARG` out has the words with its unit and function. -/
theorem has_arg (m : String) (v w : CmdWord) :
    (OpcodeRow.mk m v 0xFF00).has w = (cmdWord (cwUnit w) (cwFunc w) 0 == v) := by
  have : w &&& 0xFF00 = cmdWord (cwUnit w) (cwFunc w) 0 := by
    conv_lhs => rw [← cmdWord_eta w]
    apply BitVec.eq_of_getLsbD_eq
    intro i hi
    simp only [cmdWord, BitVec.getLsbD_and, BitVec.getLsbD_append]
    have hb : ∀ i < 16, (0xFF00 : CmdWord).getLsbD i = decide (8 ≤ i) := by decide
    rw [hb i hi]
    by_cases h1 : i < 8
    · simp [h1]
    · simp [h1, Nat.le_of_not_lt h1]
  simp only [OpcodeRow.has, this]

theorem has_arg_cmdWord (m : String) {u f : Nat} (hu : u < 16) (hf : f < 16) (a : Nat) :
    (OpcodeRow.mk m (cmdWord u f 0) 0xFF00).has (cmdWord u f a) = true := by
  rw [has_arg, cwUnit_cmdWord, cwFunc_cmdWord, Nat.mod_eq_of_lt hu, Nat.mod_eq_of_lt hf]
  exact beq_self_eq_true _

end Sys2Proof
end

