-- ==== Sys2Proof/Laws/State.lean ====
section
/-! SUPPORT. One lemma per field per update of State, true by rfl, so that no proof unfolds a record update. -/

namespace Sys2Proof.Machine.State

variable (s : State)

@[simp] theorem loadBuf_cfg (b : List Bool) : (s.loadBuf b).cfg = s.cfg := rfl
@[simp] theorem loadBuf_bv (b : List Bool) : (s.loadBuf b).bv = true := rfl
@[simp] theorem loadBuf_buf (b : List Bool) : (s.loadBuf b).buf = b := rfl
@[simp] theorem loadBuf_cur (b : List Bool) : (s.loadBuf b).cur = 0 := rfl
@[simp] theorem loadBuf_q (b : List Bool) : (s.loadBuf b).q = s.q := rfl
@[simp] theorem loadBuf_carry (b : List Bool) : (s.loadBuf b).carry = s.carry := rfl
@[simp] theorem loadBuf_src (b : List Bool) : (s.loadBuf b).src = s.src := rfl
@[simp] theorem loadBuf_res (b : List Bool) : (s.loadBuf b).res = s.res := rfl
@[simp] theorem loadBuf_stat (b : List Bool) : (s.loadBuf b).stat = s.stat := rfl
@[simp] theorem loadBuf_typeCode (b : List Bool) : (s.loadBuf b).typeCode = s.typeCode := rfl
@[simp] theorem loadBuf_now (b : List Bool) : (s.loadBuf b).now = s.now := rfl
@[simp] theorem loadBuf_result (b : List Bool) : (s.loadBuf b).result = s.result := rfl
@[simp] theorem loadBuf_events (b : List Bool) : (s.loadBuf b).events = s.events := rfl
@[simp] theorem loadBuf_pending (b : List Bool) : (s.loadBuf b).pending = s.pending := rfl
@[simp] theorem loadBuf_resets (b : List Bool) : (s.loadBuf b).resets = s.resets := rfl
@[simp] theorem loadBuf_len (b : List Bool) : (s.loadBuf b).len = b.length := rfl

@[simp] theorem advance_cfg (n : Nat) : (s.advance n).cfg = s.cfg := rfl
@[simp] theorem advance_bv (n : Nat) : (s.advance n).bv = s.bv := rfl
@[simp] theorem advance_buf (n : Nat) : (s.advance n).buf = s.buf := rfl
@[simp] theorem advance_cur (n : Nat) : (s.advance n).cur = s.cur + n := rfl
@[simp] theorem advance_q (n : Nat) : (s.advance n).q = s.q := rfl
@[simp] theorem advance_carry (n : Nat) : (s.advance n).carry = s.carry := rfl
@[simp] theorem advance_src (n : Nat) : (s.advance n).src = s.src := rfl
@[simp] theorem advance_res (n : Nat) : (s.advance n).res = s.res := rfl
@[simp] theorem advance_stat (n : Nat) : (s.advance n).stat = s.stat := rfl
@[simp] theorem advance_typeCode (n : Nat) : (s.advance n).typeCode = s.typeCode := rfl
@[simp] theorem advance_now (n : Nat) : (s.advance n).now = s.now := rfl
@[simp] theorem advance_result (n : Nat) : (s.advance n).result = s.result := rfl
@[simp] theorem advance_events (n : Nat) : (s.advance n).events = s.events := rfl
@[simp] theorem advance_pending (n : Nat) : (s.advance n).pending = s.pending := rfl
@[simp] theorem advance_resets (n : Nat) : (s.advance n).resets = s.resets := rfl
@[simp] theorem advance_len (n : Nat) : (s.advance n).len = s.len := rfl

@[simp] theorem setRes_cfg (v : BitVec 32) : (s.setRes v).cfg = s.cfg := rfl
@[simp] theorem setRes_bv (v : BitVec 32) : (s.setRes v).bv = s.bv := rfl
@[simp] theorem setRes_buf (v : BitVec 32) : (s.setRes v).buf = s.buf := rfl
@[simp] theorem setRes_cur (v : BitVec 32) : (s.setRes v).cur = s.cur := rfl
@[simp] theorem setRes_q (v : BitVec 32) : (s.setRes v).q = s.q := rfl
@[simp] theorem setRes_carry (v : BitVec 32) : (s.setRes v).carry = s.carry := rfl
@[simp] theorem setRes_src (v : BitVec 32) : (s.setRes v).src = s.src := rfl
@[simp] theorem setRes_res (v : BitVec 32) : (s.setRes v).res = v := rfl
@[simp] theorem setRes_stat (v : BitVec 32) : (s.setRes v).stat = s.stat := rfl
@[simp] theorem setRes_typeCode (v : BitVec 32) : (s.setRes v).typeCode = s.typeCode := rfl
@[simp] theorem setRes_now (v : BitVec 32) : (s.setRes v).now = s.now := rfl
@[simp] theorem setRes_result (v : BitVec 32) : (s.setRes v).result = s.result := rfl
@[simp] theorem setRes_events (v : BitVec 32) : (s.setRes v).events = s.events := rfl
@[simp] theorem setRes_pending (v : BitVec 32) : (s.setRes v).pending = s.pending := rfl
@[simp] theorem setRes_resets (v : BitVec 32) : (s.setRes v).resets = s.resets := rfl
@[simp] theorem setRes_len (v : BitVec 32) : (s.setRes v).len = s.len := rfl

@[simp] theorem setType_cfg (v : BitVec 6) : (s.setType v).cfg = s.cfg := rfl
@[simp] theorem setType_bv (v : BitVec 6) : (s.setType v).bv = s.bv := rfl
@[simp] theorem setType_buf (v : BitVec 6) : (s.setType v).buf = s.buf := rfl
@[simp] theorem setType_cur (v : BitVec 6) : (s.setType v).cur = s.cur := rfl
@[simp] theorem setType_q (v : BitVec 6) : (s.setType v).q = s.q := rfl
@[simp] theorem setType_carry (v : BitVec 6) : (s.setType v).carry = s.carry := rfl
@[simp] theorem setType_src (v : BitVec 6) : (s.setType v).src = s.src := rfl
@[simp] theorem setType_res (v : BitVec 6) : (s.setType v).res = s.res := rfl
@[simp] theorem setType_stat (v : BitVec 6) : (s.setType v).stat = s.stat := rfl
@[simp] theorem setType_typeCode (v : BitVec 6) : (s.setType v).typeCode = v := rfl
@[simp] theorem setType_now (v : BitVec 6) : (s.setType v).now = s.now := rfl
@[simp] theorem setType_result (v : BitVec 6) : (s.setType v).result = s.result := rfl
@[simp] theorem setType_events (v : BitVec 6) : (s.setType v).events = s.events := rfl
@[simp] theorem setType_pending (v : BitVec 6) : (s.setType v).pending = s.pending := rfl
@[simp] theorem setType_resets (v : BitVec 6) : (s.setType v).resets = s.resets := rfl
@[simp] theorem setType_len (v : BitVec 6) : (s.setType v).len = s.len := rfl

@[simp] theorem setQ_cfg (v : List Fragment) : (s.setQ v).cfg = s.cfg := rfl
@[simp] theorem setQ_bv (v : List Fragment) : (s.setQ v).bv = s.bv := rfl
@[simp] theorem setQ_buf (v : List Fragment) : (s.setQ v).buf = s.buf := rfl
@[simp] theorem setQ_cur (v : List Fragment) : (s.setQ v).cur = s.cur := rfl
@[simp] theorem setQ_q (v : List Fragment) : (s.setQ v).q = v := rfl
@[simp] theorem setQ_carry (v : List Fragment) : (s.setQ v).carry = s.carry := rfl
@[simp] theorem setQ_src (v : List Fragment) : (s.setQ v).src = s.src := rfl
@[simp] theorem setQ_res (v : List Fragment) : (s.setQ v).res = s.res := rfl
@[simp] theorem setQ_stat (v : List Fragment) : (s.setQ v).stat = s.stat := rfl
@[simp] theorem setQ_typeCode (v : List Fragment) : (s.setQ v).typeCode = s.typeCode := rfl
@[simp] theorem setQ_now (v : List Fragment) : (s.setQ v).now = s.now := rfl
@[simp] theorem setQ_result (v : List Fragment) : (s.setQ v).result = s.result := rfl
@[simp] theorem setQ_events (v : List Fragment) : (s.setQ v).events = s.events := rfl
@[simp] theorem setQ_pending (v : List Fragment) : (s.setQ v).pending = s.pending := rfl
@[simp] theorem setQ_resets (v : List Fragment) : (s.setQ v).resets = s.resets := rfl
@[simp] theorem setQ_len (v : List Fragment) : (s.setQ v).len = s.len := rfl

@[simp] theorem setCarry_cfg (v : Text) : (s.setCarry v).cfg = s.cfg := rfl
@[simp] theorem setCarry_bv (v : Text) : (s.setCarry v).bv = s.bv := rfl
@[simp] theorem setCarry_buf (v : Text) : (s.setCarry v).buf = s.buf := rfl
@[simp] theorem setCarry_cur (v : Text) : (s.setCarry v).cur = s.cur := rfl
@[simp] theorem setCarry_q (v : Text) : (s.setCarry v).q = s.q := rfl
@[simp] theorem setCarry_carry (v : Text) : (s.setCarry v).carry = v := rfl
@[simp] theorem setCarry_src (v : Text) : (s.setCarry v).src = s.src := rfl
@[simp] theorem setCarry_res (v : Text) : (s.setCarry v).res = s.res := rfl
@[simp] theorem setCarry_stat (v : Text) : (s.setCarry v).stat = s.stat := rfl
@[simp] theorem setCarry_typeCode (v : Text) : (s.setCarry v).typeCode = s.typeCode := rfl
@[simp] theorem setCarry_now (v : Text) : (s.setCarry v).now = s.now := rfl
@[simp] theorem setCarry_result (v : Text) : (s.setCarry v).result = s.result := rfl
@[simp] theorem setCarry_events (v : Text) : (s.setCarry v).events = s.events := rfl
@[simp] theorem setCarry_pending (v : Text) : (s.setCarry v).pending = s.pending := rfl
@[simp] theorem setCarry_resets (v : Text) : (s.setCarry v).resets = s.resets := rfl
@[simp] theorem setCarry_len (v : Text) : (s.setCarry v).len = s.len := rfl

@[simp] theorem setSrc_cfg (v : Src) : (s.setSrc v).cfg = s.cfg := rfl
@[simp] theorem setSrc_bv (v : Src) : (s.setSrc v).bv = s.bv := rfl
@[simp] theorem setSrc_buf (v : Src) : (s.setSrc v).buf = s.buf := rfl
@[simp] theorem setSrc_cur (v : Src) : (s.setSrc v).cur = s.cur := rfl
@[simp] theorem setSrc_q (v : Src) : (s.setSrc v).q = s.q := rfl
@[simp] theorem setSrc_carry (v : Src) : (s.setSrc v).carry = s.carry := rfl
@[simp] theorem setSrc_src (v : Src) : (s.setSrc v).src = v := rfl
@[simp] theorem setSrc_res (v : Src) : (s.setSrc v).res = s.res := rfl
@[simp] theorem setSrc_stat (v : Src) : (s.setSrc v).stat = s.stat := rfl
@[simp] theorem setSrc_typeCode (v : Src) : (s.setSrc v).typeCode = s.typeCode := rfl
@[simp] theorem setSrc_now (v : Src) : (s.setSrc v).now = s.now := rfl
@[simp] theorem setSrc_result (v : Src) : (s.setSrc v).result = s.result := rfl
@[simp] theorem setSrc_events (v : Src) : (s.setSrc v).events = s.events := rfl
@[simp] theorem setSrc_pending (v : Src) : (s.setSrc v).pending = s.pending := rfl
@[simp] theorem setSrc_resets (v : Src) : (s.setSrc v).resets = s.resets := rfl
@[simp] theorem setSrc_len (v : Src) : (s.setSrc v).len = s.len := rfl

@[simp] theorem writeNow_cfg (v : BitVec 64) : (s.writeNow v).cfg = s.cfg := rfl
@[simp] theorem writeNow_bv (v : BitVec 64) : (s.writeNow v).bv = s.bv := rfl
@[simp] theorem writeNow_buf (v : BitVec 64) : (s.writeNow v).buf = s.buf := rfl
@[simp] theorem writeNow_cur (v : BitVec 64) : (s.writeNow v).cur = s.cur := rfl
@[simp] theorem writeNow_q (v : BitVec 64) : (s.writeNow v).q = s.q := rfl
@[simp] theorem writeNow_carry (v : BitVec 64) : (s.writeNow v).carry = s.carry := rfl
@[simp] theorem writeNow_src (v : BitVec 64) : (s.writeNow v).src = s.src := rfl
@[simp] theorem writeNow_res (v : BitVec 64) : (s.writeNow v).res = s.res := rfl
@[simp] theorem writeNow_stat (v : BitVec 64) : (s.writeNow v).stat = s.stat := rfl
@[simp] theorem writeNow_typeCode (v : BitVec 64) : (s.writeNow v).typeCode = s.typeCode := rfl
@[simp] theorem writeNow_now (v : BitVec 64) : (s.writeNow v).now = v := rfl
@[simp] theorem writeNow_result (v : BitVec 64) : (s.writeNow v).result = s.result := rfl
@[simp] theorem writeNow_events (v : BitVec 64) : (s.writeNow v).events = s.events := rfl
@[simp] theorem writeNow_pending (v : BitVec 64) : (s.writeNow v).pending = s.pending := rfl
@[simp] theorem writeNow_resets (v : BitVec 64) : (s.writeNow v).resets = s.resets := rfl
@[simp] theorem writeNow_len (v : BitVec 64) : (s.writeNow v).len = s.len := rfl

@[simp] theorem setPending_cfg (v : List HostAct) : (s.setPending v).cfg = s.cfg := rfl
@[simp] theorem setPending_bv (v : List HostAct) : (s.setPending v).bv = s.bv := rfl
@[simp] theorem setPending_buf (v : List HostAct) : (s.setPending v).buf = s.buf := rfl
@[simp] theorem setPending_cur (v : List HostAct) : (s.setPending v).cur = s.cur := rfl
@[simp] theorem setPending_q (v : List HostAct) : (s.setPending v).q = s.q := rfl
@[simp] theorem setPending_carry (v : List HostAct) : (s.setPending v).carry = s.carry := rfl
@[simp] theorem setPending_src (v : List HostAct) : (s.setPending v).src = s.src := rfl
@[simp] theorem setPending_res (v : List HostAct) : (s.setPending v).res = s.res := rfl
@[simp] theorem setPending_stat (v : List HostAct) : (s.setPending v).stat = s.stat := rfl
@[simp] theorem setPending_typeCode (v : List HostAct) : (s.setPending v).typeCode = s.typeCode := rfl
@[simp] theorem setPending_now (v : List HostAct) : (s.setPending v).now = s.now := rfl
@[simp] theorem setPending_result (v : List HostAct) : (s.setPending v).result = s.result := rfl
@[simp] theorem setPending_events (v : List HostAct) : (s.setPending v).events = s.events := rfl
@[simp] theorem setPending_pending (v : List HostAct) : (s.setPending v).pending = v := rfl
@[simp] theorem setPending_resets (v : List HostAct) : (s.setPending v).resets = s.resets := rfl
@[simp] theorem setPending_len (v : List HostAct) : (s.setPending v).len = s.len := rfl

@[simp] theorem respond_cfg (r : Result) (e : List BreakCause) : (s.respond r e).cfg = s.cfg := rfl
@[simp] theorem respond_bv (r : Result) (e : List BreakCause) : (s.respond r e).bv = s.bv := rfl
@[simp] theorem respond_buf (r : Result) (e : List BreakCause) : (s.respond r e).buf = s.buf := rfl
@[simp] theorem respond_cur (r : Result) (e : List BreakCause) : (s.respond r e).cur = s.cur := rfl
@[simp] theorem respond_q (r : Result) (e : List BreakCause) : (s.respond r e).q = s.q := rfl
@[simp] theorem respond_carry (r : Result) (e : List BreakCause) : (s.respond r e).carry = s.carry := rfl
@[simp] theorem respond_src (r : Result) (e : List BreakCause) : (s.respond r e).src = s.src := rfl
@[simp] theorem respond_res (r : Result) (e : List BreakCause) : (s.respond r e).res = s.res := rfl
@[simp] theorem respond_stat (r : Result) (e : List BreakCause) : (s.respond r e).stat = r.status := rfl
@[simp] theorem respond_typeCode (r : Result) (e : List BreakCause) : (s.respond r e).typeCode = s.typeCode := rfl
@[simp] theorem respond_now (r : Result) (e : List BreakCause) : (s.respond r e).now = s.now := rfl
@[simp] theorem respond_result (r : Result) (e : List BreakCause) : (s.respond r e).result = r := rfl
@[simp] theorem respond_events (r : Result) (e : List BreakCause) : (s.respond r e).events = e := rfl
@[simp] theorem respond_pending (r : Result) (e : List BreakCause) : (s.respond r e).pending = s.pending := rfl
@[simp] theorem respond_resets (r : Result) (e : List BreakCause) : (s.respond r e).resets = s.resets := rfl
@[simp] theorem respond_len (r : Result) (e : List BreakCause) : (s.respond r e).len = s.len := rfl

@[simp] theorem complete_eq (v : Val) (e : List BreakCause) : s.complete v e = s.respond (.ok v) e := rfl
@[simp] theorem takeError_eq (e : Error) : s.takeError e = s.respond (.err e) [] := rfl
@[simp] theorem status_ok (v : Val) : (Result.ok v).status = 0 := rfl

/-- Two operations' ends: the later one is what the port holds. -/
@[simp] theorem respond_respond (r r' : Result) (e e' : List BreakCause) :
    (s.respond r e).respond r' e' = s.respond r' e' := rfl

end Sys2Proof.Machine.State
end

