-- ==== Sys2Proof/Laws/Ops.lean ====
section
/-! SUPPORT. One lemma per shared operation that says everything it can do. -/

namespace Sys2Proof.Machine

namespace Ret

variable {α β : Type}

@[simp] theorem bind_ok (v : α) (s : State) (f : α → State → Ret β) : (Ret.ok v s).bind f = f v s := rfl
@[simp] theorem bind_err (e : Error) (s : State) (f : α → State → Ret β) :
    (Ret.err e s).bind f = .err e s := rfl
@[simp] theorem bind_refused (w : Refusal) (f : α → State → Ret β) : (Ret.refused w).bind f = .refused w := rfl
@[simp] theorem map_ok (f : α → β) (v : α) (s : State) : (Ret.ok v s).map f = .ok (f v) s := rfl
@[simp] theorem map_err (f : α → β) (e : Error) (s : State) : (Ret.err e s).map f = .err e s := rfl
@[simp] theorem map_refused (f : α → β) (w : Refusal) : (Ret.refused w).map f = .refused w := rfl

@[simp] theorem outcome_ok (val : α → Val) (ev : α → List BreakCause) (v : α) (s : State) :
    (Ret.ok v s).outcome val ev = .next (s.respond (.ok (val v)) (ev v)) := rfl
@[simp] theorem outcome_err (val : α → Val) (ev : α → List BreakCause) (e : Error) (s : State) :
    (Ret.err e s).outcome val ev = .next (s.respond (.err e) []) := rfl
@[simp] theorem outcome_refused (val : α → Val) (ev : α → List BreakCause) (w : Refusal) :
    (Ret.refused w).outcome val ev = .refused w := rfl

/-- An operation that answers a next state returned a value or took an error. -/
theorem outcome_next {val : α → Val} {ev : α → List BreakCause} {r : Ret α} {t : State}
    (h : r.outcome val ev = .next t) :
    (∃ v s, r = .ok v s ∧ t = s.respond (.ok (val v)) (ev v)) ∨
      (∃ e s, r = .err e s ∧ t = s.respond (.err e) []) := by
  cases r with
  | ok v s => exact .inl ⟨v, s, rfl, by simpa using h.symm⟩
  | err e s => exact .inr ⟨e, s, rfl, by simpa using h.symm⟩
  | refused w => simp at h

/-- The states an answer may carry all satisfy `P`. -/
def All (P : State → Prop) : Ret α → Prop
  | .ok _ s => P s
  | .err _ s => P s
  | .refused _ => True

theorem All.bind {P Q : State → Prop} {r : Ret α} {f : α → State → Ret β} (h : r.All P)
    (hf : ∀ v s, P s → (f v s).All Q) (he : ∀ s, P s → Q s) : (r.bind f).All Q := by
  cases r with
  | ok v s => exact hf v s h
  | err e s => exact he s h
  | refused w => trivial

theorem All.map {P : State → Prop} {r : Ret α} {f : α → β} (h : r.All P) : (r.map f).All P := by
  cases r <;> exact h

theorem All.imp {P Q : State → Prop} {r : Ret α} (h : r.All P) (hpq : ∀ s, P s → Q s) : r.All Q := by
  cases r with
  | ok v s => exact hpq s h
  | err e s => exact hpq s h
  | refused w => trivial

/-- What holds of every state an answer may carry, and does not depend on the port, holds of the state the
operation ends in. -/
theorem All.outcome {P : State → Prop} {r : Ret α} {val : α → Val} {ev : α → List BreakCause} {t : State}
    (h : r.All P) (hr : ∀ s a b, P s → P (s.respond a b)) (ht : r.outcome val ev = .next t) : P t := by
  obtain ⟨v, s, rfl, rfl⟩ | ⟨e, s, rfl, rfl⟩ := outcome_next ht
  · exact hr _ _ _ h
  · exact hr _ _ _ h

/-- The answer is no refusal. -/
def Runs : Ret α → Prop
  | .ok _ _ => True
  | .err _ _ => True
  | .refused _ => False

theorem Runs.bind {r : Ret α} {f : α → State → Ret β} (h : r.Runs) (hf : ∀ v s, r = .ok v s → (f v s).Runs) :
    (r.bind f).Runs := by
  cases r with
  | ok v s => exact hf v s rfl
  | err e s => trivial
  | refused w => exact h.elim

theorem Runs.map {r : Ret α} {f : α → β} (h : r.Runs) : (r.map f).Runs := by
  cases r <;> exact h

theorem Runs.outcome {r : Ret α} (val : α → Val) (ev : α → List BreakCause) (h : r.Runs) :
    ∃ t, r.outcome val ev = .next t := by
  cases r with
  | ok v s => exact ⟨_, rfl⟩
  | err e s => exact ⟨_, rfl⟩
  | refused w => exact h.elim

end Ret

@[simp] theorem noEvents_eq {α : Type} (v : α) : noEvents v = [] := rfl

@[simp] theorem exceeds_none (n : Nat) : exceeds none n = false := rfl

@[simp] theorem memRead_length (a n : Nat) (s : State) (h : a + n ≤ s.len) : (memRead a n s).length = n := by
  simp only [memRead, List.length_take, List.length_drop]
  simp only [State.len] at h
  omega

/-- The checks of a read all pass: the bits at the cursor, and the cursor moves on. -/
theorem readBits_ok {n : Nat} {s : State} (hb : s.bv = true) (hn : legalCount n = true)
    (hl : n ≤ s.len - s.cur) : readBits n s = .ok (memRead s.cur n s) (s.advance n) := by
  simp only [readBits, hb, hn]
  rw [if_neg (by simp), if_neg (by simp), if_neg (by omega)]

/-- Everything a read can do. -/
theorem readBits_cases (n : Nat) (s : State) :
    (s.bv = false ∧ readBits n s = .err (.illegal .nobuf) s) ∨
    (s.bv = true ∧ legalCount n = false ∧ readBits n s = .err (.illegal .operand) s) ∨
    (s.bv = true ∧ legalCount n = true ∧ s.len - s.cur < n ∧ readBits n s = .err (.decode .underrun) s) ∨
    (s.bv = true ∧ legalCount n = true ∧ n ≤ s.len - s.cur ∧
      readBits n s = .ok (memRead s.cur n s) (s.advance n)) := by
  by_cases hb : s.bv = true
  · by_cases hn : legalCount n = true
    · by_cases hl : s.len - s.cur < n
      · exact .inr (.inr (.inl ⟨hb, hn, hl, by simp [readBits, hb, hn, hl]⟩))
      · exact .inr (.inr (.inr ⟨hb, hn, by omega, readBits_ok hb hn (by omega)⟩))
    · exact .inr (.inl ⟨hb, by simpa using hn, by simp [readBits, hb, hn]⟩)
  · exact .inl ⟨by simpa using hb, by simp [readBits, hb]⟩

/-- A read that succeeds returns a function of its bits and latches another. -/
theorem readLatch_ok {α : Type} {n : Nat} {f : List Bool → α} {g : List Bool → BitVec 32} {s : State}
    (hb : s.bv = true) (hn : legalCount n = true) (hl : n ≤ s.len - s.cur) :
    readLatch n f g s =
      .ok (f (memRead s.cur n s)) ((s.advance n).setRes (g (memRead s.cur n s))) := by
  simp [readLatch, readBits_ok hb hn hl]

/-- What holds of a state and of it after a successful read holds of every state a read may end in. -/
theorem readLatch_all {α : Type} {P : State → Prop} {n : Nat} {f : List Bool → α} {g : List Bool → BitVec 32}
    {s : State} (h : P s)
    (hok : legalCount n = true → n ≤ s.len - s.cur → ∀ v, P ((s.advance n).setRes v)) :
    (readLatch n f g s).All P := by
  unfold readLatch
  obtain ⟨_, hr⟩ | ⟨_, _, hr⟩ | ⟨_, _, _, hr⟩ | ⟨_, hn, hl, hr⟩ := readBits_cases n s <;> rw [hr]
  · exact h
  · exact h
  · exact h
  · exact hok hn hl _

theorem readLatch_runs {α : Type} (n : Nat) (f : List Bool → α) (g : List Bool → BitVec 32) (s : State) :
    (readLatch n f g s).Runs := by
  unfold readLatch
  obtain ⟨_, hr⟩ | ⟨_, _, hr⟩ | ⟨_, _, _, hr⟩ | ⟨_, _, _, hr⟩ := readBits_cases n s <;>
    rw [hr] <;> trivial

/-- The step on a request whose word selects an operation. -/
theorem fetch_issue {s : State} {r : Request} {rest : List HostAct} {i : Instr}
    (hp : s.pending = .issue r :: rest) (hd : decode r = .ok i) : fetch s = .run i (s.setPending rest) := by
  simp [fetch, hp, hd]

end Sys2Proof.Machine
end

