-- ==== Sys2Proof/Laws/Fields.lean ====
section
/-! SUPPORT. What reading the class-A fields one after another does, by field width (spec/30_encoding.md R72,
44_field_decoder_posa.md R161, R172). -/

namespace Sys2Proof.Machine

/-- The width of a field (R72). -/
def FieldName.width : FieldName → Nat
  | .repeatInd => 2
  | .mmsi => 30
  | .status => 4
  | .turn => 8
  | .speed => 10
  | .accuracy => 1
  | .lon => 28
  | .lat => 27
  | .course => 12
  | .heading => 9
  | .second => 6
  | .maneuver => 2
  | .spare => 3
  | .raim => 1
  | .syncState => 2
  | .slotTimeout => 3
  | .commState => 14

/-- The value of a field whose bits are `b`. -/
def FieldName.value (f : FieldName) (o : BitOrder) (now : BitVec 64) (b : List Bool) : Value :=
  match f with
  | .repeatInd => .int (uint o b)
  | .mmsi => .int (uint o b)
  | .status => .enum (uint o b)
  | .turn => convRot (sext 8 (uint o b))
  | .speed => convSog (uint o b)
  | .accuracy => .bool (uint o b == 1)
  | .lon => convLon (sext 28 (uint o b))
  | .lat => convLat (sext 27 (uint o b))
  | .course => convCog (uint o b)
  | .heading => convHdg (uint o b)
  | .second => convTs (uint o b) now
  | .maneuver => .enum (uint o b)
  | .spare => .raw b
  | .raim => .bool (uint o b == 1)
  | .syncState => .enum (uint o b)
  | .slotTimeout => .int (uint o b)
  | .commState => .raw b

/-- The widths of a sequence of fields together. -/
def totalWidth : List FieldName → Nat
  | [] => 0
  | f :: fs => f.width + totalWidth fs

/-- The values of a sequence of fields that starts at address `a`. -/
def valuesAt (o : BitOrder) (now : BitVec 64) (buf : List Bool) : List FieldName → Nat → FieldMap
  | [], _ => []
  | f :: fs, a => (f, f.value o now (bitsAt buf a f.width)) :: valuesAt o now buf fs (a + f.width)

/-- What reading a field latches in `RES`: the signed fields their 32-bit pattern, the others their bits
zero-extended (spec/10_state.md R21). -/
def FieldName.latch (f : FieldName) (o : BitOrder) (b : List Bool) : BitVec 32 :=
  if f ∈ [.turn, .lon, .lat] then BitVec.ofInt 32 (sext f.width (uint o b)) else BitVec.ofNat 32 (uint o b)

/-- `RES` after a sequence of fields that starts at address `a`, when it held `r` before. -/
def resAt (o : BitOrder) (buf : List Bool) : List FieldName → Nat → BitVec 32 → BitVec 32
  | [], _, r => r
  | f :: fs, a, _ => resAt o buf fs (a + f.width) (f.latch o (bitsAt buf a f.width))

/-- A field that fits is read, latched, and the cursor moves past it. -/
theorem readField_ok (f : FieldName) {s : State} (hb : s.bv = true) (hl : s.cur + f.width ≤ s.len) :
    readField f s = .ok (f.value s.cfg.bitOrder s.now (bitsAt s.buf s.cur f.width))
      { s with cur := s.cur + f.width, res := f.latch s.cfg.bitOrder (bitsAt s.buf s.cur f.width) } := by
  cases f <;>
    simp only [readField, FieldName.width, FieldName.value, abrRdu, abrRdi, abrRdb, abrRdr] at * <;>
    rw [readLatch_ok hb rfl (by omega)] <;> rfl

/-- A field that does not fit is an underrun, and nothing changes. -/
theorem readField_underrun (f : FieldName) {s : State} (hb : s.bv = true) (hl : s.len - s.cur < f.width) :
    readField f s = .err (.decode .underrun) s := by
  cases f <;> simp only [readField, FieldName.width, abrRdu, abrRdi, abrRdb, abrRdr, readLatch] at * <;>
    (rw [readBits, if_neg (by simp [hb]), if_neg (by simp [legalCount, Config.nMax]), if_pos hl]; rfl)

/-- Fields that all fit are read in order. -/
theorem readFields_ok (fs : List FieldName) {s : State} (hb : s.bv = true)
    (hl : s.cur + totalWidth fs ≤ s.len) :
    readFields fs s = .ok (valuesAt s.cfg.bitOrder s.now s.buf fs s.cur)
      { s with cur := s.cur + totalWidth fs, res := resAt s.cfg.bitOrder s.buf fs s.cur s.res } := by
  induction fs generalizing s with
  | nil => rfl
  | cons f fs ih =>
    simp only [totalWidth] at hl
    rw [readFields, readField_ok f hb (by omega), Ret.bind_ok, ih (by exact hb) (by simp only [State.len] at *; omega)]
    simp only [Ret.bind_ok, valuesAt, totalWidth, resAt]
    rw [Nat.add_assoc]

/-- When they do not all fit, the first that does not fit ends the sequence, the cursor at its address and `RES` as
the fields before it leave it. -/
theorem readFields_underrun (fs : List FieldName) {s : State} (hb : s.bv = true) (hc : s.cur ≤ s.len)
    (hl : s.len < s.cur + totalWidth fs) :
    ∃ before f after, fs = before ++ f :: after ∧ s.cur + totalWidth before ≤ s.len ∧
      s.len < s.cur + totalWidth before + f.width ∧
      readFields fs s = .err (.decode .underrun)
        { s with cur := s.cur + totalWidth before, res := resAt s.cfg.bitOrder s.buf before s.cur s.res } := by
  induction fs generalizing s with
  | nil =>
    simp only [totalWidth] at hl
    omega
  | cons f fs ih =>
    by_cases h : s.cur + f.width ≤ s.len
    · simp only [totalWidth] at hl
      obtain ⟨before, g, after, e1, h1, h2, h3⟩ :=
        ih (s := { s with cur := s.cur + f.width, res := f.latch s.cfg.bitOrder (bitsAt s.buf s.cur f.width) }) hb
          (by simp only [State.len] at *; omega) (by simp only [State.len] at *; omega)
      refine ⟨f :: before, g, after, by rw [e1]; rfl, ?_, ?_, ?_⟩
      · simp only [totalWidth, State.len] at *
        omega
      · simp only [totalWidth, State.len] at *
        omega
      · rw [readFields, readField_ok f hb h, Ret.bind_ok, h3]
        simp only [Ret.bind_err, totalWidth, resAt]
        rw [Nat.add_assoc]
    · refine ⟨[], f, fs, rfl, hc, by simp only [totalWidth]; omega, ?_⟩
      rw [readFields, readField_underrun f hb (by omega)]
      rfl

/-- Where the class-A sequence is cut, the field there stands at R72's address, and `RES` holds what classARes
names. -/
theorem classA_split {before after : List FieldName} {f : FieldName} (h : classA = before ++ f :: after)
    (o : BitOrder) (buf : List Bool) (r : BitVec 32) :
    (6 + totalWidth before, f.width) ∈ classALayout ∧
      resAt o buf before 6 r = classARes o buf r (6 + totalWidth before) := by
  have hlen : before.length < 17 := by
    have := congrArg List.length h
    simp [classA] at this
    omega
  have h1 : before = classA.take before.length := by rw [h]; simp
  have h2 : classA[before.length]? = some f := by rw [h]; simp
  revert h1 h2
  generalize before.length = k at *
  rintro rfl h2
  interval_cases k <;> cases h2 <;> exact ⟨by decide, rfl⟩

/-- The last field of a sequence is read after the others. -/
theorem readFields_append_last (fs : List FieldName) (f : FieldName) (s : State) :
    readFields (fs ++ [f]) s =
      (readFields fs s).bind fun m s1 => (readField f s1).bind fun v s2 => .ok (m ++ [(f, v)]) s2 := by
  induction fs generalizing s with
  | nil => simp only [List.nil_append, readFields, Ret.bind_ok]
  | cons g fs ih =>
    simp only [List.cons_append, readFields]
    cases readField g s with
    | err => rfl
    | refused => rfl
    | ok v s1 =>
      simp only [Ret.bind_ok]
      rw [ih]
      cases readFields fs s1 with
      | err => rfl
      | refused => rfl
      | ok m s2 =>
        simp only [Ret.bind_ok]
        cases readField f s2 <;> rfl

end Sys2Proof.Machine
end

