-- ==== Sys2Proof/Laws/Reassembly.lean ====
section
/-! SUPPORT. The reassembler's predicates as the spec states them, and everything its fragment arm can do
(spec/42_reassembler.md R131 to R135). -/

namespace Sys2Proof

theorem sameMessage_refl (f : Fragment) : sameMessage f f := ⟨rfl, rfl, rfl, rfl, rfl⟩

theorem sameMessage_symm {f g : Fragment} (h : sameMessage f g) : sameMessage g f :=
  ⟨h.1.symm, h.2.1.symm, h.2.2.1.symm, h.2.2.2.1.symm, h.2.2.2.2.symm⟩

theorem sameMessage_trans {f g k : Fragment} (h : sameMessage f g) (h' : sameMessage g k) : sameMessage f k :=
  ⟨h.1.trans h'.1, h.2.1.trans h'.2.1, h.2.2.1.trans h'.2.2.1, h.2.2.2.1.trans h'.2.2.2.1,
    h.2.2.2.2.trans h'.2.2.2.2⟩

theorem queueOk_nil : queueOk [] := by
  intro j f h
  simp at h

namespace Machine

theorem continues_iff (p f : Fragment) :
    continues p f = true ↔ sameMessage p f ∧ f.partIndex = p.partIndex + 1 := by
  simp [continues, sameMessage, and_assoc]

theorem isFragment_iff (f : Fragment) :
    isFragment f = true ↔ f.seqId ≠ [] ∧ 1 < f.partCount ∧ 1 ≤ f.partIndex ∧ f.partIndex ≤ f.partCount := by
  simp [isFragment, and_assoc]

theorem selfContained_iff (f : Fragment) :
    selfContained f = true ↔ f.partCount = 1 ∧ f.seqId = [] ∧ f.partIndex = 1 := by
  simp [selfContained, and_assoc]

theorem breaks_last {q : List Fragment} {f p : Fragment} (h : q.getLast? = some p) :
    breaks q f = !continues p f := by
  simp [breaks, h]

/-- A queue that is not broken is empty or continued. -/
theorem breaks_false {q : List Fragment} {f : Fragment} (h : breaks q f = false) :
    q = [] ∨ ∃ p, q.getLast? = some p ∧ continues p f = true := by
  cases hl : q.getLast? with
  | none => exact .inl (by simpa using hl)
  | some p => exact .inr ⟨p, rfl, by simpa [breaks_last hl] using h⟩

/-- Everything the fragment arm can do. -/
theorem pushFragment_cases {f : Fragment} (hf : isFragment f = true) (s : State) :
    (breaks s.q f = true ∧ f.partIndex ≠ 1 ∧ pushFragment f s = .ok (none, [.sequence]) (s.setQ [])) ∨
    (breaks s.q f = true ∧ f.partIndex = 1 ∧ pushFragment f s = .ok (none, [.sequence]) (s.setQ [f])) ∨
    (s.q = [] ∧ f.partIndex ≠ 1 ∧ pushFragment f s = .ok (none, [.orphan]) (s.setQ [])) ∨
    (breaks s.q f = false ∧ ¬(s.q = [] ∧ f.partIndex ≠ 1) ∧ f.partIndex = f.partCount ∧
      pushFragment f s = .ok (some ((s.q ++ [f]).flatMap (·.payload)), []) (s.setQ [])) ∨
    (breaks s.q f = false ∧ ¬(s.q = [] ∧ f.partIndex ≠ 1) ∧ f.partIndex ≠ f.partCount ∧
      pushFragment f s = .ok (none, []) (s.setQ (s.q ++ [f]))) := by
  have hc := ((isFragment_iff f).1 hf).2.1
  by_cases hb : breaks s.q f = true
  · by_cases hi : f.partIndex = 1
    · exact .inr (.inl ⟨hb, hi, by simp [pushFragment, hb, hi, show 1 ≠ f.partCount by omega]⟩)
    · exact .inl ⟨hb, hi, by simp [pushFragment, hb, hi]⟩
  · by_cases he : s.q = [] ∧ f.partIndex ≠ 1
    · refine .inr (.inr (.inl ⟨he.1, he.2, ?_⟩))
      simp only [pushFragment, hb]
      rw [if_pos (by simpa using he)]
      rfl
    · by_cases hl : f.partIndex = f.partCount
      · refine .inr (.inr (.inr (.inl ⟨by simpa using hb, he, hl, ?_⟩)))
        simp only [pushFragment, hb]
        rw [if_neg (by simpa using he), if_pos hl]
        rfl
      · refine .inr (.inr (.inr (.inr ⟨by simpa using hb, he, hl, ?_⟩)))
        simp only [pushFragment, hb]
        rw [if_neg (by simpa using he), if_neg hl]
        rfl

/-! ### RSM.PUSH: a Sentence is refused for its size, or offered -/

theorem rsmPush_over {snt : Sentence} {s : State} {r : Refusal} (h : overCapacity s.cfg snt = some r) :
    rsmPush snt s = .refused r := by
  simp only [rsmPush, h]

theorem rsmPush_fits {snt : Sentence} {s : State} (h : overCapacity s.cfg snt = none) :
    rsmPush snt s = offer snt s := by
  simp only [rsmPush, h]

/-- An encapsulated Sentence fits when its line, its part count and its payload do. -/
theorem overCapacity_encapsulated (c : Config) (f : Fragment) :
    overCapacity c (.encapsulated f) = none ↔ exceeds c.lineMax f.raw.length = false ∧
      exceeds c.partsMax f.partCount = false ∧ exceeds c.fragMax f.payload.length = false := by
  simp only [overCapacity, Sentence.raw]
  by_cases h1 : exceeds c.lineMax f.raw.length = true <;>
    by_cases h2 : exceeds c.partsMax f.partCount = true <;>
    by_cases h3 : exceeds c.fragMax f.payload.length = true <;> simp [h1, h2, h3]

/-- A Sentence of another frame kind fits when its line does. -/
theorem overCapacity_other {c : Config} {snt : Sentence} (hk : snt.kind ≠ .encapsulated)
    (h : exceeds c.lineMax snt.raw.length = false) : overCapacity c snt = none := by
  cases snt with
  | encapsulated f => exact absurd rfl hk
  | delimited => simp only [overCapacity, h]; rfl
  | comment => simp only [overCapacity, h]; rfl

theorem overCapacity_unbounded {c : Config} (h : unbounded c) (snt : Sentence) : overCapacity c snt = none := by
  simp only [overCapacity, h.1, h.2.1, h.2.2, exceeds_none]
  cases snt <;> rfl

/-- A genuine fragment is no self-contained message. -/
theorem selfContained_of_isFragment {f : Fragment} (h : isFragment f = true) : selfContained f = false := by
  have := (isFragment_iff f).1 h
  rw [Bool.eq_false_iff, ne_eq, selfContained_iff]
  omega

theorem offer_selfContained {f : Fragment} (h : selfContained f = true) (s : State) :
    offer (.encapsulated f) s = .ok (some f.payload, if s.q = [] then [] else [.preempt]) (s.setQ []) := by
  simp only [offer, h, if_true]

theorem offer_fragment {f : Fragment} (h : isFragment f = true) (s : State) :
    offer (.encapsulated f) s = pushFragment f s := by
  simp only [offer, selfContained_of_isFragment h, h, if_true]
  rfl

/-- A Sentence of any other shape is a ReassemblyError (R136). -/
theorem offer_other {snt : Sentence}
    (h : ∀ f, snt = .encapsulated f → selfContained f = false ∧ isFragment f = false) (s : State) :
    offer snt s = .err (.reassembly .shape) (s.setQ []) := by
  cases snt with
  | delimited => rfl
  | comment => rfl
  | encapsulated f =>
    simp only [offer, h f rfl]
    rfl

/-- Everything RSM.PUSH can do; pushFragment_cases says the rest. -/
theorem rsmPush_cases (snt : Sentence) (s : State) :
    (∃ r, overCapacity s.cfg snt = some r ∧ rsmPush snt s = .refused r) ∨
    rsmPush snt s = .err (.reassembly .shape) (s.setQ []) ∨
    (∃ f, snt = .encapsulated f ∧ selfContained f = true ∧
      rsmPush snt s = .ok (some f.payload, if s.q = [] then [] else [.preempt]) (s.setQ [])) ∨
    (∃ f, snt = .encapsulated f ∧ isFragment f = true ∧ rsmPush snt s = pushFragment f s) := by
  cases ho : overCapacity s.cfg snt with
  | some r => exact .inl ⟨r, rfl, rsmPush_over ho⟩
  | none =>
    rw [rsmPush_fits ho]
    by_cases h : ∃ f, snt = .encapsulated f ∧ (selfContained f = true ∨ isFragment f = true)
    · obtain ⟨f, rfl, h | h⟩ := h
      · exact .inr (.inr (.inl ⟨f, rfl, h, offer_selfContained h s⟩))
      · exact .inr (.inr (.inr ⟨f, rfl, h, offer_fragment h s⟩))
    · refine .inr (.inl (offer_other (fun f e => ?_) s))
      simp only [not_exists, not_and, not_or, Bool.not_eq_true] at h
      exact h f e

/-- RSM.PUSH writes `Q` only. -/
theorem rsmPush_setQ (snt : Sentence) (s : State) : (rsmPush snt s).All fun t => ∃ q, t = s.setQ q := by
  obtain ⟨r, _, h⟩ | h | ⟨f, _, _, h⟩ | ⟨f, _, hf, h⟩ := rsmPush_cases snt s <;> rw [h]
  · trivial
  · exact ⟨_, rfl⟩
  · exact ⟨_, rfl⟩
  · obtain ⟨_, _, h⟩ | ⟨_, _, h⟩ | ⟨_, _, h⟩ | ⟨_, _, _, h⟩ | ⟨_, _, _, h⟩ := pushFragment_cases hf s <;>
      rw [h] <;> exact ⟨_, rfl⟩

theorem rsmPush_runs (snt : Sentence) (s : State) (hu : unbounded s.cfg) : (rsmPush snt s).Runs := by
  obtain ⟨r, ho, _⟩ | h | ⟨f, _, _, h⟩ | ⟨f, _, hf, h⟩ := rsmPush_cases snt s
  · rw [overCapacity_unbounded hu] at ho
    cases ho
  · rw [h]
    trivial
  · rw [h]
    trivial
  · obtain ⟨_, _, e⟩ | ⟨_, _, e⟩ | ⟨_, _, e⟩ | ⟨_, _, _, e⟩ | ⟨_, _, _, e⟩ := pushFragment_cases hf s <;>
      rw [h, e] <;> trivial

end Machine
end Sys2Proof
end

