-- ==== Sys2Proof/Laws/Frames.lean ====
section
/-! SUPPORT. What each operation may write, said once per operation, and that no operation is refused when the
capacities are unbounded. -/

namespace Sys2Proof.Machine

/-! ### Frames, from the smallest to the pipeline's -/

/-- Only `CUR` and `RES` may differ. -/
def Reads (s t : State) : Prop := ∃ c r, t = { s with cur := c, res := r }
/-- Only `CUR`, `RES` and `TYPE` may differ. -/
def Dispatches (s t : State) : Prop := ∃ c r y, t = { s with cur := c, res := r, typeCode := y }
/-- Only the reader's state, `RES` and `TYPE` may differ. -/
def Finishes (s t : State) : Prop :=
  ∃ v b c r y, t = { s with bv := v, buf := b, cur := c, res := r, typeCode := y }
/-- Only `Q`, the reader's state, `RES` and `TYPE` may differ. -/
def Processes (s t : State) : Prop :=
  ∃ v b c r y q, t = { s with bv := v, buf := b, cur := c, res := r, typeCode := y, q := q }
/-- Only `CARRY`, `Q`, the reader's state, `RES` and `TYPE` may differ. -/
def Feeds (s t : State) : Prop :=
  ∃ v b c r y q k, t = { s with bv := v, buf := b, cur := c, res := r, typeCode := y, q := q, carry := k }

theorem Reads.refl (s : State) : Reads s s := ⟨s.cur, s.res, rfl⟩
theorem Reads.trans {s t u : State} (h : Reads s t) (h' : Reads t u) : Reads s u := by
  obtain ⟨_, _, rfl⟩ := h
  obtain ⟨c, r, rfl⟩ := h'
  exact ⟨c, r, rfl⟩
theorem Reads.dispatches {s t : State} (h : Reads s t) : Dispatches s t := by
  obtain ⟨c, r, rfl⟩ := h
  exact ⟨c, r, s.typeCode, rfl⟩
theorem Dispatches.refl (s : State) : Dispatches s s := (Reads.refl s).dispatches
theorem Dispatches.trans {s t u : State} (h : Dispatches s t) (h' : Dispatches t u) : Dispatches s u := by
  obtain ⟨_, _, _, rfl⟩ := h
  obtain ⟨c, r, y, rfl⟩ := h'
  exact ⟨c, r, y, rfl⟩
theorem Dispatches.finishes {s t : State} (h : Dispatches s t) : Finishes s t := by
  obtain ⟨c, r, y, rfl⟩ := h
  exact ⟨s.bv, s.buf, c, r, y, rfl⟩
theorem Finishes.refl (s : State) : Finishes s s := (Dispatches.refl s).finishes
theorem Finishes.trans {s t u : State} (h : Finishes s t) (h' : Finishes t u) : Finishes s u := by
  obtain ⟨_, _, _, _, _, rfl⟩ := h
  obtain ⟨v, b, c, r, y, rfl⟩ := h'
  exact ⟨v, b, c, r, y, rfl⟩
theorem Finishes.processes {s t : State} (h : Finishes s t) : Processes s t := by
  obtain ⟨v, b, c, r, y, rfl⟩ := h
  exact ⟨v, b, c, r, y, s.q, rfl⟩
theorem Processes.refl (s : State) : Processes s s := (Finishes.refl s).processes
theorem Processes.setQ (s : State) (q : List Fragment) : Processes s (s.setQ q) :=
  ⟨s.bv, s.buf, s.cur, s.res, s.typeCode, q, rfl⟩
theorem Processes.trans {s t u : State} (h : Processes s t) (h' : Processes t u) : Processes s u := by
  obtain ⟨_, _, _, _, _, _, rfl⟩ := h
  obtain ⟨v, b, c, r, y, q, rfl⟩ := h'
  exact ⟨v, b, c, r, y, q, rfl⟩
theorem Processes.feeds {s t : State} (h : Processes s t) : Feeds s t := by
  obtain ⟨v, b, c, r, y, q, rfl⟩ := h
  exact ⟨v, b, c, r, y, q, s.carry, rfl⟩
theorem Feeds.refl (s : State) : Feeds s s := (Processes.refl s).feeds
theorem Feeds.setCarry (s : State) (k : Text) : Feeds s (s.setCarry k) :=
  ⟨s.bv, s.buf, s.cur, s.res, s.typeCode, s.q, k, rfl⟩
theorem Feeds.trans {s t u : State} (h : Feeds s t) (h' : Feeds t u) : Feeds s u := by
  obtain ⟨_, _, _, _, _, _, _, rfl⟩ := h
  obtain ⟨v, b, c, r, y, q, k, rfl⟩ := h'
  exact ⟨v, b, c, r, y, q, k, rfl⟩

/-! ### Each operation within its frame -/

theorem readLatch_reads {α : Type} (n : Nat) (f : List Bool → α) (g : List Bool → BitVec 32) (s : State) :
    (readLatch n f g s).All (Reads s) :=
  readLatch_all (Reads.refl s) fun _ _ v => ⟨s.cur + n, v, rfl⟩

theorem abrRdu_reads (n : Nat) (s : State) : (abrRdu n s).All (Reads s) := readLatch_reads ..
theorem abrRdi_reads (n : Nat) (s : State) : (abrRdi n s).All (Reads s) := readLatch_reads ..
theorem abrRdb_reads (s : State) : (abrRdb s).All (Reads s) := readLatch_reads ..
theorem abrRdr_reads (n : Nat) (s : State) : (abrRdr n s).All (Reads s) := readLatch_reads ..

theorem abrAex_all {P : State → Prop} {s : State} (h : P s) : (abrAex s).All P := by
  unfold abrAex
  split
  · exact h
  · split <;> exact h

theorem readField_reads (f : FieldName) (s : State) : (readField f s).All (Reads s) := by
  cases f <;> first
    | exact (abrRdu_reads ..).map
    | exact (abrRdi_reads ..).map
    | exact (abrRdb_reads ..).map
    | exact (abrRdr_reads ..).map

theorem readFields_reads (fs : List FieldName) (s : State) : (readFields fs s).All (Reads s) := by
  induction fs generalizing s with
  | nil => exact Reads.refl s
  | cons f fs ih =>
    refine (readField_reads f s).bind (fun v s1 h1 => ?_) fun _ h => h
    exact ((ih s1).imp fun _ h => h1.trans h).bind (fun _ _ h => h) fun _ h => h

theorem fdcPosa_reads (s : State) : (fdcPosa s).All (Reads s) := by
  unfold fdcPosa
  split
  · exact Reads.refl s
  · split
    · exact Reads.refl s
    · exact (readFields_reads classA s).bind
        (fun _ s1 h1 => (abrAex_all h1).bind (fun _ _ h => h) fun _ h => h) fun _ h => h

theorem dspDisp_dispatches (s : State) : (dspDisp s).All (Dispatches s) := by
  unfold dspDisp
  split
  · exact Dispatches.refl s
  · split
    · exact Dispatches.refl s
    · refine ((abrRdu_reads _ s).imp fun _ h => h.dispatches).bind (fun t s1 h1 => ?_) fun _ h => h
      have h2 : Dispatches s (s1.setType (BitVec.ofNat 6 t)) :=
        h1.trans ⟨s1.cur, s1.res, BitVec.ofNat 6 t, rfl⟩
      dsimp only
      split
      · exact ((fdcPosa_reads _).imp fun _ h => h2.trans h.dispatches).map
      · exact h2
      · exact h2

theorem abrLoad_finishes (text : Text) (s : State) : (abrLoad text s).All (Finishes s) := by
  unfold abrLoad
  split
  · trivial
  · split
    · exact Finishes.refl s
    · exact ⟨_, _, _, s.res, s.typeCode, rfl⟩

theorem finish_finishes (text line : Text) (s : State) : (finish text line s).All (Finishes s) := by
  have h := abrLoad_finishes text s
  cases ha : abrLoad text s with
  | refused r => simp only [finish, ha]; trivial
  | err e s1 => rw [ha] at h; simp only [finish, ha]; exact h
  | ok v s1 =>
    rw [ha] at h
    have hd := dspDisp_dispatches s1
    cases hb : dspDisp s1 with
    | refused r => simp only [finish, ha, hb]; trivial
    | err e s2 => rw [hb] at hd; simp only [finish, ha, hb]; exact Finishes.trans h hd.finishes
    | ok m s2 => rw [hb] at hd; simp only [finish, ha, hb]; exact Finishes.trans h hd.finishes

theorem process_processes (line : Text) (s : State) : (process line s).All (Processes s) := by
  cases hx : parse s.cfg line with
  | refused r => simp only [process, hx]; trivial
  | error c => simp only [process, hx]; exact Processes.refl s
  | sentence snt =>
    cases snt with
    | delimited raw => simp only [process, hx]; exact Processes.refl s
    | comment raw => simp only [process, hx]; exact Processes.refl s
    | encapsulated f =>
      have h := rsmPush_setQ (.encapsulated f) s
      cases hr : rsmPush (.encapsulated f) s with
      | refused w => simp only [process, hx, hr, afterPush]; trivial
      | err e s1 =>
        rw [hr] at h
        obtain ⟨q, rfl⟩ := h
        simp only [process, hx, hr, afterPush]
        exact Processes.setQ s q
      | ok p s1 =>
        rw [hr] at h
        obtain ⟨q, rfl⟩ := h
        obtain ⟨o, ev⟩ := p
        cases o with
        | none => simp only [process, hx, hr, afterPush]; exact Processes.setQ s q
        | some text =>
          simp only [process, hx, hr, afterPush]
          exact ((finish_finishes text line _).imp fun _ h => (Processes.setQ s q).trans h.processes).map

theorem processAll_processes (ls : List Text) (s : State) : (processAll ls s).All (Processes s) := by
  induction ls generalizing s with
  | nil => exact Processes.refl s
  | cons l ls ih =>
    refine (process_processes l s).bind (fun v s1 h1 => ?_) fun _ h => h
    exact ((ih s1).imp fun _ h => h1.trans h).bind (fun _ _ h => h) fun _ h => h

theorem topFeed_feeds (chunk : Text) (s : State) : (topFeed chunk s).All (Feeds s) := by
  unfold topFeed
  split
  · exact Feeds.refl s
  · simp only [frmPush]
    split
    · trivial
    · exact (processAll_processes _ _).imp fun _ h => (Feeds.setCarry s _).trans h.feeds

/-- PAR.PARSE changes no state. -/
theorem parParse_same (line : Text) (s : State) : (parParse line s).All fun t => t = s := by
  cases h : parse s.cfg line <;> simp only [parParse, h] <;> trivial

/-- A line never makes PROCESS fail: what goes wrong is an item (R206, R207). -/
theorem process_never_errs (line : Text) (s t : State) (e : Error) : process line s ≠ .err e t := by
  have hf : ∀ text u, finish text line u ≠ .err e t := by
    intro text u
    unfold finish
    cases abrLoad text u with
    | refused r => simp
    | err e s1 => simp
    | ok v s1 => cases hd : dspDisp s1 <;> simp [hd]
  unfold process
  cases parse s.cfg line with
  | refused r => simp
  | error c => simp
  | sentence snt =>
    cases snt with
    | delimited raw => simp
    | comment raw => simp
    | encapsulated f =>
      simp only [afterPush]
      cases rsmPush (.encapsulated f) s with
      | refused w => simp
      | err e s1 => simp
      | ok p s1 =>
        obtain ⟨o, ev⟩ := p
        cases o with
        | none => simp
        | some text =>
          have := hf text s1
          cases hx : finish text line s1 <;> simp_all

theorem processAll_never_errs (ls : List Text) (s t : State) (e : Error) : processAll ls s ≠ .err e t := by
  induction ls generalizing s with
  | nil => simp [processAll]
  | cons l ls ih =>
    simp only [processAll]
    have hp := process_never_errs l s
    cases hx : process l s with
    | refused w => simp
    | err e s1 => exact absurd hx (hp s1 e)
    | ok v s1 =>
      have := ih s1
      cases hy : processAll ls s1 <;> simp_all

/-! ### No refusal when the capacities are unbounded -/

theorem abrLoad_runs (text : Text) (s : State) (h : unbounded s.cfg) : (abrLoad text s).Runs := by
  simp only [abrLoad, loadMax, h.2.1, exceeds]
  cases dearmor s.cfg.bitOrder text <;> trivial

theorem parse_runs (c : Config) (line : Text) (h : unbounded c) (r : Refusal) : parse c line ≠ .refused r := by
  have hf : ∀ f0 f1 f2 f3 f4 f5 f6, parseFields c line f0 f1 f2 f3 f4 f5 f6 ≠ .refused r := by
    intro f0 f1 f2 f3 f4 f5 f6
    simp only [parseFields, h.2.1, h.2.2, exceeds_none]
    repeat' split
    all_goals simp_all
  simp only [parse, h.1, exceeds_none]
  repeat' split
  all_goals first | exact hf .. | simp_all

theorem readField_runs (f : FieldName) (s : State) : (readField f s).Runs := by
  cases f <;> exact (readLatch_runs ..).map

theorem readFields_runs (fs : List FieldName) (s : State) : (readFields fs s).Runs := by
  induction fs generalizing s with
  | nil => trivial
  | cons f fs ih =>
    exact (readField_runs f s).bind fun _ s1 _ => (ih s1).bind fun _ _ _ => trivial

theorem abrAex_runs (s : State) : (abrAex s).Runs := by
  unfold abrAex
  repeat' split
  all_goals trivial

theorem fdcPosa_runs (s : State) : (fdcPosa s).Runs := by
  unfold fdcPosa
  split
  · trivial
  · split
    · trivial
    · exact (readFields_runs classA s).bind fun _ s1 _ => (abrAex_runs s1).bind fun _ _ _ => trivial

theorem dspDisp_runs (s : State) : (dspDisp s).Runs := by
  unfold dspDisp
  split
  · trivial
  · split
    · trivial
    · refine Ret.Runs.bind (readLatch_runs ..) fun t s1 _ => ?_
      dsimp only
      split
      · exact (fdcPosa_runs _).map
      · trivial
      · trivial

theorem finish_runs (text line : Text) (s : State) (h : unbounded s.cfg) : (finish text line s).Runs := by
  have ha := abrLoad_runs text s h
  cases hx : abrLoad text s with
  | refused r => rw [hx] at ha; exact ha.elim
  | err e s1 => simp only [finish, hx]; trivial
  | ok v s1 =>
    have hd := dspDisp_runs s1
    cases hy : dspDisp s1 with
    | refused r => rw [hy] at hd; exact hd.elim
    | err e s2 => simp only [finish, hx, hy]; trivial
    | ok m s2 => simp only [finish, hx, hy]; trivial

theorem process_runs (line : Text) (s : State) (h : unbounded s.cfg) : (process line s).Runs := by
  have hp := parse_runs s.cfg line h
  unfold process
  cases hx : parse s.cfg line with
  | refused r => exact absurd hx (hp r)
  | error c => trivial
  | sentence snt =>
    cases snt with
    | delimited raw => trivial
    | comment raw => trivial
    | encapsulated f =>
      have hr := rsmPush_runs (.encapsulated f) s h
      have hq := rsmPush_setQ (.encapsulated f) s
      simp only [afterPush]
      cases hy : rsmPush (.encapsulated f) s with
      | refused w => rw [hy] at hr; exact hr.elim
      | err e s1 => trivial
      | ok p s1 =>
        rw [hy] at hq
        obtain ⟨q, rfl⟩ := hq
        obtain ⟨o, ev⟩ := p
        cases o with
        | none => trivial
        | some text => exact (finish_runs text line (s.setQ q) h).map

theorem processAll_runs (ls : List Text) (s : State) (h : unbounded s.cfg) : (processAll ls s).Runs := by
  induction ls generalizing s with
  | nil => trivial
  | cons l ls ih =>
    have hp := process_processes l s
    refine (process_runs l s h).bind fun v s1 h1 => ?_
    rw [h1] at hp
    obtain ⟨_, _, _, _, _, _, rfl⟩ := hp
    exact Ret.Runs.bind (ih _ h) fun _ _ _ => trivial

theorem frmPush_unbounded (chunk : Text) (s : State) (h : unbounded s.cfg) :
    frmPush chunk s = .ok (linesOf (split LF (s.carry ++ chunk)).dropLast)
      (s.setCarry ((split LF (s.carry ++ chunk)).getLastD [])) := by
  simp [frmPush, h.1]

theorem topFeed_runs (chunk : Text) (s : State) (h : unbounded s.cfg) : (topFeed chunk s).Runs := by
  unfold topFeed
  split
  · trivial
  · rw [frmPush_unbounded chunk s h]
    exact processAll_runs _ _ h

end Sys2Proof.Machine
end

