-- ==== Sys2Proof/Laws/Operands.lean ====
section
/-! SUPPORT. Lemmas about bit sequences, the armor alphabet and texts. -/

namespace Sys2Proof.Machine

/-! ### Bit sequences -/

theorem uintMsb_lt (b : List Bool) : uintMsb b < 2 ^ b.length := by
  induction b with
  | nil => simp [uintMsb]
  | cons x xs ih =>
    simp only [uintMsb, List.length_cons, Nat.pow_succ]
    have : x.toNat ≤ 1 := Bool.toNat_le x
    nlinarith [Nat.zero_le (2 ^ xs.length)]

theorem uintLsb_lt (b : List Bool) : uintLsb b < 2 ^ b.length := by
  induction b with
  | nil => simp [uintLsb]
  | cons x xs ih =>
    simp only [uintLsb, List.length_cons, Nat.pow_succ]
    have : x.toNat ≤ 1 := Bool.toNat_le x
    omega

theorem uint_lt (o : BitOrder) (b : List Bool) : uint o b < 2 ^ b.length := by
  cases o with
  | msbFirst => exact uintMsb_lt b
  | lsbFirst => exact uintLsb_lt b

theorem uintMsb_append (a b : List Bool) : uintMsb (a ++ b) = uintMsb a * 2 ^ b.length + uintMsb b := by
  induction a with
  | nil => simp [uintMsb]
  | cons x xs ih =>
    simp only [List.cons_append, uintMsb, ih, List.length_append, Nat.pow_add]
    ring

/-- The two's-complement reading lies in its range (R13). -/
theorem sext_range {n u : Nat} (hn : 1 ≤ n) (hu : u < 2 ^ n) :
    -(2 ^ (n - 1) : Int) ≤ sext n u ∧ sext n u < 2 ^ (n - 1) := by
  obtain ⟨m, rfl⟩ : ∃ m, n = m + 1 := ⟨n - 1, by omega⟩
  simp only [sext, Nat.add_sub_cancel, Nat.pow_succ] at *
  have h2 : ((2 : Int) ^ (m + 1)) = 2 ^ m * 2 := by ring
  split
  · rename_i h
    have : (2 ^ m : Int) ≤ u := by exact_mod_cast h
    have hu' : (u : Int) < 2 ^ m * 2 := by exact_mod_cast hu
    rw [h2]
    constructor <;> linarith
  · rename_i h
    have : (u : Int) < 2 ^ m := by exact_mod_cast (Nat.lt_of_not_le h)
    have : (0 : Int) ≤ 2 ^ m := by positivity
    constructor <;> linarith

/-! ### The armor alphabet -/

theorem armor_lt {c : Byte} {v : Nat} (h : armor c = some v) : v < 64 := by
  unfold armor at h
  split at h
  · simp only [Option.some.injEq] at h; omega
  · split at h
    · simp only [Option.some.injEq] at h; omega
    · simp at h

@[simp] theorem charBits_length (o : BitOrder) (v : Nat) : (charBits o v).length = 6 := by
  cases o <;> rfl

/-- A six-bit read of a whole character gives its value, under either bit order (R41). -/
theorem uint_charBits (o : BitOrder) {v : Nat} (h : v < 64) : uint o (charBits o v) = v := by
  cases o <;> revert h <;> revert v <;> decide

/-- A text is loaded exactly when all of its bytes are legal, and then each gives its six bits. -/
theorem dearmor_eq (o : BitOrder) (t : Text) :
    dearmor o t =
      if ∀ c ∈ t, (armor c).isSome then some (t.flatMap fun c => charBits o ((armor c).getD 0)) else none := by
  induction t with
  | nil => simp [dearmor]
  | cons c cs ih =>
    simp only [dearmor, ih]
    cases hc : armor c with
    | none => simp [hc]
    | some v =>
      simp only [List.forall_mem_cons, hc, Option.isSome_some, true_and, List.flatMap_cons, Option.getD_some]
      split <;> rename_i h
      · split at h
        · simp_all
        · simp_all
      · split at h <;> simp_all

theorem dearmor_length {o : BitOrder} {t : Text} {bits : List Bool} (h : dearmor o t = some bits) :
    bits.length = Config.charBits * t.length := by
  induction t generalizing bits with
  | nil => simp_all [dearmor]
  | cons c cs ih =>
    simp only [dearmor] at h
    split at h
    · rename_i v b _ hb
      simp only [Option.some.injEq] at h
      subst h
      simp only [List.length_append, charBits_length, ih hb, List.length_cons, Config.charBits]
      omega
    · simp at h

/-! ### Splitting -/

theorem split_nil (sep : Byte) : split sep [] = [[]] := rfl

theorem split_ne_nil (sep : Byte) (t : Text) : split sep t ≠ [] := by simp [split]

theorem split_cons_sep (sep : Byte) (t : Text) : split sep (sep :: t) = [] :: split sep t := by
  simp [split, splitTokens]

theorem splitTokens_free {sep : Byte} {a : Text} (h : sep ∉ a) (t : Text) :
    splitTokens sep (a ++ t) = (a ++ (splitTokens sep t).1, (splitTokens sep t).2) := by
  induction a with
  | nil => rfl
  | cons c cs ih =>
    simp only [List.mem_cons, not_or] at h
    simp [splitTokens, ih h.2, Ne.symm h.1]

/-- A text without the separator is one token. -/
theorem split_free {sep : Byte} {a : Text} (h : sep ∉ a) : split sep a = [a] := by
  have := splitTokens_free h []
  simp only [List.append_nil] at this
  simp [split, this, splitTokens]

/-- The token before a separator, then the tokens of the rest. -/
theorem split_token {sep : Byte} {a : Text} (h : sep ∉ a) (t : Text) :
    split sep (a ++ sep :: t) = a :: split sep t := by
  simp [split, splitTokens_free h, splitTokens]

/-- Splitting a concatenation: the last token of the first part runs into the first of the second. -/
theorem split_append (sep : Byte) (a b : Text) :
    split sep (a ++ b) = (split sep a).dropLast ++ split sep ((split sep a).getLastD [] ++ b) := by
  induction a with
  | nil => simp [split_nil]
  | cons c cs ih =>
    by_cases hc : c = sep
    · subst hc
      rw [List.cons_append, split_cons_sep, split_cons_sep, ih]
      cases hs : split c cs with
      | nil => exact absurd hs (split_ne_nil _ _)
      | cons x xs => simp
    · cases hs : (splitTokens sep cs).2 with
      | nil =>
        have h0 : split sep (c :: cs) = [c :: (splitTokens sep cs).1] := by simp [split, splitTokens, hc, hs]
        have hcs : split sep cs = [(splitTokens sep cs).1] := by simp [split, hs]
        rw [hcs] at ih
        simp only [List.dropLast_singleton, List.nil_append, List.getLastD_cons] at ih
        rw [h0]
        simp only [split, splitTokens, hc, if_false, List.cons.injEq, List.getLastD_nil, List.dropLast_singleton,
          List.nil_append, List.getLastD_cons, List.cons_append] at ih ⊢
        simpa using ih
      | cons x xs =>
        have h0 : split sep (c :: cs) = (c :: (splitTokens sep cs).1) :: x :: xs := by
          simp [split, splitTokens, hc, hs]
        have hcs : split sep cs = (splitTokens sep cs).1 :: x :: xs := by simp [split, hs]
        rw [hcs] at ih
        rw [h0]
        simp only [List.dropLast_cons_cons, List.cons_append, List.getLastD_cons] at ih ⊢
        simp only [split, splitTokens, hc, if_false, List.cons.injEq] at ih ⊢
        exact ⟨by simp [ih.1], ih.2⟩

/-- Every token is free of the separator. -/
theorem split_tokens_free {sep : Byte} {t x : Text} (h : x ∈ split sep t) : sep ∉ x := by
  induction t generalizing x with
  | nil => simp [split_nil] at h; simp [h]
  | cons c cs ih =>
    simp only [split, splitTokens] at h ih
    by_cases hc : c = sep
    · simp only [hc, if_true, List.mem_cons] at h
      obtain rfl | h := h
      · simp
      · exact ih (by simpa using h)
    · simp only [hc, if_false, List.mem_cons] at h
      obtain rfl | h := h
      · have := ih (x := (splitTokens sep cs).1) (by simp)
        simp [this, Ne.symm hc]
      · exact ih (by simp [h])

theorem getLastD_split_free (sep : Byte) (t : Text) : sep ∉ (split sep t).getLastD [] := by
  have : (split sep t).getLastD [] ∈ split sep t := by
    rw [List.getLastD_eq_getLast?, List.getLast?_eq_some_getLast (split_ne_nil sep t)]
    simp
  exact split_tokens_free this

/-! ### Exclusive-or of a span -/

theorem xorAll_foldl (t : Text) (a : Byte) : t.foldl (· ^^^ ·) a = a ^^^ xorAll t := by
  induction t generalizing a with
  | nil => simp [xorAll]
  | cons c cs ih =>
    simp only [xorAll, List.foldl_cons] at ih ⊢
    rw [ih, ih (0 ^^^ c)]
    simp [BitVec.xor_assoc]

theorem xorAll_append (a b : Text) : xorAll (a ++ b) = xorAll a ^^^ xorAll b := by
  rw [xorAll, List.foldl_append, xorAll_foldl]
  rfl

@[simp] theorem xorAll_cons (c : Byte) (t : Text) : xorAll (c :: t) = c ^^^ xorAll t := by
  rw [xorAll, List.foldl_cons, xorAll_foldl]
  simp

@[simp] theorem xorAll_nil : xorAll [] = 0 := rfl

end Sys2Proof.Machine
end

