-- ==== Sys2Proof/Laws/Kept.lean ====
section
/-! SUPPORT. An invariant that the seven ways an operation writes the state keep is kept by every operation. -/

namespace Sys2Proof.Machine

/-- `P` survives each way an operation writes the state, the port apart. -/
structure Kept (P : State → Prop) : Prop where
  read   : ∀ (s : State) (n : Nat) (v : BitVec 32), P s → n ≤ s.len - s.cur → P ((s.advance n).setRes v)
  load   : ∀ (s : State) (t : Text) (bits : List Bool), P s → dearmor s.cfg.bitOrder t = some bits →
             P (s.loadBuf bits)
  type   : ∀ (s : State) (c : BitVec 6), P s → P (s.setType c)
  push   : ∀ (s : State) (snt : Sentence), P s → (rsmPush snt s).All P
  carry  : ∀ (s : State) (k : Text), P s → LF ∉ k → P (s.setCarry k)
  source : ∀ (s : State) (v : Src), P s → P (s.setSrc v)
  port   : ∀ (s : State) (r : Result) (ev : List BreakCause), P s → P (s.respond r ev)

variable {P : State → Prop}

theorem kept_readLatch (h : Kept P) {α : Type} (n : Nat) (f : List Bool → α) (g : List Bool → BitVec 32)
    {s : State} (hs : P s) : (readLatch n f g s).All P :=
  readLatch_all hs fun _ hl v => h.read s n v hs hl

theorem kept_abrLoad (h : Kept P) (t : Text) {s : State} (hs : P s) : (abrLoad t s).All P := by
  unfold abrLoad
  split
  · trivial
  · split
    · exact hs
    · exact h.load s t _ hs (by assumption)

theorem kept_readField (h : Kept P) (f : FieldName) {s : State} (hs : P s) : (readField f s).All P := by
  cases f <;> exact (kept_readLatch h _ _ _ hs).map

theorem kept_readFields (h : Kept P) (fs : List FieldName) {s : State} (hs : P s) :
    (readFields fs s).All P := by
  induction fs generalizing s with
  | nil => exact hs
  | cons f fs ih =>
    exact (kept_readField h f hs).bind (fun _ _ h1 => (ih h1).bind (fun _ _ h => h) fun _ h => h) fun _ h => h

theorem kept_fdcPosa (h : Kept P) {s : State} (hs : P s) : (fdcPosa s).All P := by
  unfold fdcPosa
  split
  · exact hs
  · split
    · exact hs
    · exact (kept_readFields h classA hs).bind
        (fun _ _ h1 => (abrAex_all h1).bind (fun _ _ h => h) fun _ h => h) fun _ h => h

theorem kept_dspDisp (h : Kept P) {s : State} (hs : P s) : (dspDisp s).All P := by
  unfold dspDisp
  split
  · exact hs
  · split
    · exact hs
    · refine (kept_readLatch h _ _ _ hs).bind (fun t s1 h1 => ?_) fun _ h => h
      have h2 := h.type s1 (BitVec.ofNat 6 t) h1
      dsimp only
      split
      · exact (kept_fdcPosa h h2).map
      · exact h2
      · exact h2

theorem kept_finish (h : Kept P) (text line : Text) {s : State} (hs : P s) : (finish text line s).All P := by
  have ha := kept_abrLoad h text hs
  cases hx : abrLoad text s with
  | refused r => simp only [finish, hx]; trivial
  | err e s1 => rw [hx] at ha; simp only [finish, hx]; exact ha
  | ok v s1 =>
    rw [hx] at ha
    have hd := kept_dspDisp h (s := s1) ha
    cases hy : dspDisp s1 with
    | refused r => simp only [finish, hx, hy]; trivial
    | err e s2 => rw [hy] at hd; simp only [finish, hx, hy]; exact hd
    | ok m s2 => rw [hy] at hd; simp only [finish, hx, hy]; exact hd

theorem kept_process (h : Kept P) (line : Text) {s : State} (hs : P s) : (process line s).All P := by
  unfold process
  split
  · trivial
  · exact hs
  · exact hs
  · exact hs
  · rename_i f _
    have hr := h.push s (.encapsulated f) hs
    unfold afterPush
    split
    · trivial
    · rename_i hx
      rw [hx] at hr
      exact hr
    · rename_i hx
      rw [hx] at hr
      split
      · exact hr
      · exact (kept_finish h _ _ hr).map

theorem kept_processAll (h : Kept P) (ls : List Text) {s : State} (hs : P s) : (processAll ls s).All P := by
  induction ls generalizing s with
  | nil => exact hs
  | cons l ls ih =>
    exact (kept_process h l hs).bind (fun _ _ h1 => (ih h1).bind (fun _ _ h => h) fun _ h => h) fun _ h => h

theorem kept_frmPush (h : Kept P) (chunk : Text) {s : State} (hs : P s) : (frmPush chunk s).All P := by
  simp only [frmPush]
  split
  · trivial
  · exact h.carry s _ hs (getLastD_split_free _ _)

theorem kept_topFeed (h : Kept P) (chunk : Text) {s : State} (hs : P s) : (topFeed chunk s).All P := by
  unfold topFeed
  split
  · exact hs
  · exact (kept_frmPush h chunk hs).bind (fun _ _ h1 => kept_processAll h _ h1) fun _ h => h

theorem kept_topEos (h : Kept P) {s : State} (hs : P s) : (topEos s).All P := by
  unfold topEos
  split
  · exact hs
  · exact h.source _ _ (h.carry s [] hs (by simp))

theorem kept_topSrcerr (h : Kept P) {s : State} (hs : P s) : (topSrcerr s).All P := by
  unfold topSrcerr
  split
  · exact hs
  · exact h.source s _ hs

/-- Every operation keeps `P`. -/
theorem exec_kept (h : Kept P) (i : Instr) {s t : State} (hs : P s) (ht : exec i s = .next t) : P t := by
  cases i <;> simp only [exec] at ht <;> refine Ret.All.outcome ?_ h.port ht
  · exact kept_abrLoad h _ hs
  · exact kept_readLatch h _ _ _ hs
  · exact kept_readLatch h _ _ _ hs
  · exact kept_readLatch h _ _ _ hs
  · exact kept_readLatch h _ _ _ hs
  · exact abrAex_all hs
  · exact (parParse_same _ s).imp fun _ ht => ht ▸ hs
  · exact h.push s _ hs
  · exact kept_dspDisp h hs
  · exact kept_fdcPosa h hs
  · exact kept_frmPush h _ hs
  · exact h.carry s [] hs (by simp)
  · exact kept_topFeed h _ hs
  · exact kept_topEos h hs
  · exact kept_topSrcerr h hs

end Sys2Proof.Machine
end

