-- ==== Sys2Proof/Laws/Memory.lean ====
section
/-! SUPPORT. The bit buffer: its canonical form is kept by every operation, and reads and loads meet. -/

namespace Sys2Proof.Machine

/-- The buffer ABR.LOAD builds has the canonical form. -/
theorem dearmor_wf {o : BitOrder} {t : Text} {bits : List Bool} (h : dearmor o t = some bits) :
    Memory.wf bits = true := by
  simp [Memory.wf, dearmor_length h]

/-- Whatever the free values, the buffer a reset leaves has the canonical form. -/
theorem freeBuf_wf (k : Nat) : Memory.wf (freeBuf k) = true := by
  have : (freeBuf k).length = (Config.freeChars k).length * 6 := by
    unfold freeBuf
    induction Config.freeChars k with
    | nil => rfl
    | cons a l _ => simp [List.flatMap_cons]; omega
  simp [Memory.wf, this, Config.charBits]

/-- Every way an operation writes the state keeps the buffer's canonical form. -/
theorem memory_kept : Kept fun s => Memory.wf s.buf = true where
  read _ _ _ hs _ := hs
  load _ _ _ _ h := dearmor_wf h
  type _ _ hs := hs
  push s snt hs := (rsmPush_setQ snt s).imp fun _ ⟨_, ht⟩ => by rw [ht]; exact hs
  carry _ _ hs _ := hs
  source _ _ hs := hs
  port _ _ _ hs := hs

/-- Every operation keeps the buffer's canonical form. -/
theorem exec_memory_wf (i : Instr) {s t : State} (hs : Memory.wf s.buf = true) (ht : exec i s = .next t) :
    Memory.wf t.buf = true :=
  exec_kept memory_kept i hs ht

theorem reset_memory_wf : Memory.wf State.reset.buf = true := freeBuf_wf 0

/-- Reading the whole buffer just loaded gives the bits loaded. -/
theorem memRead_loadBuf (bits : List Bool) (s : State) : memRead 0 bits.length (s.loadBuf bits) = bits := by
  simp [memRead]

/-- A read is two reads end to end. -/
theorem memRead_add (a m n : Nat) (s : State) :
    memRead a (m + n) s = memRead a m s ++ memRead (a + m) n s := by
  simp only [memRead]
  rw [List.take_add, List.drop_drop]

end Sys2Proof.Machine
end

