-- ==== Sys2Proof/Laws/Parse.lean ====
section
/-! SUPPORT. The checksum field and the end of a line, and what a Sentence that PAR.PARSE returns tells of its
line (spec/41_sentence_parser.md R113 to R123). -/

namespace Sys2Proof.Machine

/-- A hex digit is neither the field delimiter nor the checksum delimiter. -/
theorem hexVal_ne {hc : HexCase} {c : Byte} {v : Nat} (h : hexVal hc c = some v) : c ≠ comma ∧ c ≠ asterisk := by
  constructor <;> rintro rfl <;> cases hc <;> revert h <;> simp [hexVal, comma, asterisk]

theorem lastIndexOf_append (b : Byte) (a t : Text) :
    lastIndexOf b (a ++ t) =
      match lastIndexOf b t with
      | some i => some (a.length + i)
      | none => lastIndexOf b a := by
  induction a with
  | nil => cases h : lastIndexOf b t <;> simp [h, lastIndexOf]
  | cons c a ih =>
    simp only [List.cons_append, lastIndexOf, ih]
    cases h : lastIndexOf b t with
    | none => simp
    | some i => simp; omega

theorem lastIndexOf_some {b : Byte} {t : Text} {k : Nat} (h : lastIndexOf b t = some k) : t[k]? = some b := by
  induction t generalizing k with
  | nil => cases h
  | cons c t ih =>
    simp only [lastIndexOf] at h
    split at h
    · rename_i i hi
      cases h
      simpa using ih hi
    · split at h
      · cases h
        simp [*]
      · cases h

/-- A field that ends with `'*'` and two hex digits states their value. -/
theorem statedChecksum_ok {hc : HexCase} (pad : Text) {h l : Byte} {hv lv : Nat} (h1 : hexVal hc h = some hv)
    (h2 : hexVal hc l = some lv) :
    statedChecksum hc (pad ++ [asterisk, h, l]) = some (BitVec.ofNat 8 (16 * hv + lv)) := by
  have : lastIndexOf asterisk (pad ++ [asterisk, h, l]) = some pad.length := by
    rw [lastIndexOf_append]
    have : lastIndexOf asterisk [asterisk, h, l] = some 0 := by
      simp [lastIndexOf, (hexVal_ne h1).2, (hexVal_ne h2).2]
    rw [this]
    simp
  unfold statedChecksum
  rw [this]
  simp [h1, h2]

/-- A field that states a checksum ends with `'*'` and two hex digits. -/
theorem statedChecksum_some {hc : HexCase} {f6 : Text} {ck : Byte} (h : statedChecksum hc f6 = some ck) :
    ∃ pad a b hv lv, f6 = pad ++ [asterisk, a, b] ∧ hexVal hc a = some hv ∧ hexVal hc b = some lv ∧
      ck = BitVec.ofNat 8 (16 * hv + lv) := by
  unfold statedChecksum at h
  split at h
  · cases h
  · rename_i k hk
    have hk' := lastIndexOf_some hk
    have hlt := (List.getElem?_eq_some_iff.1 hk').1
    split at h
    · cases h
    · rename_i hn
      split at h
      · rename_i hv lv h1 h2
        cases h
        have h1' : k + 1 < f6.length := by omega
        have h2' : k + 2 < f6.length := by omega
        rw [List.getElem?_eq_getElem h1', Option.bind_some] at h1
        rw [List.getElem?_eq_getElem h2', Option.bind_some] at h2
        refine ⟨f6.take k, f6[k + 1], f6[k + 2], hv, lv, ?_, h1, h2, rfl⟩
        conv_lhs => rw [← List.take_append_drop k f6]
        rw [List.drop_eq_getElem_cons hlt, List.drop_eq_getElem_cons h1', List.drop_eq_getElem_cons h2',
          List.drop_eq_nil_of_le (by omega), (List.getElem?_eq_some_iff.1 hk').2]
      · cases h

theorem checksumSpan_line (p : LineParts) : checksumSpan p.line = p.span := by
  simp [checksumSpan, LineParts.line]

/-- A text that ends without the separator: only its last token runs into that end. -/
theorem split_append_free (sep : Byte) (a : Text) {b : Text} (hb : sep ∉ b) :
    split sep (a ++ b) = (split sep a).dropLast ++ [(split sep a).getLastD [] ++ b] := by
  rw [split_append sep a b, split_free (a := (split sep a).getLastD [] ++ b)]
  rw [List.mem_append, not_or]
  exact ⟨getLastD_split_free _ _, hb⟩

/-- A text ends with its last token. -/
theorem split_suffix (sep : Byte) (t : Text) : ∃ pre, t = pre ++ (split sep t).getLastD [] := by
  induction t with
  | nil => exact ⟨[], rfl⟩
  | cons c t ih =>
    obtain ⟨pre, e⟩ := ih
    by_cases hc : c = sep
    · subst hc
      refine ⟨c :: pre, ?_⟩
      rw [split_cons_sep]
      cases hs : split c t with
      | nil => exact absurd hs (split_ne_nil _ _)
      | cons x xs =>
        rw [hs, List.getLastD_cons] at e
        rw [List.getLastD_cons, List.getLastD_cons, List.cons_append, ← e]
    · cases hs : (splitTokens sep t).2 with
      | nil =>
        have ht : ∀ u : Text, (splitTokens sep u).2 = [] → u = (splitTokens sep u).1 := by
          intro u
          induction u with
          | nil => exact fun _ => rfl
          | cons d u ihu =>
            simp only [splitTokens]
            split
            · exact fun h => nomatch h
            · exact fun h => congrArg (d :: ·) (ihu h)
        refine ⟨[], ?_⟩
        simp only [split, splitTokens, hc, if_false, hs, List.getLastD_cons, List.getLastD_nil, List.nil_append]
        rw [← ht t hs]
      | cons x xs =>
        refine ⟨c :: pre, ?_⟩
        simp only [split, splitTokens, hc, if_false, hs] at e ⊢
        rw [List.getLastD_cons, List.getLastD_cons] at e ⊢
        rw [List.cons_append, ← e]

/-- A line that gives an encapsulated Sentence starts with `'!'` and has seven fields. -/
theorem parse_encapsulated {c : Config} {l : Text} {f : Fragment}
    (h : parse c l = .sentence (.encapsulated f)) :
    ∃ f0 f1 f2 f3 f4 f5 f6, l.head? = some bang ∧ exceeds c.lineMax l.length = false ∧
      split comma l = [f0, f1, f2, f3, f4, f5, f6] ∧
      parseFields c l f0 f1 f2 f3 f4 f5 f6 = .sentence (.encapsulated f) := by
  unfold parse at h
  split at h
  · cases h
  · rename_i hl
    split at h
    · cases h
    · rename_i m hm
      split at h
      · cases h
      · split at h
        · cases h
        · split at h
          · rename_i hb
            split at h
            · rename_i f0 f1 f2 f3 f4 f5 f6 hs
              exact ⟨f0, f1, f2, f3, f4, f5, f6, hb ▸ hm, by simpa using hl, hs, h⟩
            · cases h
          · cases h

/-- What the fields of such a line satisfy, and the Sentence they make. -/
theorem parseFields_sentence {c : Config} {l f0 f1 f2 f3 f4 f5 f6 : Text} {f : Fragment}
    (h : parseFields c l f0 f1 f2 f3 f4 f5 f6 = .sentence (.encapsulated f)) :
    3 ≤ f0.length ∧ decimal f1 = true ∧ decimal f2 = true ∧ statedChecksum c.hexCase f6 = some f.checksum ∧
    xorAll (checksumSpan l) = f.checksum ∧ exceeds c.partsMax f.partCount = false ∧ 1 ≤ f.partIndex ∧
    f.partIndex ≤ f.partCount ∧ inChannelSet c f.channel = true ∧ (f.seqId ≠ [] ↔ 1 < f.partCount) ∧
    exceeds c.fragMax f.payload.length = false ∧
    f = ⟨l, (f0.drop 1).take 2, f0.drop 3, decimalValue f1, decimalValue f2, f3, f4, f5, f.checksum⟩ := by
  unfold parseFields at h
  split at h
  · cases h
  rename_i g1
  split at h
  · cases h
  rename_i g2
  split at h
  · cases h
  rename_i st hst
  split at h
  · cases h
  rename_i g3
  split at h
  · cases h
  rename_i g4
  split at h
  · cases h
  rename_i g5
  split at h
  · cases h
  rename_i g6
  split at h
  · cases h
  rename_i g7
  split at h
  · cases h
  rename_i g8
  cases h
  rw [not_or, Bool.not_eq_false, Bool.not_eq_false] at g2
  rw [not_not] at g3 g5 g7
  exact ⟨by omega, g2.1, g2.2, hst, g3, by simpa using g4, g5.1, g5.2, by simpa using g6, g7,
    by simpa using g8, rfl⟩

/-- A line put together from its parts is checked field by field. -/
theorem parse_line {c : Config} {p : LineParts} {ck : Byte} (h : p.fieldsOk) (hs : p.states c.hexCase ck)
    (hl : exceeds c.lineMax p.line.length = false) :
    parse c p.line =
      if xorAll p.span ≠ ck then .error .ckSum
      else if exceeds c.partsMax p.countOf then .refused .overPartsMax
      else if ¬(1 ≤ p.indexOf ∧ p.indexOf ≤ p.countOf) then .error .partIdx
      else if inChannelSet c p.channel = false then .error .channel
      else if ¬(p.seqId ≠ [] ↔ 1 < p.countOf) then .error .seqId
      else if exceeds c.fragMax p.payload.length then .refused .overFragMax
      else .sentence (.encapsulated (p.fragment ck)) := by
  obtain ⟨f1, f2, f3, f4, f5, f6, f7, f8, f9⟩ := h
  obtain ⟨hv, lv, s1, s2, s3⟩ := hs
  have dec : ∀ t, decimal t = true → comma ∉ t := by
    intro t ht hc
    simp only [decimal, Bool.and_eq_true, List.all_eq_true] at ht
    exact absurd (ht.2 _ hc) (by decide)
  have e : split comma p.line = [bang :: (p.talker ++ p.subtype), p.count, p.index, p.seqId, p.channel,
      p.payload, p.pad ++ [asterisk, p.hi, p.lo]] := by
    have e0 : p.line = (bang :: (p.talker ++ p.subtype)) ++ comma :: (p.count ++ comma :: (p.index ++
        comma :: (p.seqId ++ comma :: (p.channel ++ comma :: (p.payload ++ comma ::
          (p.pad ++ [asterisk, p.hi, p.lo])))))) := by
      simp [LineParts.line, LineParts.span]
    rw [e0, split_token, split_token (dec _ f4), split_token (dec _ f5), split_token f6, split_token f7,
      split_token f8, split_free]
    · simp only [List.mem_append, List.mem_cons, List.not_mem_nil, not_or, or_false]
      exact ⟨f9, by decide, Ne.symm (hexVal_ne s1).1, Ne.symm (hexVal_ne s2).1⟩
    · simp only [List.mem_cons, List.mem_append, not_or]
      exact ⟨by decide, f2, f3⟩
  have e2 : p.line.head? = some bang := rfl
  unfold parse
  rw [if_neg (by simp [hl]), e2]
  dsimp only
  rw [if_neg (by decide), if_neg (by decide), if_pos rfl, e]
  dsimp only
  unfold parseFields
  rw [if_neg (by simp [f1]), if_neg (by simp [f4, f5]), statedChecksum_ok _ s1 s2, ← s3, checksumSpan_line]
  have d1 : (List.drop 1 (bang :: (p.talker ++ p.subtype))).take 2 = p.talker := by simp [← f1]
  have d2 : List.drop 3 (bang :: (p.talker ++ p.subtype)) = p.subtype := by simp [← f1]
  rw [d1, d2]
  rfl

end Sys2Proof.Machine
end

