-- ==== Sys2Proof/Laws/PerInstr.lean ====
section
/-! SUPPORT. Family `Opcode`: every operation's word is in the row of the opcode table that bears its mnemonic
(spec/30_encoding.md R75). -/

namespace Sys2Proof.Laws.Opcode

/-- The word of a well-formed operation matches a row with its mnemonic. -/
def Statement (i : Instr) : Prop :=
  i.wellFormed = true → ∃ row ∈ opcodeRows, row.mnemonic = i.mnemonic ∧ row.has (encodeWord i) = true

theorem abrLoad (text : Text) : Statement (.abrLoad text) := fun _ =>
  ⟨⟨"ABR.LOAD", 0x1000, 0xFFFF⟩, by decide, rfl, by rw [has_full]; rfl⟩
theorem abrRdu (n : Nat) : Statement (.abrRdu n) := fun _ =>
  ⟨⟨"ABR.RDU", 0x1100, 0xFF00⟩, by decide, rfl, has_arg_cmdWord _ (u := 1) (f := 1) (by decide) (by decide) n⟩
theorem abrRdi (n : Nat) : Statement (.abrRdi n) := fun _ =>
  ⟨⟨"ABR.RDI", 0x1200, 0xFF00⟩, by decide, rfl, has_arg_cmdWord _ (u := 1) (f := 2) (by decide) (by decide) n⟩
theorem abrRdb : Statement .abrRdb := fun _ =>
  ⟨⟨"ABR.RDB", 0x1300, 0xFFFF⟩, by decide, rfl, by rw [has_full]; rfl⟩
theorem abrRdr (n : Nat) : Statement (.abrRdr n) := fun _ =>
  ⟨⟨"ABR.RDR", 0x1400, 0xFF00⟩, by decide, rfl, has_arg_cmdWord _ (u := 1) (f := 4) (by decide) (by decide) n⟩
theorem abrAex : Statement .abrAex := fun _ =>
  ⟨⟨"ABR.AEX", 0x1500, 0xFFFF⟩, by decide, rfl, by rw [has_full]; rfl⟩
theorem parParse (line : Text) : Statement (.parParse line) := fun _ =>
  ⟨⟨"PAR.PARSE", 0x2000, 0xFFFF⟩, by decide, rfl, by rw [has_full]; rfl⟩
theorem rsmPush (snt : Sentence) : Statement (.rsmPush snt) := fun _ =>
  ⟨⟨"RSM.PUSH", 0x3000, 0xFFFF⟩, by decide, rfl, by rw [has_full]; rfl⟩
theorem dspDisp : Statement .dspDisp := fun _ =>
  ⟨⟨"DSP.DISP", 0x4000, 0xFFFF⟩, by decide, rfl, by rw [has_full]; rfl⟩
theorem fdcPosa : Statement .fdcPosa := fun _ =>
  ⟨⟨"FDC.POSA", 0x5000, 0xFFFF⟩, by decide, rfl, by rw [has_full]; rfl⟩
theorem frmPush (chunk : Text) : Statement (.frmPush chunk) := fun _ =>
  ⟨⟨"FRM.PUSH", 0x6000, 0xFFFF⟩, by decide, rfl, by rw [has_full]; rfl⟩
theorem frmEos : Statement .frmEos := fun _ =>
  ⟨⟨"FRM.EOS", 0x6100, 0xFFFF⟩, by decide, rfl, by rw [has_full]; rfl⟩
theorem topFeed (chunk : Text) : Statement (.topFeed chunk) := fun _ =>
  ⟨⟨"TOP.FEED", 0x7000, 0xFFFF⟩, by decide, rfl, by rw [has_full]; rfl⟩
theorem topEos : Statement .topEos := fun _ =>
  ⟨⟨"TOP.EOS", 0x7100, 0xFFFF⟩, by decide, rfl, by rw [has_full]; rfl⟩
theorem topSrcerr : Statement .topSrcerr := fun _ =>
  ⟨⟨"TOP.SRCERR", 0x7200, 0xFFFF⟩, by decide, rfl, by rw [has_full]; rfl⟩

end Sys2Proof.Laws.Opcode
end

