-- ==== Sys2Proof/Laws/Pipeline.lean ====
section
/-! SUPPORT. The pipeline's pieces: a chunk split in two, lines processed one list after another, and what
the operations never look at (spec/46_pipeline.md R205 to R209). -/

namespace Sys2Proof.Machine

/-- Change the state an answer carries. -/
def Ret.mapState {α : Type} (g : State → State) : Ret α → Ret α
  | .ok v s => .ok v (g s)
  | .err e s => .err e (g s)
  | .refused r => .refused r

theorem mapState_bind {α β : Type} (g : State → State) (x : Ret α) (f : α → State → Ret β)
    (h : ∀ v s, f v (g s) = Ret.mapState g (f v s)) :
    (Ret.mapState g x).bind f = Ret.mapState g (x.bind f) := by
  cases x with
  | ok v s => exact h v s
  | err => rfl
  | refused => rfl

theorem mapState_map {α β : Type} (g : State → State) (x : Ret α) (f : α → β) :
    (Ret.mapState g x).map f = Ret.mapState g (x.map f) := by
  cases x <;> rfl

/-- A change of the state that the operations from PAR.PARSE to DSP.DISP do not see: it leaves what they read, and
comes before or after what they write. `CARRY`, the port and `REAL_FORMAT` may change. -/
structure Transparent (g : State → State) : Prop where
  cfg     : ∀ s, ∃ f, (g s).cfg = { s.cfg with realFormat := f }
  bv      : ∀ s, (g s).bv = s.bv
  buf     : ∀ s, (g s).buf = s.buf
  cur     : ∀ s, (g s).cur = s.cur
  q       : ∀ s, (g s).q = s.q
  now     : ∀ s, (g s).now = s.now
  advance : ∀ n s, (g s).advance n = g (s.advance n)
  setRes  : ∀ v s, (g s).setRes v = g (s.setRes v)
  setType : ∀ t s, (g s).setType t = g (s.setType t)
  setQ    : ∀ q s, (g s).setQ q = g (s.setQ q)
  loadBuf : ∀ b s, (g s).loadBuf b = g (s.loadBuf b)

/-- Another carry and another port. -/
def State.withPort (c : Text) (r : Result) (e : List BreakCause) (st : BitVec 8) (s : State) : State :=
  { s with carry := c, result := r, events := e, stat := st }

/-- Another `REAL_FORMAT`. -/
def State.withFormat (f : RealFormat) (s : State) : State := { s with cfg := { s.cfg with realFormat := f } }

theorem withPort_transparent (c : Text) (r : Result) (e : List BreakCause) (st : BitVec 8) :
    Transparent (State.withPort c r e st) :=
  ⟨fun s => ⟨s.cfg.realFormat, rfl⟩, fun _ => rfl, fun _ => rfl, fun _ => rfl, fun _ => rfl, fun _ => rfl,
    fun _ _ => rfl, fun _ _ => rfl, fun _ _ => rfl, fun _ _ => rfl, fun _ _ => rfl⟩

theorem withFormat_transparent (f : RealFormat) : Transparent (State.withFormat f) :=
  ⟨fun _ => ⟨f, rfl⟩, fun _ => rfl, fun _ => rfl, fun _ => rfl, fun _ => rfl, fun _ => rfl,
    fun _ _ => rfl, fun _ _ => rfl, fun _ _ => rfl, fun _ _ => rfl, fun _ _ => rfl⟩

/-- Parsing does not look at `REAL_FORMAT`. -/
theorem parse_realFormat (c : Config) (f : RealFormat) (line : Text) :
    parse { c with realFormat := f } line = parse c line := rfl

namespace Transparent

variable {g : State → State} (hg : Transparent g)
include hg

theorem bitOrder (s : State) : (g s).cfg.bitOrder = s.cfg.bitOrder := by
  obtain ⟨_, h⟩ := hg.cfg s
  rw [h]

theorem loadMax (s : State) : Machine.loadMax (g s).cfg = Machine.loadMax s.cfg := by
  obtain ⟨_, h⟩ := hg.cfg s
  rw [h]
  rfl

theorem overCapacity (snt : Sentence) (s : State) :
    Machine.overCapacity (g s).cfg snt = Machine.overCapacity s.cfg snt := by
  obtain ⟨_, h⟩ := hg.cfg s
  rw [h]
  rfl

theorem parse (line : Text) (s : State) : Machine.parse (g s).cfg line = Machine.parse s.cfg line := by
  obtain ⟨_, h⟩ := hg.cfg s
  rw [h, parse_realFormat]

theorem len (s : State) : (g s).len = s.len := by rw [State.len, hg.buf, State.len]

theorem readBits (n : Nat) (s : State) : readBits n (g s) = Ret.mapState g (readBits n s) := by
  unfold Machine.readBits
  rw [hg.bv, hg.len, hg.cur, memRead, hg.buf, hg.advance, ← memRead]
  split
  · rfl
  · split
    · rfl
    · split <;> rfl

theorem readLatch {α : Type} (n : Nat) (f : List Bool → α) (h : List Bool → BitVec 32) (s : State) :
    readLatch n f h (g s) = Ret.mapState g (readLatch n f h s) := by
  simp only [Machine.readLatch]
  rw [hg.readBits, mapState_bind]
  intro v s
  rw [hg.setRes]
  rfl

theorem readField (f : FieldName) (s : State) : readField f (g s) = Ret.mapState g (readField f s) := by
  cases f <;> simp only [Machine.readField, abrRdu, abrRdi, abrRdb, abrRdr, hg.bitOrder, hg.now] <;>
    rw [← mapState_map, ← hg.readLatch]

theorem readFields (fs : List FieldName) (s : State) :
    readFields fs (g s) = Ret.mapState g (readFields fs s) := by
  induction fs generalizing s with
  | nil => rfl
  | cons f fs ih =>
    simp only [Machine.readFields]
    rw [hg.readField, mapState_bind]
    intro v s
    rw [ih, mapState_bind]
    exact fun _ _ => rfl

theorem abrAex (s : State) : abrAex (g s) = Ret.mapState g (abrAex s) := by
  unfold Machine.abrAex
  rw [hg.bv, hg.cur, hg.len]
  split
  · rfl
  · split <;> rfl

theorem fdcPosa (s : State) : fdcPosa (g s) = Ret.mapState g (fdcPosa s) := by
  unfold Machine.fdcPosa
  rw [hg.bv, hg.cur]
  split
  · rfl
  · split
    · rfl
    · rw [hg.readFields, mapState_bind]
      intro v s
      rw [hg.abrAex, mapState_bind]
      exact fun _ _ => rfl

theorem dspDisp (s : State) : dspDisp (g s) = Ret.mapState g (dspDisp s) := by
  unfold Machine.dspDisp
  rw [hg.bv, hg.cur]
  split
  · rfl
  · split
    · rfl
    · simp only [abrRdu, hg.bitOrder]
      rw [hg.readLatch, mapState_bind]
      intro v s
      rw [hg.setType]
      cases registry v
      · dsimp only
        rw [← mapState_map, ← hg.fdcPosa]
      · rfl
      · rfl

theorem abrLoad (t : Text) (s : State) : abrLoad t (g s) = Ret.mapState g (abrLoad t s) := by
  unfold Machine.abrLoad
  rw [hg.loadMax, hg.bitOrder]
  split
  · rfl
  · cases dearmor s.cfg.bitOrder t with
    | none => rfl
    | some bits => dsimp only; rw [hg.loadBuf]; rfl

theorem finish (text line : Text) (s : State) : finish text line (g s) = Ret.mapState g (finish text line s) := by
  unfold Machine.finish
  rw [hg.abrLoad]
  cases Machine.abrLoad text s with
  | err => rfl
  | refused => rfl
  | ok v s =>
    simp only [Ret.mapState]
    rw [hg.dspDisp]
    cases Machine.dspDisp s <;> rfl

theorem pushFragment (f : Fragment) (s : State) :
    pushFragment f (g s) = Ret.mapState g (pushFragment f s) := by
  simp only [Machine.pushFragment, hg.q, hg.setQ]
  generalize (if breaks s.q f then [] else s.q) = q
  split
  · rfl
  · split <;> rfl

theorem rsmPush (snt : Sentence) (s : State) : rsmPush snt (g s) = Ret.mapState g (rsmPush snt s) := by
  unfold Machine.rsmPush
  rw [hg.overCapacity]
  cases Machine.overCapacity s.cfg snt with
  | some r => rfl
  | none =>
    cases snt with
    | delimited => simp only [offer, hg.setQ]; rfl
    | comment => simp only [offer, hg.setQ]; rfl
    | encapsulated f =>
      simp only [offer, hg.setQ, hg.q, hg.pushFragment]
      split
      · rfl
      · split <;> rfl

theorem process (line : Text) (s : State) : process line (g s) = Ret.mapState g (process line s) := by
  unfold Machine.process
  rw [hg.parse]
  cases Machine.parse s.cfg line with
  | refused => rfl
  | error => rfl
  | sentence t =>
    cases t with
    | delimited => rfl
    | comment => rfl
    | encapsulated f =>
      dsimp only
      rw [hg.rsmPush]
      cases Machine.rsmPush (.encapsulated f) s with
      | refused => rfl
      | err => rfl
      | ok p s =>
        obtain ⟨o, ev⟩ := p
        cases o with
        | none => rfl
        | some t =>
          simp only [Ret.mapState, afterPush]
          rw [hg.finish, mapState_map]
          rfl

/-- Processing lines does not see what `g` changes: `CARRY`, the port, `REAL_FORMAT`. -/
theorem processAll (ls : List Text) (s : State) :
    processAll ls (g s) = Ret.mapState g (processAll ls s) := by
  induction ls generalizing s with
  | nil => rfl
  | cons f fs ih =>
    simp only [Machine.processAll]
    rw [hg.process, mapState_bind]
    intro v s
    rw [ih, mapState_bind]
    exact fun _ _ => rfl

end Transparent

/-- Processing lines neither reads nor writes `CARRY` and the port. -/
theorem processAll_withPort (c : Text) (r : Result) (e : List BreakCause) (st : BitVec 8) (ls : List Text)
    (s : State) :
    processAll ls (s.withPort c r e st) = Ret.mapState (State.withPort c r e st) (processAll ls s) :=
  (withPort_transparent c r e st).processAll ls s

/-- Lines processed one list after another. -/
theorem processAll_append (a b : List Text) (s : State) :
    processAll (a ++ b) s =
      (processAll a s).bind fun x s1 => (processAll b s1).bind fun y s2 => .ok (x ++ y) s2 := by
  induction a generalizing s with
  | nil =>
    simp only [List.nil_append, processAll, Ret.bind_ok]
    cases processAll b s <;> rfl
  | cons l a ih =>
    simp only [List.cons_append, processAll]
    cases process l s with
    | err => rfl
    | refused => rfl
    | ok v s1 =>
      simp only [Ret.bind_ok]
      rw [ih]
      cases processAll a s1 with
      | err => rfl
      | refused => rfl
      | ok v s2 =>
        simp only [Ret.bind_ok]
        cases processAll b s2 <;> simp

theorem linesOf_append (a b : List Text) : linesOf (a ++ b) = linesOf a ++ linesOf b := by simp [linesOf]

theorem itemEvents_append (a b : List Item) : itemEvents (a ++ b) = itemEvents a ++ itemEvents b := by
  simp [itemEvents]

theorem itemEvents_events (ev : List BreakCause) : itemEvents (ev.map .event) = ev := by
  simp [itemEvents, List.filterMap_map]

/-- The completed tokens and the carry of a chunk that comes in two pieces. -/
theorem split_two_chunks (k a b : Text) :
    (split LF (k ++ (a ++ b))).dropLast =
        (split LF (k ++ a)).dropLast ++ (split LF ((split LF (k ++ a)).getLastD [] ++ b)).dropLast ∧
      (split LF (k ++ (a ++ b))).getLastD [] =
        (split LF ((split LF (k ++ a)).getLastD [] ++ b)).getLastD [] := by
  rw [← List.append_assoc, split_append]
  generalize (split LF (k ++ a)).dropLast = d
  have h := split_ne_nil LF ((split LF (k ++ a)).getLastD [] ++ b)
  generalize split LF ((split LF (k ++ a)).getLastD [] ++ b) = e at *
  refine ⟨List.dropLast_append_of_ne_nil h, ?_⟩
  rw [List.getLastD_eq_getLast?, List.getLastD_eq_getLast?, List.getLast?_append_of_ne_nil _ h]

/-- TOP.FEED on an open source, unbounded. -/
theorem topFeed_unbounded {s : State} (hu : unbounded s.cfg) (ho : s.src = .opened) (chunk : Text) :
    topFeed chunk s = processAll (linesOf (split LF (s.carry ++ chunk)).dropLast)
      (s.setCarry ((split LF (s.carry ++ chunk)).getLastD [])) := by
  unfold topFeed
  rw [if_neg (by simp [ho]), frmPush_unbounded chunk s hu]
  rfl

/-- An answer that is no refusal and no error is a value. -/
theorem Ret.Runs.value {α : Type} {x : Ret α} (h : x.Runs) (he : ∀ t e, x ≠ .err e t) :
    ∃ v t, x = .ok v t := by
  cases x with
  | ok v s => exact ⟨v, s, rfl⟩
  | err e s => exact absurd rfl (he s e)
  | refused => exact h.elim

end Sys2Proof.Machine
end

