-- ==== Sys2Proof/Tests/Slice0.lean ====
section
/-! SUPPORT. The model's own tests. Expected values come from the spec's tables and vectors (named at each test);
`witness_<Name>` shows that the hypotheses of Obligations.<Name> can be met together, clause by clause. -/

namespace Sys2Proof.Tests

open Sys2Proof Sys2Proof.Machine

set_option maxRecDepth 100000

/-! ### Small states without free values -/

/-- The state of R37 with zeros for what it leaves open. -/
def blank : State where
  cfg := Config.default
  bv := false
  buf := []
  cur := 0
  q := []
  carry := []
  src := .opened
  res := 0
  stat := 0
  typeCode := 0
  now := 1700000000
  result := .ok .none
  events := []
  pending := []
  resets := 0

/-- The state an operation ends in; `s` itself when it is refused. -/
def after (i : Instr) (s : State) : State :=
  match exec i s with
  | .next t => t
  | .fault _ => s
  | .refused _ => s

/-- The reference text of V20. -/
def refText : Text := txt "177KQJ5000G?tO`K>RA1wUbN0TKH"

/-- A buffer loaded with the text, the cursor at `c`. -/
def loaded (t : Text) (c : Nat) : State := { after (.abrLoad t) blank with cur := c }

/-- A fragment as V50 writes it. -/
def frag (seq : String) (i c : Nat) (ch payload : String) : Fragment :=
  ⟨[], txt "AI", txt "VDM", c, i, txt seq, txt ch, txt payload, 0⟩

/-- A state whose queue is given. -/
def queued (q : List Fragment) : State := { blank with q := q }

/-- Finite capacities, for what is refused. -/
def tiny : State := { blank with
  cfg := { Config.default with lineMax := some 2, fragMax := some 1, partsMax := some 2 } }

/-- The parts of the line `!AIVDM,<count>,<index>,<seq>,<channel>,15,0*<hi><lo>`. -/
def parts (count index seq channel : String) (hi lo : Char) : LineParts :=
  ⟨txt "AI", txt "VDM", txt count, txt index, txt seq, txt channel, txt "15", txt "0",
   BitVec.ofNat 8 hi.toNat, BitVec.ofNat 8 lo.toNat⟩

/-- The line G of V40. -/
def lineG : String := "!AIVDM,1,1,,B,177KQJ5000G?tO`K>RA1wUbN0TKH,0*5C"

/-! ### Well-formedness and decoding -/

theorem test_wf_refuses_rdu_256 : Instr.wellFormed (.abrRdu 256) = false := by decide
theorem test_wf_refuses_rdi_256 : Instr.wellFormed (.abrRdi 256) = false := by decide
theorem test_wf_refuses_rdr_256 : Instr.wellFormed (.abrRdr 256) = false := by decide
theorem test_wf_accepts_255 : Instr.wellFormed (.abrRdu 255) = true := by decide

/-- R75, V90: UNIT 0001. -/
theorem test_decode_abr :
    decodeTableWord 16 0b0001000000000000 = some (.abrLoad []) ∧
    decodeTableWord 16 0b0001000100100000 = some (.abrRdu 32) ∧
    decodeTableWord 16 0b0001001000011100 = some (.abrRdi 28) ∧
    decodeTableWord 16 0b0001001100000000 = some .abrRdb ∧
    decodeTableWord 16 0b0001010000001110 = some (.abrRdr 14) ∧
    decodeTableWord 16 0b0001010100000000 = some .abrAex := by decide
/-- R75, V90: UNITs 0010 to 0101. -/
theorem test_decode_par_rsm_dsp_fdc :
    decodeTableWord 16 0b0010000000000000 = some (.parParse []) ∧
    decodeTableWord 16 0b0011000000000000 = some (.rsmPush .zero) ∧
    decodeTableWord 16 0b0100000000000000 = some .dspDisp ∧
    decodeTableWord 16 0b0101000000000000 = some .fdcPosa := by decide
/-- R75, V90: UNITs 0110 and 0111. -/
theorem test_decode_frm_top :
    decodeTableWord 16 0b0110000000000000 = some (.frmPush []) ∧
    decodeTableWord 16 0b0110000100000000 = some .frmEos ∧
    decodeTableWord 16 0b0111000000000000 = some (.topFeed []) ∧
    decodeTableWord 16 0b0111000100000000 = some .topEos ∧
    decodeTableWord 16 0b0111001000000000 = some .topSrcerr := by decide
/-- R77, V90: reserved words. -/
theorem test_decode_reserved :
    decodeTableWord 16 0x1301 = none ∧ decodeTableWord 16 0x1600 = none ∧ decodeTableWord 16 0x7300 = none ∧
    decodeTableWord 16 0x0000 = none ∧ decodeTableWord 16 0x8000 = none ∧ decodeTableWord 16 0xFFFF = none := by
  decide

/-! ### One operation at a time -/

/-- V22 row 6. -/
theorem test_load_bits : (after (.abrLoad (txt "15")) blank).buf =
    [false, false, false, false, false, true, false, false, false, true, false, true] := by decide
/-- V22 row 14: the old buffer is kept. -/
theorem test_load_invalid_keeps : after (.abrLoad (txt "1X")) (loaded (txt "15") 5) =
    { loaded (txt "15") 5 with result := .err (.parse .armor), stat := 0x1A } := by decide
/-- V21 row 3. -/
theorem test_rdu_mmsi : after (.abrRdu 30) (loaded refText 8) = { loaded refText 8 with
    cur := 38, res := 0x1C76E168, result := .ok (.nat 477553000) } := by decide
/-- V22 row 8: OPERAND, not UNDERRUN. -/
theorem test_rdu_operand_first :
    (after (.abrRdu 33) (loaded (txt "15") 0)).result = .err (.illegal .operand) := by decide
/-- V21 row 8. -/
theorem test_rdi_lon : after (.abrRdi 28) (loaded refText 61) = { loaded refText 61 with
    cur := 89, res := 0xFB9FE3F4, result := .ok (.int (-73407500)) } := by decide
/-- V22 row 20. -/
theorem test_rdi_most_negative : after (.abrRdi 32) (loaded (txt "P00000") 0) = { loaded (txt "P00000") 0 with
    cur := 32, res := 0x80000000, result := .ok (.int (-2147483648)) } := by decide
/-- R95, V22 row 22's first bit. -/
theorem test_rdb_true : after .abrRdb (loaded (txt "P") 0) = { loaded (txt "P") 0 with
    cur := 1, res := 1, result := .ok (.bool true) } := by decide
/-- V21 row 18. -/
theorem test_rdr_comm_state : after (.abrRdr 14) (loaded refText 154) = { loaded refText 154 with
    cur := 168, res := 0x6D8, result := .ok (.raw
      [false, false, false, true, true, false, true, true, false, true, true, false, false, false]) } := by
  decide
/-- V22 row 13. -/
theorem test_aex_trailing : (after .abrAex (loaded (txt "15") 5)).stat = 0x42 := by decide
/-- V22 row 12. -/
theorem test_aex_ok : after .abrAex (loaded (txt "15") 12) = loaded (txt "15") 12 := by decide
/-- V40 row 1. -/
theorem test_parse_reference : (after (.parParse (txt lineG)) blank).result =
    .ok (.sentence (.encapsulated
      ⟨txt lineG, txt "AI", txt "VDM", 1, 1, [], txt "B", refText, 0x5C⟩)) := by decide
/-- V40 row 20: the last `'*'` delimits, the first is inside the span. -/
theorem test_parse_two_stars : (after (.parParse (txt "!AIVDM,1,1,,B,15,0**0B")) blank).result =
    .ok (.sentence (.encapsulated
      ⟨txt "!AIVDM,1,1,,B,15,0**0B", txt "AI", txt "VDM", 1, 1, [], txt "B", txt "15", 0x0B⟩)) := by decide
/-- V50 sequence a, third push. -/
theorem test_push_completes :
    after (.rsmPush (.encapsulated (frag "3" 3 3 "A" "C")))
      (queued [frag "3" 1 3 "A" "AAA", frag "3" 2 3 "A" "BB"]) =
    { blank with result := .ok (.text (some (txt "AAABBC"))) } := by decide
/-- V50 sequence i, second push: discarded and restarted. -/
theorem test_push_restarts :
    after (.rsmPush (.encapsulated (frag "4" 1 2 "A" "DDD"))) (queued [frag "3" 1 2 "A" "AAA"]) =
    { queued [frag "4" 1 2 "A" "DDD"] with result := .ok (.text none), events := [.sequence] } := by decide
/-- V34 row 5 (type 27). -/
theorem test_disp_stub : after .dspDisp (loaded (txt "K") 0) = { loaded (txt "K") 0 with
    cur := 6, res := 27, typeCode := 27, result := .ok (.message ⟨27, []⟩) } := by decide
/-- V34 row 14: 27 characters, UNDERRUN at comm_state. -/
theorem test_disp_underrun :
    let t := after .dspDisp (loaded (refText.take 27) 0)
    t.cur = 154 ∧ t.typeCode = 1 ∧ t.stat = 0x41 := by decide
/-- V30. -/
theorem test_posa_reference : (after .fdcPosa (loaded refText 6)).result = .ok (.fieldMap
    [(.repeatInd, .int 0), (.mmsi, .int 477553000), (.status, .enum 5), (.turn, .real 0), (.speed, .real 0),
     (.accuracy, .bool false), (.lon, .real (mkRat (-29363) 240)), (.lat, .real (mkRat 285497 6000)),
     (.course, .real 51), (.heading, .int 181), (.second, .instant 1699999995), (.maneuver, .enum 0),
     (.spare, .raw [false, false, false]), (.raim, .bool false), (.syncState, .enum 1), (.slotTimeout, .int 1),
     (.commState, .raw
       [false, false, false, true, true, false, true, true, false, true, true, false, false, false])]) := by
  decide
/-- V31: every sentinel at once. -/
theorem test_posa_sentinels :
    (after .fdcPosa (loaded (txt "1img=5OP?wdtSF0l4Q@>4?wp0000") 6)).result = .ok (.fieldMap
    [(.repeatInd, .int 3), (.mmsi, .int 123456789), (.status, .enum 15), (.turn, .notAvailable),
     (.speed, .real (mkRat 1023 10)), (.accuracy, .bool true), (.lon, .notAvailable), (.lat, .notAvailable),
     (.course, .notAvailable), (.heading, .notAvailable), (.second, .timeMode 60), (.maneuver, .enum 0),
     (.spare, .raw [false, false, false]), (.raim, .bool false), (.syncState, .enum 0), (.slotTimeout, .int 0),
     (.commState, .raw (List.replicate 14 false))]) := by decide
/-- V80: exactly 30 s is kept, 31 s is not, on both sides. -/
theorem test_timestamps :
    convTs 50 1700000000 = .instant 1700000030 ∧ convTs 51 1700000000 = .instant 1699999971 ∧
    convTs 20 1700000030 = .instant 1700000000 ∧ convTs 19 1700000030 = .instant 1700000059 ∧
    convTs 59 0 = .instant (-1) ∧ convTs 63 0 = .timeMode 63 := by decide
/-- V81. -/
theorem test_rate_of_turn :
    convRot (-126) = .real (mkRat (-264600000) 22401289) ∧ convRot 10 = .real (mkRat 5000000 67203867) ∧
    convRot (-127) = .turnLeftUnbounded ∧ convRot 127 = .turnRightUnbounded := by decide
/-- V70 row 5: CR and LF in different chunks. -/
theorem test_frame_cr_lf : after (.frmPush (txt "\ny")) { blank with carry := txt "x\r" } = { blank with
    carry := txt "y", result := .ok (.lines [txt "x"]) } := by decide
/-- V70 row 11. -/
theorem test_frame_eos : after .frmEos { blank with carry := txt "!AIVDM,1,1,,A,15" } = blank := by decide
/-- P4 step 10 in small: the PREEMPT event comes before the message. -/
theorem test_feed_preempt :
    let t := after (.topFeed (txt "!AIVDM,1,1,,A,;,0*1D\n")) (queued [frag "3" 1 2 "A" "AAA"])
    t.result = .ok (.items [.event .preempt, .message ⟨11, []⟩]) ∧ t.events = [.preempt] ∧ t.q = [] := by
  decide
/-- P4 step 4: an armor error in a line is an item, and the operation returns Ok. -/
theorem test_feed_armor_error :
    after (.topFeed (txt "!AIVDM,1,1,,A,1 5,0*02\n")) blank = { blank with
      result := .ok (.items [.error (.parse .armor) (txt "!AIVDM,1,1,,A,1 5,0*02")]) } := by decide
/-- P3 step 9. -/
theorem test_eos : after .topEos { blank with carry := txt "!AIV" } = { blank with
    src := .ended, result := .ok (.items []) } := by decide
/-- P4 step 13: the carry is kept. -/
theorem test_srcerr : after .topSrcerr { blank with carry := txt "!AIV" } = { blank with
    carry := txt "!AIV", src := .failed, result := .ok (.items [.error .source []]) } := by decide

/-! ### Witnesses: the hypotheses of the statements can be met -/

theorem witness_StepRunsDecodedInstruction :
    (blank.withFetchWord 16 0x1106).pending = .issue (wordRequest 0x1106) :: [] ∧
    decode (wordRequest 0x1106) = .ok (.abrRdu 6) := ⟨rfl, rfl⟩
theorem witness_ReservedWordChangesOnlyStatus :
    (blank.withFetchWord 16 0x1301).pending = .issue (wordRequest 0x1301) :: [] ∧
    opcodeRows.all (fun row => !row.has 0x1301) = true ∧ opcodeRows.all (fun row => !row.has 0x7300) = true ∧
    opcodeRows.all (fun row => !row.has 0x0FFF) = true ∧ opcodeRows.all (fun row => !row.has 0x8000) = true :=
  ⟨rfl, by decide, by decide, by decide, by decide⟩
theorem witness_DecodeFollowsOpcodeTable :
    ⟨"ABR.RDU", 0x1100, 0xFF00⟩ ∈ opcodeRows ∧ OpcodeRow.has ⟨"ABR.RDU", 0x1100, 0xFF00⟩ 0x11FF = true ∧
    OpcodeRow.has ⟨"ABR.RDU", 0x1100, 0xFF00⟩ 0x1100 = true := by decide
theorem witness_DecodeEncodeAgree : Instr.wellFormed (.abrRdr 255) = true ∧ Instr.wellFormed (.abrRdu 0) = true := by
  decide
theorem witness_HostActionsBetweenOperations :
    blank.pending = [] ∧ { blank with pending := [.writeNow 7] }.pending = .writeNow 7 :: [] ∧
    { blank with pending := [.reset] }.pending = .reset :: [] ∧ blank.cfg = Config.default := by decide
/-- A queue of one first part keeps R28. -/
theorem witness_queueOk : queueOk [frag "3" 1 3 "A" "AAA"] := by
  intro j f h
  cases j with
  | zero => cases h; refine ⟨by decide, by decide, by decide, by decide, ?_⟩
            intro g hg
            rw [List.mem_singleton.1 hg]
            exact ⟨rfl, rfl, rfl, rfl, rfl⟩
  | succ j => cases h
theorem witness_StepKeepsInv :
    Inv { queued [frag "3" 1 3 "A" "AAA"] with pending := [.issue (encode .abrRdb)] } ∧
    ∃ t, step { queued [frag "3" 1 3 "A" "AAA"] with pending := [.issue (encode .abrRdb)] } = .next t :=
  ⟨⟨rfl, Nat.le_refl 0, witness_queueOk, List.not_mem_nil, rfl⟩, ⟨_, rfl⟩⟩
/-- For EachOperationWritesOnlyItsElements, clause by clause: every operation answers a next state. -/
theorem witness_EachOperationWritesOnlyItsElements :
    (∃ t, exec (.abrLoad (txt "15")) blank = .next t) ∧ (∃ t, exec (.abrRdu 6) blank = .next t) ∧
    (∃ t, exec (.abrRdi 6) blank = .next t) ∧ (∃ t, exec .abrRdb blank = .next t) ∧
    (∃ t, exec (.abrRdr 6) blank = .next t) ∧ (∃ t, exec .abrAex blank = .next t) ∧
    (∃ t, exec (.parParse (txt "#")) blank = .next t) ∧ (∃ t, exec (.rsmPush (.comment [])) blank = .next t) ∧
    (∃ t, exec .dspDisp blank = .next t) ∧ (∃ t, exec .fdcPosa blank = .next t) ∧
    (∃ t, exec (.frmPush (txt "a")) blank = .next t) ∧ (∃ t, exec .frmEos blank = .next t) ∧
    (∃ t, exec (.topFeed (txt "a")) blank = .next t) ∧ (∃ t, exec .topEos blank = .next t) ∧
    (∃ t, exec .topSrcerr blank = .next t) :=
  ⟨⟨_, rfl⟩, ⟨_, rfl⟩, ⟨_, rfl⟩, ⟨_, rfl⟩, ⟨_, rfl⟩, ⟨_, rfl⟩, ⟨_, rfl⟩, ⟨_, rfl⟩, ⟨_, rfl⟩, ⟨_, rfl⟩,
   ⟨_, rfl⟩, ⟨_, rfl⟩, ⟨_, rfl⟩, ⟨_, rfl⟩, ⟨_, rfl⟩⟩
theorem witness_NoOperationWritesTheClock : ∃ t, exec (.abrRdu 6) (loaded (txt "15") 0) = .next t := ⟨_, rfl⟩
theorem witness_StatusEncodesTheResult : ∃ t, exec (.abrRdu 33) (loaded (txt "15") 0) = .next t := ⟨_, rfl⟩
/-- Both clauses: a change of `SRC`, and a source that is already ended. -/
theorem witness_OnlyEndOperationsCloseTheSource :
    (∃ t, exec .topEos blank = .next t ∧ t.src ≠ blank.src) ∧
    (∃ t, exec .topSrcerr blank = .next t ∧ t.src ≠ blank.src) ∧
    ∃ t, exec .topSrcerr { blank with src := .ended } = .next t ∧ { blank with src := .ended }.src ≠ .opened :=
  ⟨⟨_, rfl, by decide⟩, ⟨_, rfl, by decide⟩, ⟨_, rfl, by decide⟩⟩
theorem witness_NothingRefusedWhenUnbounded : unbounded blank.cfg := ⟨rfl, rfl, rfl⟩
/-- Parts whose checks pass, so that only their size is refused. -/
def bigCount : LineParts := parts "3" "1" "3" "A" '1' '3'
/-- The same with a part count of 2, its payload of two characters beyond `FRAG_MAX = 1`. -/
def bigPayload : LineParts := parts "2" "1" "3" "A" '1' '2'
/-- As tiny, with lines of any length. -/
def tinyParts : State := { tiny with cfg := { tiny.cfg with lineMax := none } }

/-- Clause by clause: ABR.LOAD; PAR.PARSE's line; its part count and payload (the two digits state the checksum by
spelled_states); FRM.PUSH and TOP.FEED tokens; RSM.PUSH's raw line, part count and payload; a line of TOP.FEED. -/
theorem witness_InputsBeyondCapacityAreRefused :
    (tiny.cfg.fragMax = some 1 ∧ tiny.cfg.partsMax = some 2 ∧ 1 * 2 < (txt "000").length) ∧
    (tiny.cfg.lineMax = some 2 ∧ 2 < (txt "abc").length) ∧
    ((bigCount.fieldsOk ∧ xorAll bigCount.span = 0x13 ∧ hexVal .both bigCount.hi = some 1 ∧
        hexVal .both bigCount.lo = some 3 ∧ exceeds tinyParts.cfg.lineMax bigCount.line.length = false ∧
        tinyParts.cfg.partsMax = some 2 ∧ 2 < bigCount.countOf) ∧
      (bigPayload.fieldsOk ∧ xorAll bigPayload.span = 0x12 ∧ hexVal .both bigPayload.hi = some 1 ∧
        hexVal .both bigPayload.lo = some 2 ∧ exceeds tinyParts.cfg.partsMax bigPayload.countOf = false ∧
        1 ≤ bigPayload.indexOf ∧ bigPayload.indexOf ≤ bigPayload.countOf ∧
        inChannelSet tinyParts.cfg bigPayload.channel = true ∧ (bigPayload.seqId ≠ [] ↔ 1 < bigPayload.countOf) ∧
        tinyParts.cfg.fragMax = some 1 ∧ 1 < bigPayload.payload.length)) ∧
    (txt "abc" ∈ split LF (tiny.carry ++ txt "\nabc") ∧ tiny.src = .opened) ∧
    2 < (Sentence.comment (txt "#bc")).raw.length ∧
    (exceeds tiny.cfg.lineMax (frag "3" 1 3 "A" "0").raw.length = false ∧ 2 < (frag "3" 1 3 "A" "0").partCount ∧
      exceeds tiny.cfg.partsMax (frag "3" 1 2 "A" "00").partCount = false ∧
      1 < (frag "3" 1 2 "A" "00").payload.length) ∧
    ((after (.frmPush (bigCount.line ++ [LF])) tinyParts).result = .ok (.lines ([] ++ bigCount.line :: [])) ∧
      parse tinyParts.cfg bigCount.line = .refused .overPartsMax) :=
  ⟨by decide, by decide, ⟨by decide, by decide⟩, by decide, by decide, by decide, by decide⟩
theorem witness_FailedOperationIsInvisible :
    ∃ t, exec (.abrRdu 0) (loaded (txt "15") 0) = .next t ∧ t.result = .err (.illegal .operand) ∧
      (∀ g, Instr.abrRdu 0 ≠ .rsmPush g) ∧ Instr.abrRdu 0 ≠ .dspDisp ∧ Instr.abrRdu 0 ≠ .fdcPosa :=
  ⟨_, rfl, rfl, fun _ => by simp, by decide, by decide⟩
/-- The ends of both ranges and the bytes next to them. -/
theorem witness_ArmorAlphabet :
    armor 0x30 = some 0 ∧ armor 0x57 = some 39 ∧ armor 0x60 = some 40 ∧ armor 0x77 = some 63 ∧
    armor 0x2F = none ∧ armor 0x58 = none ∧ armor 0x5F = none ∧ armor 0x78 = none := by decide
theorem witness_ArmorIsABijection : armor (unarmor 63) = some 63 ∧ armor 0x60 = some 40 := by decide
theorem witness_InvalidArmorFailsTheLoad :
    exceeds (loadMax blank.cfg) (txt "1X").length = false ∧ (0x58 : Byte) ∈ txt "1X" ∧ armor 0x58 = none := by
  decide
theorem witness_LoadBuildsTheBuffer :
    exceeds (loadMax blank.cfg) refText.length = false ∧ ∀ c ∈ refText, armor c ≠ none := by decide
/-- The least and the greatest count, up to the last bit; the bit order of the second clause. -/
theorem witness_UnsignedReadReturnsTheNextBits :
    ∀ p ∈ [(167, 1), (136, 32)], (loaded refText p.1).bv = true ∧ 1 ≤ p.2 ∧ p.2 ≤ 32 ∧
      (loaded refText p.1).cur + p.2 ≤ (loaded refText p.1).len ∧
      (loaded refText p.1).cfg.bitOrder = .msbFirst := by decide
/-- The four clauses, each at both ends of its counts. -/
theorem witness_SignedReadIsTwosComplement :
    blank.bv = false ∧
    (∀ n ∈ [0, 33], (loaded refText 0).bv = true ∧ (n < 1 ∨ 32 < n)) ∧
    (∀ p ∈ [(168, 1), (137, 32)], (loaded refText p.1).bv = true ∧ 1 ≤ p.2 ∧ p.2 ≤ 32 ∧
      (loaded refText p.1).len - (loaded refText p.1).cur < p.2) ∧
    (∀ p ∈ [(167, 1), (136, 32)], (loaded refText p.1).bv = true ∧ 1 ≤ p.2 ∧ p.2 ≤ 32 ∧
      (loaded refText p.1).cur + p.2 ≤ (loaded refText p.1).len) := by decide
theorem witness_BooleanAndRawReads :
    ((loaded (txt "P") 0).bv = true ∧ (loaded (txt "P") 0).buf[(loaded (txt "P") 0).cur]? = some true) ∧
    (∀ p ∈ [(167, 1), (136, 32)], (loaded refText p.1).bv = true ∧ 1 ≤ p.2 ∧ p.2 ≤ 32 ∧
      (loaded refText p.1).cur + p.2 ≤ (loaded refText p.1).len) := by decide
theorem witness_ReadChecksInOrder :
    (blank.bv = false ∧ Instr.abrRdb ∈ [Instr.abrRdu 1, .abrRdr 1, .abrRdb]) ∧
    (∀ n ∈ [0, 33], (loaded (txt "15") 0).bv = true ∧ (n = 0 ∨ 32 < n) ∧
      Instr.abrRdr n ∈ [Instr.abrRdu n, .abrRdr n]) ∧
    ((loaded (txt "15") 0).bv = true ∧ (loaded (txt "15") 0).len - (loaded (txt "15") 0).cur < 13 ∧
      Instr.abrRdu 13 ∈ [Instr.abrRdu 13, .abrRdr 13]) ∧
    ((loaded (txt "15") 12).bv = true ∧ (loaded (txt "15") 12).len ≤ (loaded (txt "15") 12).cur) := by decide
theorem witness_ExhaustionCheck :
    blank.bv = false ∧
    ((loaded (txt "15") 11).bv = true ∧ (loaded (txt "15") 11).cur ≠ (loaded (txt "15") 11).len) ∧
    ((loaded (txt "15") 12).bv = true ∧ (loaded (txt "15") 12).cur = (loaded (txt "15") 12).len) := by decide
/-- One bit and 31, and 31 and one, up to the last bit. -/
theorem witness_ReadsConcatenate :
    ∀ p ∈ [(1, 31), (31, 1)], (loaded refText 136).cfg.bitOrder = .msbFirst ∧ (loaded refText 136).bv = true ∧
      1 ≤ p.1 ∧ 1 ≤ p.2 ∧ p.1 + p.2 ≤ 32 ∧
      (loaded refText 136).cur + (p.1 + p.2) ≤ (loaded refText 136).len := by decide
theorem witness_SixBitReadsRecoverTheText :
    exceeds (loadMax blank.cfg) (txt "1w").length = false ∧ (∀ x ∈ txt "1w", armor x ≠ none) ∧
    (∃ t, exec (.abrLoad (txt "1w")) blank = .next t) ∧ (txt "1w")[1]? = some 0x77 :=
  ⟨by decide, by decide, ⟨_, rfl⟩, by decide⟩
/-- The parts pass the structural checks, their two digits state `ck`, and `ck` is `x` away from the span's XOR. -/
def spelled (p : LineParts) (ck x : Byte) : Prop :=
  p.fieldsOk ∧ hexVal .both p.hi = some (ck.toNat / 16) ∧ hexVal .both p.lo = some (ck.toNat % 16) ∧
    xorAll p.span = ck ^^^ x

/-- Such parts state `ck`. -/
theorem spelled_states {p : LineParts} {ck x : Byte} (h : spelled p ck x) :
    p.states Config.default.hexCase ck :=
  ⟨ck.toNat / 16, ck.toNat % 16, h.2.1, h.2.2.1, by rw [Nat.div_add_mod]; simp⟩

/-- V40 rows 23 and 36; the two digits state the checksum by spelled_states. -/
theorem witness_WellFormedLineParses :
    (spelled (parts "1" "1" "" "A" '2' '2') 0x22 0 ∧ spelled (parts "2" "1" "3" "A" '1' '2') 0x12 0) ∧
    ∀ p ∈ [parts "1" "1" "" "A" '2' '2', parts "2" "1" "3" "A" '1' '2'],
      1 ≤ p.indexOf ∧ p.indexOf ≤ p.countOf ∧ inChannelSet blank.cfg p.channel = true ∧
      (p.seqId ≠ [] ↔ 1 < p.countOf) ∧ exceeds blank.cfg.lineMax p.line.length = false ∧
      exceeds blank.cfg.partsMax p.countOf = false ∧ exceeds blank.cfg.fragMax p.payload.length = false := by
  simp only [spelled]
  decide

/-- Clause 1: a wrong digit (V40 row 24's kind of fault). Clause 2: the first and the last byte of the span. -/
theorem witness_ChecksumGuardsTheSpan :
    (spelled (parts "1" "1" "" "A" '2' '3') 0x23 1 ∧
     xorAll (parts "1" "1" "" "A" '2' '3').span ≠ 0x23) ∧
    (let l := txt "!AIVDM,1,1,,A,15,0*22"
     parse blank.cfg l = .sentence (.encapsulated
       ⟨l, txt "AI", txt "VDM", 1, 1, [], txt "A", txt "15", 0x22⟩) ∧
     1 < l.length - 3 ∧ l[1]? ≠ some 0x42 ∧ 17 < l.length - 3 ∧ ¬18 < l.length - 3 ∧ l[17]? ≠ some 0x31) := by
  simp only [spelled]
  decide
/-- V40 rows 27, 28, 34, 35: an index of 0, one above the count, an id without and no id with several parts. -/
theorem witness_PartFieldsAreConsistent :
    (let p := parts "1" "0" "" "B" '2' '0'
     spelled p 0x20 0 ∧ ¬(1 ≤ p.indexOf ∧ p.indexOf ≤ p.countOf)) ∧
    (let p := parts "2" "3" "7" "B" '1' '7'
     spelled p 0x17 0 ∧ ¬(1 ≤ p.indexOf ∧ p.indexOf ≤ p.countOf)) ∧
    (let p := parts "1" "1" "3" "A" '1' '1'
     spelled p 0x11 0 ∧ 1 ≤ p.indexOf ∧ p.indexOf ≤ p.countOf ∧ inChannelSet blank.cfg p.channel = true ∧
       ¬(p.seqId ≠ [] ↔ 1 < p.countOf)) ∧
    (let p := parts "2" "1" "" "A" '2' '1'
     spelled p 0x21 0 ∧ 1 ≤ p.indexOf ∧ p.indexOf ≤ p.countOf ∧ inChannelSet blank.cfg p.channel = true ∧
       ¬(p.seqId ≠ [] ↔ 1 < p.countOf)) := by
  simp only [spelled]
  exact ⟨by decide, by decide, by decide, by decide⟩
/-- V40 rows 8, 10, 12, 17 and 31; row 17's CKFIELD hypothesis is witness_ckField. -/
theorem witness_MalformedLinesAreParseErrors :
    ((txt "!AIVDM,1,1,,B,15*3D").head? = some bang ∧ (split comma (txt "!AIVDM,1,1,,B,15*3D")).length ≠ 7) ∧
    (split comma (txt "!A,1,1,,B,15,0*37") = [txt "!A", txt "1", txt "1", [], txt "B", txt "15", txt "0*37"] ∧
      (txt "!A").length < 3) ∧
    (split comma (txt "!AIVDM,,1,,B,15,0*10") =
        [txt "!AIVDM", [], txt "1", [], txt "B", txt "15", txt "0*10"] ∧
      3 ≤ (txt "!AIVDM").length ∧ decimal [] = false) ∧
    (split comma (txt "!AIVDM,1,1,,B,15,0*2") =
        [txt "!AIVDM", txt "1", txt "1", [], txt "B", txt "15", txt "0*2"] ∧ decimal (txt "1") = true) ∧
    (let p := parts "1" "1" "" "a" '0' '2'
     spelled p 0x02 0 ∧ 1 ≤ p.indexOf ∧ p.indexOf ≤ p.countOf ∧ p.channel ≠ blank.cfg.channel1 ∧
       p.channel ≠ blank.cfg.channel2) := by
  simp only [spelled]
  exact ⟨by decide, by decide, by decide, by decide, by decide⟩
/-- A field that ends with no `'*'` and two bytes meets the hypothesis of the CKFIELD clause. -/
theorem witness_ckField : ∀ pad h l, txt "0*2" = pad ++ [asterisk, h, l] →
    hexVal .both h = none ∨ hexVal .both l = none := by
  intro pad h l e
  have hl : 3 = pad.length + 3 := by simpa [txt] using congrArg List.length e
  have hp : pad = [] := List.length_eq_zero_iff.1 (by omega)
  rw [hp] at e
  exact absurd (Option.some.inj (congrArg List.head? e)) (by decide)
theorem witness_OtherFramesPassThrough :
    (txt "$").head? = some dollar ∧ (txt "# n").head? = some hashSign ∧
    (txt "").head? ≠ some bang ∧ (txt "A!").head? ≠ some bang ∧ (txt "A!").head? ≠ some dollar ∧
    (txt "A!").head? ≠ some hashSign := by decide
/-- V40 row 36. -/
theorem witness_ParsedSentenceGuarantees :
    parse Config.default (txt "!AIVDM,2,1,3,A,15,0*12") = .sentence (.encapsulated
      ⟨txt "!AIVDM,2,1,3,A,15,0*12", txt "AI", txt "VDM", 2, 1, txt "3", txt "A", txt "15", 0x12⟩) ∧
    ∃ t, exec (.rsmPush (.encapsulated (frag "3" 1 2 "A" "15"))) blank = .next t := ⟨by decide, ⟨_, rfl⟩⟩
/-- V50 sequence g. -/
theorem witness_SelfContainedIsEmittedAtOnce :
    let f := frag "" 1 1 "A" "ZZ"
    f.partCount = 1 ∧ f.seqId = [] ∧ f.partIndex = 1 ∧ exceeds blank.cfg.partsMax 1 = false ∧
    exceeds blank.cfg.lineMax f.raw.length = false := by decide
/-- V50 sequence a: the first, the second and the last push. -/
theorem witness_FragmentIsAppendedOrCompletes :
    (let f := frag "3" 1 3 "A" "AAA"
     f.seqId ≠ [] ∧ 1 < f.partCount ∧ blank.q = [] ∧ f.partIndex = 1 ∧ f.partIndex ≠ f.partCount) ∧
    (let f := frag "3" 3 3 "A" "C"
     f.partIndex ≤ f.partCount ∧ [frag "3" 2 3 "A" "BB"].getLast? = some (frag "3" 2 3 "A" "BB") ∧
     f.partIndex = (frag "3" 2 3 "A" "BB").partIndex + 1 ∧ f.partIndex = f.partCount) ∧
    sameMessage (frag "3" 2 3 "A" "BB") (frag "3" 3 3 "A" "C") :=
  ⟨by decide, by decide, rfl, rfl, rfl, rfl, rfl⟩
/-- V50 sequences h and e. -/
theorem witness_BrokenSequenceRestarts :
    [frag "3" 1 2 "A" "AAA"].getLast? = some (frag "3" 1 2 "A" "AAA") ∧
    ¬(sameMessage (frag "3" 1 2 "A" "AAA") (frag "3" 2 2 "B" "BB") ∧
      (frag "3" 2 2 "B" "BB").partIndex = (frag "3" 1 2 "A" "AAA").partIndex + 1) ∧
    blank.q = [] ∧ (frag "3" 2 2 "A" "BB").partIndex ≠ 1 :=
  ⟨rfl, fun h => absurd h.1.2.2.1 (by decide), rfl, by decide⟩
/-- V50 sequences m, n, o, p, an index above the count, and a Sentence that parses. -/
theorem witness_OtherShapesAreReassemblyErrors :
    (Sentence.delimited []).kind ≠ .encapsulated ∧
    ((frag "3" 1 1 "A" "Q").partCount = 1 ∧ (frag "3" 1 1 "A" "Q").seqId ≠ []) ∧
    (1 < (frag "" 1 2 "A" "Q").partCount ∧ (frag "" 1 2 "A" "Q").seqId = []) ∧
    (frag "" 1 0 "A" "Q").partCount = 0 ∧ (frag "3" 0 2 "A" "Q").partIndex < 1 ∧
    (frag "3" 3 2 "A" "Q").partCount < (frag "3" 3 2 "A" "Q").partIndex ∧
    exceeds blank.cfg.partsMax 2 = false := by decide
theorem witness_EmittedTextIsAWholeMessage :
    queueOk (queued [frag "3" 1 3 "A" "AAA"]).q ∧
    ∃ t, exec (.rsmPush (.encapsulated (frag "" 1 1 "A" "ZZ"))) (queued [frag "3" 1 3 "A" "AAA"]) = .next t ∧
      t.result = .ok (.text (some (txt "ZZ"))) := ⟨witness_queueOk, _, rfl, by decide⟩
theorem witness_PartsInOrderAndPartsSkipped :
    blank.q = [] ∧ unbounded blank.cfg ∧ sameMessage (frag "3" 1 3 "A" "AAA") (frag "3" 2 3 "A" "BB") ∧
    sameMessage (frag "3" 2 3 "A" "BB") (frag "3" 3 3 "A" "C") ∧ (frag "3" 1 3 "A" "AAA").seqId ≠ [] :=
  ⟨rfl, ⟨rfl, rfl, rfl⟩, ⟨rfl, rfl, rfl, rfl, rfl⟩, ⟨rfl, rfl, rfl, rfl, rfl⟩, by decide⟩
/-- V50 sequence b: a discard that is no completion; and a self-contained sentence whose text is that of the queue. -/
theorem witness_EveryDiscardIsReported :
    ∃ t, exec (.rsmPush (.encapsulated (frag "3" 3 3 "A" "C"))) (queued [frag "3" 1 3 "A" "AAA"]) = .next t ∧
      (queued [frag "3" 1 3 "A" "AAA"]).q ≠ [] ∧ t.result = .ok (.text none) ∧
      t.q ≠ (queued [frag "3" 1 3 "A" "AAA"]).q ++ [frag "3" 3 3 "A" "C"] ∧
      ∃ u, exec (.rsmPush (.encapsulated (frag "" 1 1 "A" "C"))) (queued [frag "3" 1 3 "A" ""]) = .next u ∧
        u.result = .ok (.text (some (txt "C"))) ∧ u.q = [] ∧ selfContained (frag "" 1 1 "A" "C") = true :=
  ⟨_, rfl, by decide, by decide, by decide, _, rfl, by decide, by decide, by decide⟩
/-- V34 rows 2, 3, 5, 6, 7: the ends of the three ranges. -/
theorem witness_UnsupportedTypesGiveAnEmptyMap :
    ∀ p ∈ [("0", 0), ("4", 4), ("K", 27), ("L", 28), ("w", 63)],
      (loaded (txt p.1) 0).bv = true ∧ (loaded (txt p.1) 0).cur = 0 ∧ 6 ≤ (loaded (txt p.1) 0).len ∧
      p.2 = uint (loaded (txt p.1) 0).cfg.bitOrder (bitsAt (loaded (txt p.1) 0).buf 0 6) := by decide
theorem witness_ClassAFieldsByAddress :
    (loaded refText 6).bv = true ∧ (loaded refText 6).cur = 6 ∧ (loaded refText 6).len = 168 := by decide
theorem witness_ClassAMessagesAreDispatched :
    (loaded refText 0).bv = true ∧ (loaded refText 0).cur = 0 ∧ (loaded refText 0).len = 168 ∧
    1 = uint (loaded refText 0).cfg.bitOrder (bitsAt (loaded refText 0).buf 0 6) := by decide
/-- V34 rows 10, 14 and 15, for both operations. -/
theorem witness_ClassAOfAnotherLengthFails :
    ∀ t ∈ [txt "1", refText.take 27, refText ++ txt "0"], (loaded t 6).bv = true ∧ (loaded t 6).cur = 6 ∧
      (loaded t 6).cur ≤ (loaded t 6).len ∧ ((loaded t 6).len < 168 ∨ 168 < (loaded t 6).len) ∧
      (loaded t 0).cur = 0 ∧ 6 ≤ (loaded t 0).len ∧
      1 = uint (loaded t 0).cfg.bitOrder (bitsAt (loaded t 0).buf 0 6) := by decide
theorem witness_DecoderPreconditions :
    (blank.bv = false ∧ Instr.fdcPosa ∈ [Instr.dspDisp, .fdcPosa]) ∧
    ((loaded (txt "15") 1).bv = true ∧ (loaded (txt "15") 1).cur ≠ 0) ∧
    ((loaded (txt "15") 5).bv = true ∧ (loaded (txt "15") 5).cur ≠ 6) ∧
    ((loaded [] 0).bv = true ∧ (loaded [] 0).cur = 0 ∧ (loaded [] 0).len < 6) := by decide
theorem witness_RateOfTurn : (-126 : Int) ≤ -126 ∧ (126 : Int) ≤ 126 := by decide
theorem witness_PositionScalingAndSentinels : (108600001 : Int) ≠ 108600000 ∧ (54599999 : Int) ≠ 54600000 := by decide
theorem witness_SpeedCourseAndHeading : 1023 ≤ 1023 ∧ 4095 ≤ 4095 ∧ 4095 ≠ 3600 ∧ 510 < 511 := by decide
theorem witness_TimestampReconciliation :
    60 ≤ 60 ∧ 63 ≤ 63 ∧ 59 < 60 ∧ (29 : Int) = 60 * (((0 : BitVec 64).toNat : Int) / 60) + 29 ∧
    (29 : Int) - (0 : BitVec 64).toNat ≤ 30 := by decide
/-- Two states that differ in the type bits, the queue and, for V31's time-stamp code 60, in `NOW`. -/
theorem witness_DecoderIsPure :
    let s1 := loaded (txt "1img=5OP?wdtSF0l4Q@>4?wp0000") 6
    let s2 := { loaded (txt "2img=5OP?wdtSF0l4Q@>4?wp0000") 6 with now := 5, q := [frag "3" 1 3 "A" "AAA"] }
    s1.cfg.bitOrder = s2.cfg.bitOrder ∧ s1.bv = true ∧ s2.bv = true ∧ s1.cur = 6 ∧ s2.cur = 6 ∧
    s1.len = s2.len ∧ s1.buf.drop 6 = s2.buf.drop 6 ∧
    60 ≤ uint s1.cfg.bitOrder (bitsAt s1.buf 137 6) := by decide
/-- V70 row 4. -/
theorem witness_FramerReturnsTheCompletedLines :
    (∀ l ∈ [txt "a\r", txt "b"], LF ∉ l) ∧ LF ∉ txt "c" ∧
    blank.carry ++ txt "a\r\nb\nc" = ([txt "a\r", txt "b"].flatMap fun l => l ++ [LF]) ++ txt "c" ∧
    (∀ l ∈ txt "c" :: [txt "a\r", txt "b"], exceeds blank.cfg.lineMax l.length = false) := by decide
theorem witness_FramerChunkingDoesNotMatter : unbounded blank.cfg := ⟨rfl, rfl, rfl⟩
theorem witness_EndOfStreamOperations : blank.src = .opened := rfl
theorem witness_NothingMoreAfterTheEnd :
    { blank with src := .failed }.src ≠ .opened ∧ Instr.topEos ∈ [Instr.topFeed [], .topEos, .topSrcerr] := by decide
/-- The three clauses: an open source, what FRM.PUSH gives, a chunk that completes no line. -/
theorem witness_FeedAlwaysCompletes :
    unbounded blank.cfg ∧ blank.src = .opened ∧
    (∃ t, exec (.frmPush (txt "a\n")) blank = .next t ∧ t.result = .ok (.lines [txt "a"])) ∧
    LF ∉ blank.carry ∧ LF ∉ txt "a" := ⟨⟨rfl, rfl, rfl⟩, rfl, ⟨_, rfl, by decide⟩, by decide, by decide⟩
/-- The line is open to every clause: V40 row 38 (ABR.LOAD fails), V40 row 5 and V40 row 24. -/
theorem witness_FeedingALineIsTheUnitOperationsInOrder :
    unbounded blank.cfg ∧ blank.src = .opened ∧ blank.carry = [] ∧
    (let l := txt "!AIVDM,1,1,,A,1 5,0*02"
     LF ∉ l ∧ l ≠ [] ∧ l.getLast? ≠ some CR ∧
     (after (.rsmPush (.encapsulated (frag "" 1 1 "A" "1 5"))) blank).result = .ok (.text (some (txt "1 5"))) ∧
     (after (.abrLoad (txt "1 5")) blank).result = .err (.parse .armor)) ∧
    (after (.parParse (txt "$")) blank).result = .ok (.sentence (.delimited (txt "$"))) ∧
    (after (.parParse (txt "x")) blank).result = .err (.parse .marker) ∧
    (after (.rsmPush (.encapsulated (frag "3" 1 2 "A" "15"))) blank).result = .ok (.text none) ∧
    (after .dspDisp (loaded (txt "1") 0)).result = .err (.decode .underrun) ∧
    (after .dspDisp (loaded (txt "K") 0)).result = .ok (.message ⟨27, []⟩) :=
  ⟨⟨rfl, rfl, rfl⟩, by decide⟩
theorem witness_FeedChunkingDoesNotMatter : unbounded blank.cfg ∧ blank.src = .opened := ⟨⟨rfl, rfl, rfl⟩, rfl⟩
/-- P4 step 10 in small: an event and a message together. -/
theorem witness_ItemsOfOneLine :
    ∃ t, process (txt "!AIVDM,1,1,,A,;,0*1D") (queued [frag "3" 1 2 "A" "AAA"]) =
      .ok [.event .preempt, .message ⟨11, []⟩] t := ⟨_, rfl⟩
/-- A session that runs an operation beside an idle one, and one whose step is refused. -/
theorem witness_SessionsAreIndependent :
    (∃ ss', stepSession 1 (#v[blank, blank.withFetchWord 16 0x6100] : Sessions 1) = .next ss') ∧
    (∃ t, step (#v[blank, blank.withFetchWord 16 0x6100] : Sessions 1)[1] = .next t) ∧
    (∃ r, step (#v[{ tiny with pending := [.issue (encode (.parParse (txt "abc")))] }] : Sessions 0)[0] =
      .refused r) := ⟨⟨_, rfl⟩, ⟨_, rfl⟩, ⟨_, rfl⟩⟩
/-- Every clause: a next state, exact rationals, a field map under a machine format, an error. -/
theorem witness_RealFormatIsRenderingOnly :
    (∃ t, exec .fdcPosa (loaded refText 6) = .next t ∧ ∃ m, t.result = .ok (.fieldMap m) ∧
      m[1]? = some (.mmsi, .int 477553000)) ∧
    blank.cfg.realFormat = .exact ∧
    { blank with result := .err (.decode .trailing) }.result = .err (.decode .trailing) :=
  ⟨⟨_, rfl, _, rfl, by decide⟩, by decide, by decide⟩

end Sys2Proof.Tests
end

section
/-! ### Without finite capacities no operation is refused (spec/00_scope.md R9) -/

namespace Sys2Proof.Machine

theorem parParse_runs (line : Text) (s : State) (h : unbounded s.cfg) : (parParse line s).Runs := by
  unfold parParse
  cases hx : parse s.cfg line with
  | sentence snt => trivial
  | error c => trivial
  | refused r => exact absurd hx (parse_runs s.cfg line h r)

theorem frmPush_runs (chunk : Text) (s : State) (h : unbounded s.cfg) : (frmPush chunk s).Runs := by
  rw [frmPush_unbounded chunk s h]
  trivial

theorem topEos_runs (s : State) : (topEos s).Runs := by
  unfold topEos
  split <;> trivial

theorem topSrcerr_runs (s : State) : (topSrcerr s).Runs := by
  unfold topSrcerr
  split <;> trivial

/-- Settles O13, one operation at a time: none of them answers a refusal. -/
theorem nothingRefusedWhenUnbounded : Obligations.NothingRefusedWhenUnbounded := by
  intro i s hu
  cases i with
  | abrLoad t => exact (abrLoad_runs t s hu).outcome _ _
  | abrRdu n => exact Ret.Runs.outcome _ _ (readLatch_runs ..)
  | abrRdi n => exact Ret.Runs.outcome _ _ (readLatch_runs ..)
  | abrRdb => exact Ret.Runs.outcome _ _ (readLatch_runs ..)
  | abrRdr n => exact Ret.Runs.outcome _ _ (readLatch_runs ..)
  | abrAex => exact (abrAex_runs s).outcome _ _
  | parParse l => exact (parParse_runs l s hu).outcome _ _
  | rsmPush snt => exact (rsmPush_runs snt s hu).outcome _ _
  | dspDisp => exact (dspDisp_runs s).outcome _ _
  | fdcPosa => exact (fdcPosa_runs s).outcome _ _
  | frmPush c => exact (frmPush_runs c s hu).outcome _ _
  | frmEos => exact ⟨_, rfl⟩
  | topFeed c => exact (topFeed_runs c s hu).outcome _ _
  | topEos => exact (topEos_runs s).outcome _ _
  | topSrcerr => exact (topSrcerr_runs s).outcome _ _

end Sys2Proof.Machine
end

section
/-! ### Beyond a finite capacity an input is refused (spec/00_scope.md R9) -/

namespace Sys2Proof.Machine

theorem exceeds_of_lt {cap : Option Nat} {m n : Nat} (hc : cap = some m) (h : m < n) : exceeds cap n = true := by
  subst hc
  exact decide_eq_true h

theorem loadMax_some {c : Config} {f p : Nat} (hf : c.fragMax = some f) (hp : c.partsMax = some p) :
    loadMax c = some (f * p) := by
  simp only [loadMax, hf, hp]

/-- The operation is refused exactly when the answer it is made of is. -/
theorem Ret.outcome_eq_refused {α : Type} {val : α → Val} {ev : α → List BreakCause} {r : Ret α} {w : Refusal} :
    r.outcome val ev = .refused w ↔ r = .refused w := by
  cases r <;> simp

theorem abrLoad_over {t : Text} {s : State} (h : exceeds (loadMax s.cfg) t.length = true) :
    abrLoad t s = .refused .overLoadMax := if_pos h

theorem parse_over {c : Config} {l : Text} (h : exceeds c.lineMax l.length = true) :
    parse c l = .refused .overLineMax := if_pos h

theorem parParse_eq_refused {l : Text} {s : State} {r : Refusal} :
    parParse l s = .refused r ↔ parse s.cfg l = .refused r := by
  unfold parParse
  cases parse s.cfg l <;> simp

/-- A part count beyond `PARTS_MAX` is met once the checksum agrees (R110). -/
theorem parse_line_overParts {c : Config} {p : LineParts} {ck : Byte} (h : p.fieldsOk) (hs : p.states c.hexCase ck)
    (hx : xorAll p.span = ck) (hl : exceeds c.lineMax p.line.length = false)
    (hp : exceeds c.partsMax p.countOf = true) : parse c p.line = .refused .overPartsMax := by
  rw [parse_line h hs hl, if_neg (not_not.2 hx), if_pos hp]

/-- A payload beyond `FRAG_MAX` is met after every other check (R110). -/
theorem parse_line_overFrag {c : Config} {p : LineParts} {ck : Byte} (h : p.fieldsOk) (hs : p.states c.hexCase ck)
    (hx : xorAll p.span = ck) (hl : exceeds c.lineMax p.line.length = false)
    (hp : exceeds c.partsMax p.countOf = false) (hi : 1 ≤ p.indexOf ∧ p.indexOf ≤ p.countOf)
    (hc : inChannelSet c p.channel = true) (hq : p.seqId ≠ [] ↔ 1 < p.countOf)
    (hf : exceeds c.fragMax p.payload.length = true) : parse c p.line = .refused .overFragMax := by
  rw [parse_line h hs hl, if_neg (not_not.2 hx), if_neg (Bool.eq_false_iff.1 hp), if_neg (not_not.2 hi),
    if_neg (by simp [hc]), if_neg (not_not.2 hq), if_pos hf]

theorem frmPush_over {c x : Text} {s : State} (hx : x ∈ split LF (s.carry ++ c))
    (h : exceeds s.cfg.lineMax x.length = true) : frmPush c s = .refused .overLineMax :=
  if_pos (List.any_eq_true.2 ⟨x, hx, h⟩)

theorem overCapacity_line {c : Config} {snt : Sentence} (h : exceeds c.lineMax snt.raw.length = true) :
    overCapacity c snt = some .overLineMax := if_pos h

theorem overCapacity_parts {c : Config} {g : Fragment} (hl : exceeds c.lineMax g.raw.length = false)
    (hp : exceeds c.partsMax g.partCount = true) : overCapacity c (.encapsulated g) = some .overPartsMax := by
  simp only [overCapacity, Sentence.raw, hl, hp]
  rfl

theorem overCapacity_frag {c : Config} {g : Fragment} (hl : exceeds c.lineMax g.raw.length = false)
    (hp : exceeds c.partsMax g.partCount = false) (hf : exceeds c.fragMax g.payload.length = true) :
    overCapacity c (.encapsulated g) = some .overFragMax := by
  simp only [overCapacity, Sentence.raw, hl, hp, hf]
  rfl

theorem topFeed_opened {s : State} (ho : s.src = .opened) (c : Text) :
    topFeed c s = (frmPush c s).bind processAll := if_neg (not_not.2 ho)

theorem Processes.cfg_eq {s t : State} (h : Processes s t) : t.cfg = s.cfg := by
  obtain ⟨_, _, _, _, _, _, rfl⟩ := h
  rfl

theorem process_refused {l : Text} {s : State} {r : Refusal} (h : parse s.cfg l = .refused r) :
    process l s = .refused r := by
  simp only [process, h]

/-- Among lines one of which the parser refuses, the first refusal met ends the processing. -/
theorem processAll_refused {l : Text} {r : Refusal} (before after : List Text) {s : State}
    (h : parse s.cfg l = .refused r) :
    ∃ r', processAll (before ++ l :: after) s = .refused r' ∧ (before = [] → r' = r) := by
  induction before generalizing s with
  | nil => exact ⟨r, by rw [List.nil_append, processAll, process_refused h, Ret.bind_refused], fun _ => rfl⟩
  | cons b bs ih =>
    rw [List.cons_append, processAll]
    have hb := process_processes b s
    cases hx : process b s with
    | refused w => exact ⟨w, rfl, fun e => nomatch e⟩
    | err e s1 => exact absurd hx (process_never_errs b s s1 e)
    | ok v s1 =>
      rw [hx] at hb
      obtain ⟨r', h', -⟩ := ih (s := s1) (by rw [hb.cfg_eq, h])
      exact ⟨r', by rw [Ret.bind_ok, h', Ret.bind_refused], fun e => nomatch e⟩

/-- FRM.PUSH that returns lines changed `CARRY` only. -/
theorem execFrmPush_lines {c : Text} {s t : State} {ls : List Text} (h : exec (.frmPush c) s = .next t)
    (hl : t.result = .ok (.lines ls)) : ∃ k, frmPush c s = .ok ls (s.setCarry k) := by
  obtain ⟨v, s1, hr, rfl⟩ | ⟨e, s1, _, rfl⟩ := Ret.outcome_next h
  · cases hl
    simp only [frmPush] at hr ⊢
    split at hr
    · cases hr
    · rename_i hn
      cases hr
      exact ⟨_, if_neg hn⟩
  · cases hl

/-- Settles O14, clause by clause: each size check is met, on the path its clause describes. -/
theorem inputsBeyondCapacityAreRefused : Obligations.InputsBeyondCapacityAreRefused := by
  refine ⟨fun s t f p hf hp hlt => ?load, fun s l m hm hlt => ?line, fun s p ck m h hs hx hl =>
    ⟨fun hm hlt => ?parts, fun hp h1 h2 hc hq hm hlt => ?payload⟩, fun s c x m hm hx hlt => ?token,
    fun s snt m hm hlt => ?raw, fun s g m hl => ⟨fun hm hlt => ?count, fun hp hm hlt => ?frag⟩,
    fun s c x m ho hm hx hlt => ?feedToken, fun s t c l before after r ho ht hr hl => ?feedLine⟩
  case load => exact Ret.outcome_eq_refused.2 (abrLoad_over (exceeds_of_lt (loadMax_some hf hp) hlt))
  case line =>
    exact Ret.outcome_eq_refused.2 (parParse_eq_refused.2 (parse_over (exceeds_of_lt hm hlt)))
  case parts =>
    exact Ret.outcome_eq_refused.2
      (parParse_eq_refused.2 (parse_line_overParts h hs hx hl (exceeds_of_lt hm hlt)))
  case payload =>
    exact Ret.outcome_eq_refused.2
      (parParse_eq_refused.2 (parse_line_overFrag h hs hx hl hp ⟨h1, h2⟩ hc hq (exceeds_of_lt hm hlt)))
  case token => exact Ret.outcome_eq_refused.2 (frmPush_over hx (exceeds_of_lt hm hlt))
  case raw => exact Ret.outcome_eq_refused.2 (rsmPush_over (overCapacity_line (exceeds_of_lt hm hlt)))
  case count => exact Ret.outcome_eq_refused.2 (rsmPush_over (overCapacity_parts hl (exceeds_of_lt hm hlt)))
  case frag => exact Ret.outcome_eq_refused.2 (rsmPush_over (overCapacity_frag hl hp (exceeds_of_lt hm hlt)))
  case feedToken =>
    refine Ret.outcome_eq_refused.2 ?_
    rw [topFeed_opened ho, frmPush_over hx (exceeds_of_lt hm hlt), Ret.bind_refused]
  case feedLine =>
    obtain ⟨k, hk⟩ := execFrmPush_lines ht hr
    have hp : parse s.cfg l = .refused r := parParse_eq_refused.1 (Ret.outcome_eq_refused.1 hl)
    obtain ⟨r', h', hn⟩ := processAll_refused (s := s.setCarry k) before after hp
    refine ⟨r', Ret.outcome_eq_refused.2 ?_, hn⟩
    rw [topFeed_opened ho, hk, Ret.bind_ok, h']

end Sys2Proof.Machine
end

section
/-! ### `REAL_FORMAT` is seen by no operation, and at the port by no value but a `Real` (spec/00_scope.md R8, R16) -/

namespace Sys2Proof.Machine

/-- An operation whose answer under another format is the same but for the format ends in the same state but for
the format. -/
theorem Ret.outcome_withFormat {α : Type} {val : α → Val} {ev : α → List BreakCause} {f : RealFormat}
    {x y : Ret α} {t : State} (hxy : y = x.mapState (State.withFormat f)) (h : x.outcome val ev = .next t) :
    y.outcome val ev = .next (t.withFormat f) := by
  subst hxy
  obtain ⟨v, s, rfl, rfl⟩ | ⟨e, s, rfl, rfl⟩ := Ret.outcome_next h
  · rfl
  · rfl

theorem parParse_withFormat (f : RealFormat) (l : Text) (s : State) :
    parParse l (s.withFormat f) = (parParse l s).mapState (State.withFormat f) := by
  unfold parParse
  rw [(withFormat_transparent f).parse]
  cases parse s.cfg l <;> rfl

theorem frmPush_withFormat (f : RealFormat) (c : Text) (s : State) :
    frmPush c (s.withFormat f) = (frmPush c s).mapState (State.withFormat f) := by
  unfold frmPush
  rw [apply_ite (Ret.mapState (State.withFormat f))]
  rfl

theorem topFeed_withFormat (f : RealFormat) (c : Text) (s : State) :
    topFeed c (s.withFormat f) = (topFeed c s).mapState (State.withFormat f) := by
  have hsrc : (s.withFormat f).src = s.src := rfl
  unfold topFeed
  rw [hsrc, frmPush_withFormat]
  split
  · rfl
  · exact mapState_bind _ _ _ (withFormat_transparent f).processAll

theorem topEos_withFormat (f : RealFormat) (s : State) :
    topEos (s.withFormat f) = (topEos s).mapState (State.withFormat f) := by
  unfold topEos
  rw [apply_ite (Ret.mapState (State.withFormat f))]
  rfl

theorem topSrcerr_withFormat (f : RealFormat) (s : State) :
    topSrcerr (s.withFormat f) = (topSrcerr s).mapState (State.withFormat f) := by
  unfold topSrcerr
  rw [apply_ite (Ret.mapState (State.withFormat f))]
  rfl

/-- An operation does the same under every format. -/
theorem exec_withFormat (i : Instr) {s t : State} (f : RealFormat) (h : exec i s = .next t) :
    exec i (s.withFormat f) = .next (t.withFormat f) := by
  have hg := withFormat_transparent f
  cases i with
  | abrLoad text => exact Ret.outcome_withFormat (hg.abrLoad text s) h
  | abrRdu n => exact Ret.outcome_withFormat (hg.readLatch ..) h
  | abrRdi n => exact Ret.outcome_withFormat (hg.readLatch ..) h
  | abrRdb => exact Ret.outcome_withFormat (hg.readLatch ..) h
  | abrRdr n => exact Ret.outcome_withFormat (hg.readLatch ..) h
  | abrAex => exact Ret.outcome_withFormat (hg.abrAex s) h
  | parParse l => exact Ret.outcome_withFormat (parParse_withFormat f l s) h
  | rsmPush snt => exact Ret.outcome_withFormat (hg.rsmPush snt s) h
  | dspDisp => exact Ret.outcome_withFormat (hg.dspDisp s) h
  | fdcPosa => exact Ret.outcome_withFormat (hg.fdcPosa s) h
  | frmPush c => exact Ret.outcome_withFormat (frmPush_withFormat f c s) h
  | frmEos =>
    cases h
    rfl
  | topFeed c => exact Ret.outcome_withFormat (topFeed_withFormat f c s) h
  | topEos => exact Ret.outcome_withFormat (topEos_withFormat f s) h
  | topSrcerr => exact Ret.outcome_withFormat (topSrcerr_withFormat f s) h

/-! What the port shows -/

theorem Value.shown_of_not_real (f : RealFormat) {v : Value} (h : ∀ q, v ≠ .real q) : v.shown f = v := by
  cases v with
  | real q => exact absurd rfl (h q)
  | _ => rfl

@[simp] theorem Value.shown_exact (v : Value) : v.shown .exact = v := by
  cases v <;> rfl

@[simp] theorem showFields_exact (m : FieldMap) : showFields .exact m = m := by
  simp [showFields]

@[simp] theorem DecodedMessage.shown_exact (m : DecodedMessage) : m.shown .exact = m := by
  simp [DecodedMessage.shown]

@[simp] theorem Item.shown_exact (i : Item) : i.shown .exact = i := by
  cases i <;> simp [Item.shown]

@[simp] theorem Val.shown_exact (v : Val) : v.shown .exact = v := by
  cases v <;> simp [Val.shown, funext Item.shown_exact]

@[simp] theorem Result.shown_exact (r : Result) : r.shown .exact = r := by
  cases r <;> simp [Result.shown]

/-- A field map is shown with the same names in the same order. -/
theorem showFields_names (f : RealFormat) (m : FieldMap) : (showFields f m).map (·.1) = m.map (·.1) := by
  simp [showFields]

/-- A value that is no `Real` is shown as it is, in its place. -/
theorem showFields_getElem? (f : RealFormat) {m : FieldMap} {k : Nat} {n : FieldName} {v : Value}
    (h : m[k]? = some (n, v)) (hv : ∀ q, v ≠ .real q) : (showFields f m)[k]? = some (n, v) := by
  simp [showFields, h, Value.shown_of_not_real f hv]

/-- Settles O59: no operation looks at `REAL_FORMAT`, and the port renders only the `Real` values. -/
theorem realFormatIsRenderingOnly : Obligations.RealFormatIsRenderingOnly := by
  refine ⟨fun i s t f h => exec_withFormat i f h, fun s h => ?exact, fun s m h => ?fields, fun s e h => ?error⟩
  case exact => rw [State.port, h, Result.shown_exact]
  case fields =>
    refine ⟨showFields s.cfg.realFormat m, ?_, showFields_names _ m, fun k n v => showFields_getElem? _⟩
    rw [State.port, h]
    rfl
  case error =>
    rw [State.port, h]
    rfl

end Sys2Proof.Machine
end

section
/-! ### What a step does, by what the host asks next (spec/60_exceptions.md R244, 30_encoding.md R75, R77) -/

namespace Sys2Proof.Machine

section

variable {s : State} {rest : List HostAct}

theorem step_idle (h : s.pending = []) : step s = .next s := by
  simp only [step, fetch, h]

theorem step_writeNow {t : BitVec 64} (h : s.pending = .writeNow t :: rest) :
    step s = .next ((s.setPending rest).writeNow t) := by
  simp only [step, fetch, h]

theorem step_reset (h : s.pending = .reset :: rest) :
    step s = .next (State.resetWith s.cfg (s.resets + 1) rest) := by
  simp only [step, fetch, h]

theorem step_issue {r : Request} {i : Instr} (h : s.pending = .issue r :: rest) (hd : decode r = .ok i) :
    step s = exec i (s.setPending rest) := by
  simp only [step, fetch_issue h hd]

theorem step_reserved {r : Request} {e : Reject} (h : s.pending = .issue r :: rest) (hd : decode r = .error e) :
    step s = .next ((s.setPending rest).takeError (.illegal .opcode)) := by
  simp only [step, fetch, h, hd]

end

/-- Settles O6, one host action at a time. -/
theorem hostActionsBetweenOperations : Obligations.HostActionsBetweenOperations :=
  ⟨fun _ => step_idle, fun _ _ _ => step_writeNow,
    fun _ _ hp => ⟨_, step_reset hp, rfl, rfl, rfl, rfl, rfl, rfl, rfl, rfl, rfl⟩,
    fun _ hc hp => ⟨_, step_reset hp, rfl, rfl, rfl, rfl, rfl, hc⟩⟩

end Sys2Proof.Machine
end

section
/-! ### The invariants hold at reset and every step keeps them (spec/10_state.md R20 to R29) -/

namespace Sys2Proof.Machine

/-- The fragment that comes next joins the queue, as long as it is not the last part. -/
theorem queueOk_snoc {q : List Fragment} {f : Fragment} (hq : queueOk q) (hf : isFragment f = true)
    (hi : f.partIndex = q.length + 1) (hs : ∀ g ∈ q, sameMessage g f) (hn : f.partIndex ≠ f.partCount) :
    queueOk (q ++ [f]) := by
  obtain ⟨hid, hc, -, hle⟩ := (isFragment_iff f).1 hf
  have hlt : (q ++ [f]).length < f.partCount := by
    rw [List.length_append, List.length_singleton]
    omega
  have same_as : ∀ g, sameMessage g f → ∀ k ∈ q ++ [f], sameMessage g k := by
    intro g hg k hk
    obtain hk | hk := List.mem_append.1 hk
    · exact sameMessage_trans hg (sameMessage_symm (hs k hk))
    · exact List.mem_singleton.1 hk ▸ hg
  intro j g hg
  by_cases hj : j < q.length
  · rw [List.getElem?_append_left hj] at hg
    obtain ⟨gid, gc, gi, -, -⟩ := hq j g hg
    have hgf := hs g (List.mem_of_getElem? hg)
    have ⟨_, _, _, _, hcount⟩ := hgf
    exact ⟨gid, gc, gi, hcount ▸ hlt, same_as g hgf⟩
  · rw [List.getElem?_append_right (by omega), List.getElem?_singleton] at hg
    split at hg
    · cases hg
      exact ⟨hid, hc, by omega, hlt, same_as f (sameMessage_refl f)⟩
    · cases hg

/-- A fragment that continues the last of the queue has the next part index and belongs to the queue's message. -/
theorem continues_queue {q : List Fragment} {p f : Fragment} (hq : queueOk q) (hp : q.getLast? = some p)
    (hc : continues p f = true) : f.partIndex = q.length + 1 ∧ ∀ g ∈ q, sameMessage g f := by
  obtain ⟨hpf, hi⟩ := (continues_iff p f).1 hc
  rw [List.getLast?_eq_getElem?] at hp
  obtain ⟨-, -, pi, -, ps⟩ := hq _ p hp
  have hlt := (List.getElem?_eq_some_iff.1 hp).1
  exact ⟨by omega, fun g hg => sameMessage_trans (sameMessage_symm (ps g hg)) hpf⟩

/-- A queue that a fragment does not break, and that it can start or continue, takes the fragment. -/
theorem queueOk_of_not_breaks {q : List Fragment} {f : Fragment} (hq : queueOk q) (hf : isFragment f = true)
    (hb : breaks q f = false) (hs : ¬(q = [] ∧ f.partIndex ≠ 1)) (hn : f.partIndex ≠ f.partCount) :
    queueOk (q ++ [f]) := by
  obtain rfl | ⟨p, hp, hc⟩ := breaks_false hb
  · exact queueOk_snoc hq hf (by simpa using hs) (by simp) hn
  · obtain ⟨hi, hm⟩ := continues_queue hq hp hc
    exact queueOk_snoc hq hf hi hm hn

/-- RSM.PUSH writes `Q` only, and keeps R28. -/
theorem rsmPush_queueOk (snt : Sentence) {s : State} (hq : queueOk s.q) :
    (rsmPush snt s).All fun t => ∃ q, queueOk q ∧ t = s.setQ q := by
  obtain ⟨_, _, h⟩ | h | ⟨_, _, _, h⟩ | ⟨f, _, hf, h⟩ := rsmPush_cases snt s <;> rw [h]
  · trivial
  · exact ⟨[], queueOk_nil, rfl⟩
  · exact ⟨[], queueOk_nil, rfl⟩
  · have hc := ((isFragment_iff f).1 hf).2.1
    obtain ⟨_, _, e⟩ | ⟨_, hi, e⟩ | ⟨_, _, e⟩ | ⟨_, _, _, e⟩ | ⟨hb, hs, hn, e⟩ := pushFragment_cases hf s <;> rw [e]
    · exact ⟨[], queueOk_nil, rfl⟩
    · exact ⟨[f], queueOk_snoc queueOk_nil hf hi (by simp) (by omega), rfl⟩
    · exact ⟨[], queueOk_nil, rfl⟩
    · exact ⟨[], queueOk_nil, rfl⟩
    · exact ⟨s.q ++ [f], queueOk_of_not_breaks hq hf hb hs hn, rfl⟩

/-- Every way an operation writes the state keeps the invariants. -/
theorem inv_kept : Kept Inv where
  read s n _ h hn := { h with
    cursor := by
      have := h.cursor
      simp only [cursorOk, State.setRes_cur, State.advance_cur, State.setRes_len, State.advance_len] at *
      omega }
  load _ _ _ h hb := { h with memory := dearmor_wf hb, cursor := Nat.zero_le _ }
  type _ _ h := { h with }
  push _ snt h := (rsmPush_queueOk snt h.queue).imp fun _ ⟨_, hq, ht⟩ => ht ▸ { h with queue := hq }
  carry _ _ h hk := { h with carry := hk }
  source _ _ h := { h with }
  port _ _ _ h := { h with status := rfl }

/-- Settles O7: the cursor's free value is taken modulo `LEN + 1`, and the free bits come six to a character. -/
theorem invHoldsAfterReset : Obligations.InvHoldsAfterReset := fun _ k _ =>
  { memory := freeBuf_wf k
    cursor := Nat.lt_succ_iff.1 (Nat.mod_lt _ (Nat.succ_pos _))
    queue := queueOk_nil
    carry := List.not_mem_nil
    status := rfl }

/-- Settles O8, by what the host asks: an operation keeps the invariants by `inv_kept`, a reset establishes them. -/
theorem stepKeepsInv : Obligations.StepKeepsInv := by
  intro s t hs ht
  have pend : ∀ rest, Inv (s.setPending rest) := fun _ => { hs with }
  cases hp : s.pending with
  | nil =>
    cases (step_idle hp).symm.trans ht
    exact hs
  | cons a rest =>
    cases a with
    | writeNow now =>
      cases (step_writeNow hp).symm.trans ht
      exact { pend rest with }
    | reset =>
      cases (step_reset hp).symm.trans ht
      exact invHoldsAfterReset ..
    | issue r =>
      cases hd : decode r with
      | ok i => exact exec_kept inv_kept i (pend rest) ((step_issue hp hd).symm.trans ht)
      | error e =>
        cases (step_reserved hp hd).symm.trans ht
        exact inv_kept.port _ _ _ (pend rest)

end Sys2Proof.Machine
end

section
/-! ### What each operation may write (spec/10_state.md R20, 00_scope.md R15) -/

namespace Sys2Proof.Machine

/-- The state an operation ends in is one its answer may carry, with the port written. -/
theorem Ret.All.respond {α : Type} {P : State → Prop} {r : Ret α} {val : α → Val} {ev : α → List BreakCause}
    {t : State} (h : r.All P) (ht : r.outcome val ev = .next t) : ∃ u w e, P u ∧ t = u.respond w e := by
  obtain ⟨v, u, rfl, rfl⟩ | ⟨e, u, rfl, rfl⟩ := Ret.outcome_next ht
  · exact ⟨u, _, _, h, rfl⟩
  · exact ⟨u, _, _, h, rfl⟩

/-- An operation that emits no event leaves no event on the port. -/
theorem Ret.All.respond_noEvents {α : Type} {P : State → Prop} {r : Ret α} {val : α → Val} {t : State}
    (h : r.All P) (ht : r.outcome val noEvents = .next t) : ∃ u w, P u ∧ t = u.respond w [] := by
  obtain ⟨v, u, rfl, rfl⟩ | ⟨e, u, rfl, rfl⟩ := Ret.outcome_next ht
  · exact ⟨u, _, h, rfl⟩
  · exact ⟨u, _, h, rfl⟩

/-- ABR.LOAD writes the whole buffer or nothing (R90). -/
theorem abrLoad_loadBuf (text : Text) (s : State) :
    (abrLoad text s).All fun t => t = s ∨ ∃ bits, t = s.loadBuf bits := by
  unfold abrLoad
  split
  · trivial
  · split
    · exact .inl rfl
    · exact .inr ⟨_, rfl⟩

/-- FRM.PUSH writes `CARRY` only (R190). -/
theorem frmPush_setCarry (chunk : Text) (s : State) : (frmPush chunk s).All fun t => ∃ k, t = s.setCarry k := by
  unfold frmPush
  dsimp only
  split
  · trivial
  · exact ⟨_, rfl⟩

/-- TOP.EOS drops the carry and ends an open source; it changes nothing once the source is closed (R211, R213). -/
theorem topEos_closes (s : State) : (topEos s).All fun t =>
    s.src ≠ .opened ∧ t = s ∨ s.src = .opened ∧ t = (s.setCarry []).setSrc .ended := by
  unfold topEos
  split
  · exact .inl ⟨by assumption, rfl⟩
  · exact .inr ⟨not_not.1 (by assumption), rfl⟩

/-- TOP.SRCERR fails an open source; it changes nothing once the source is closed (R212, R213). -/
theorem topSrcerr_closes (s : State) : (topSrcerr s).All fun t =>
    s.src ≠ .opened ∧ t = s ∨ s.src = .opened ∧ t = s.setSrc .failed := by
  unfold topSrcerr
  split
  · exact .inl ⟨by assumption, rfl⟩
  · exact .inr ⟨not_not.1 (by assumption), rfl⟩

/-- The frame of the reads and of FDC.POSA on the port. -/
theorem Ret.All.frame_of_reads {α : Type} {r : Ret α} {val : α → Val} {s t : State} (h : r.All (Reads s))
    (ht : r.outcome val noEvents = .next t) : t = { s with
      cur := t.cur, res := t.res, result := t.result, events := [], stat := t.stat } := by
  obtain ⟨_, _, ⟨_, _, rfl⟩, rfl⟩ := h.respond_noEvents ht
  rfl

/-- Settles O11, each operation by the lemma that says what it may write. -/
theorem eachOperationWritesOnlyItsElements : Obligations.EachOperationWritesOnlyItsElements := by
  intro i s t ht
  cases i with
  | abrLoad text =>
    obtain ⟨_, _, rfl | ⟨_, rfl⟩, rfl⟩ := (abrLoad_loadBuf text s).respond_noEvents ht <;> rfl
  | abrRdu n => exact (abrRdu_reads n s).frame_of_reads ht
  | abrRdi n => exact (abrRdi_reads n s).frame_of_reads ht
  | abrRdb => exact (abrRdb_reads s).frame_of_reads ht
  | abrRdr n => exact (abrRdr_reads n s).frame_of_reads ht
  | abrAex =>
    obtain ⟨_, _, rfl, rfl⟩ := (abrAex_all (P := (· = s)) rfl).respond_noEvents ht
    rfl
  | parParse line =>
    obtain ⟨_, _, rfl, rfl⟩ := (parParse_same line s).respond_noEvents ht
    rfl
  | rsmPush snt =>
    obtain ⟨_, _, _, ⟨_, rfl⟩, rfl⟩ := (rsmPush_setQ snt s).respond ht
    rfl
  | dspDisp =>
    obtain ⟨_, _, ⟨_, _, _, rfl⟩, rfl⟩ := (dspDisp_dispatches s).respond_noEvents ht
    rfl
  | fdcPosa => exact (fdcPosa_reads s).frame_of_reads ht
  | frmPush chunk =>
    obtain ⟨_, _, ⟨_, rfl⟩, rfl⟩ := (frmPush_setCarry chunk s).respond_noEvents ht
    rfl
  | frmEos =>
    cases ht
    rfl
  | topFeed chunk =>
    obtain ⟨_, _, _, ⟨_, _, _, _, _, _, _, rfl⟩, rfl⟩ := (topFeed_feeds chunk s).respond ht
    rfl
  | topEos =>
    obtain ⟨_, _, ⟨_, rfl⟩ | ⟨_, rfl⟩, rfl⟩ := (topEos_closes s).respond_noEvents ht <;> rfl
  | topSrcerr =>
    obtain ⟨_, _, ⟨_, rfl⟩ | ⟨_, rfl⟩, rfl⟩ := (topSrcerr_closes s).respond_noEvents ht <;> rfl

/-- The clock, the parameters and the host's requests stand. -/
def HostSide (s t : State) : Prop :=
  t.now = s.now ∧ t.cfg = s.cfg ∧ t.pending = s.pending ∧ t.resets = s.resets

/-- No way an operation writes the state reaches the host's side of it. -/
theorem hostSide_kept (s : State) : Kept (HostSide s) where
  read _ _ _ h _ := h
  load _ _ _ h _ := h
  type _ _ h := h
  push u snt h := (rsmPush_setQ snt u).imp fun _ ⟨_, ht⟩ => ht ▸ h
  carry _ _ h _ := h
  source _ _ h := h
  port _ _ _ h := h

/-- Settles O9: what no write reaches, no operation changes. -/
theorem noOperationWritesTheClock : Obligations.NoOperationWritesTheClock := fun i s _ ht =>
  exec_kept (hostSide_kept s) i ⟨rfl, rfl, rfl, rfl⟩ ht

/-- Everything an operation can do to `SRC`. -/
theorem exec_src {i : Instr} {s t : State} (ht : exec i s = .next t) :
    t.src = s.src ∨
      s.src = .opened ∧ (i = .topEos ∧ t.src = .ended ∨ i = .topSrcerr ∧ t.src = .failed) := by
  have frame := eachOperationWritesOnlyItsElements i s t ht
  cases i with
  | topEos =>
    obtain ⟨_, _, ⟨_, rfl⟩ | ⟨ho, rfl⟩, rfl⟩ := (topEos_closes s).respond_noEvents ht
    · exact .inl rfl
    · exact .inr ⟨ho, .inl ⟨rfl, rfl⟩⟩
  | topSrcerr =>
    obtain ⟨_, _, ⟨_, rfl⟩ | ⟨ho, rfl⟩, rfl⟩ := (topSrcerr_closes s).respond_noEvents ht
    · exact .inl rfl
    · exact .inr ⟨ho, .inr ⟨rfl, rfl⟩⟩
  | _ => exact .inl (congrArg State.src frame :)

/-- Settles O10: `exec_src` leaves only the two closings, each from OPEN. -/
theorem onlyEndOperationsCloseTheSource : Obligations.OnlyEndOperationsCloseTheSource := by
  intro i s t ht
  obtain hsame | hclosed := exec_src ht
  · exact ⟨fun hne => absurd hsame hne, fun _ => hsame⟩
  · exact ⟨fun _ => hclosed, fun hn => absurd hclosed.1 hn⟩

end Sys2Proof.Machine
end

section
/-! ### `STAT` and the errors an operation can end with (spec/10_state.md R22, 60_exceptions.md R220, R221) -/

namespace Sys2Proof.Machine

/-- An error an operation may end with: SourceError stands in an item only (R212), and `ENUM` is reserved (R169). -/
def Error.Raised (e : Error) : Prop := e ≠ .source ∧ e ≠ .decode .enumRange

theorem Error.raised_parse (c : ParseCause) : (Error.parse c).Raised := ⟨nofun, nofun⟩
theorem Error.raised_shape : (Error.reassembly .shape).Raised := ⟨nofun, nofun⟩
theorem Error.raised_underrun : (Error.decode .underrun).Raised := ⟨nofun, nofun⟩
theorem Error.raised_trailing : (Error.decode .trailing).Raised := ⟨nofun, nofun⟩
theorem Error.raised_illegal (c : IllegalCause) : (Error.illegal c).Raised := ⟨nofun, nofun⟩

namespace Ret

variable {α β : Type} {r : Ret α}

/-- The error an answer carries, if any, is one an operation may end with. -/
def Raises : Ret α → Prop
  | .ok _ _ => True
  | .err e _ => e.Raised
  | .refused _ => True

theorem Raises.bind {f : α → State → Ret β} (h : r.Raises) (hf : ∀ v s, (f v s).Raises) : (r.bind f).Raises := by
  cases r with
  | ok v s => exact hf v s
  | err e s => exact h
  | refused w => trivial

theorem Raises.map {f : α → β} (h : r.Raises) : (r.map f).Raises := by
  cases r <;> exact h

/-- An answer that is never an error raises none. -/
theorem raises_of_never_errs (h : ∀ t e, r ≠ .err e t) : r.Raises := by
  cases r with
  | ok => trivial
  | err e s => exact absurd rfl (h s e)
  | refused => trivial

end Ret

theorem readLatch_raises {α : Type} (n : Nat) (f : List Bool → α) (g : List Bool → BitVec 32) (s : State) :
    (readLatch n f g s).Raises := by
  unfold readLatch
  obtain ⟨_, h⟩ | ⟨_, _, h⟩ | ⟨_, _, _, h⟩ | ⟨_, _, _, h⟩ := readBits_cases n s <;> rw [h]
  · exact Error.raised_illegal _
  · exact Error.raised_illegal _
  · exact Error.raised_underrun
  · trivial

theorem abrLoad_raises (text : Text) (s : State) : (abrLoad text s).Raises := by
  unfold abrLoad
  split
  · trivial
  · split
    · exact Error.raised_parse _
    · trivial

theorem abrAex_raises (s : State) : (abrAex s).Raises := by
  unfold abrAex
  split
  · exact Error.raised_illegal _
  · split
    · exact Error.raised_trailing
    · trivial

theorem parParse_raises (line : Text) (s : State) : (parParse line s).Raises := by
  unfold parParse
  cases parse s.cfg line with
  | sentence => trivial
  | error c => exact Error.raised_parse c
  | refused => trivial

theorem rsmPush_raises (snt : Sentence) (s : State) : (rsmPush snt s).Raises := by
  obtain ⟨_, _, h⟩ | h | ⟨_, _, _, h⟩ | ⟨_, _, hf, h⟩ := rsmPush_cases snt s <;> rw [h]
  · trivial
  · exact Error.raised_shape
  · trivial
  · obtain ⟨_, _, e⟩ | ⟨_, _, e⟩ | ⟨_, _, e⟩ | ⟨_, _, _, e⟩ | ⟨_, _, _, e⟩ := pushFragment_cases hf s <;>
      rw [e] <;> trivial

theorem readField_raises (f : FieldName) (s : State) : (readField f s).Raises := by
  cases f <;> exact (readLatch_raises ..).map

theorem readFields_raises (fs : List FieldName) (s : State) : (readFields fs s).Raises := by
  induction fs generalizing s with
  | nil => trivial
  | cons f fs ih => exact (readField_raises f s).bind fun _ s1 => (ih s1).bind fun _ _ => trivial

theorem fdcPosa_raises (s : State) : (fdcPosa s).Raises := by
  unfold fdcPosa
  split
  · exact Error.raised_illegal _
  · split
    · exact Error.raised_illegal _
    · exact (readFields_raises classA s).bind fun _ s1 => (abrAex_raises s1).bind fun _ _ => trivial

theorem dspDisp_raises (s : State) : (dspDisp s).Raises := by
  unfold dspDisp
  split
  · exact Error.raised_illegal _
  · split
    · exact Error.raised_illegal _
    · refine (readLatch_raises ..).bind fun t s1 => ?_
      cases registry t with
      | classA => exact (fdcPosa_raises _).map
      | stub => trivial
      | absent => trivial

theorem frmPush_raises (chunk : Text) (s : State) : (frmPush chunk s).Raises := by
  unfold frmPush
  dsimp only
  split <;> trivial

/-- An operation of the pipeline raises `SRC_STATE` on a closed source (R213), else what the rest of it raises. -/
theorem raises_of_opened {α : Type} {s : State} {r : Ret α} (h : r.Raises) :
    (if s.src ≠ .opened then .err (.illegal .srcState) s else r).Raises := by
  split
  · exact Error.raised_illegal _
  · exact h

theorem topFeed_raises (chunk : Text) (s : State) : (topFeed chunk s).Raises :=
  raises_of_opened <| (frmPush_raises chunk s).bind fun lines s1 =>
    Ret.raises_of_never_errs (processAll_never_errs lines s1)

theorem topEos_raises (s : State) : (topEos s).Raises := raises_of_opened trivial
theorem topSrcerr_raises (s : State) : (topSrcerr s).Raises := raises_of_opened trivial

/-- A result an operation may return: a value, or an error it may end with. -/
def Result.Returned (w : Result) : Prop := ∀ e, w = .err e → e.Raised

/-- The operation writes the word of its result to `STAT`, and returns no error but those its answer may carry. -/
theorem Ret.Raises.outcome {α : Type} {r : Ret α} {val : α → Val} {ev : α → List BreakCause} {t : State}
    (h : r.Raises) (ht : r.outcome val ev = .next t) : t.stat = t.result.status ∧ t.result.Returned := by
  obtain ⟨v, u, rfl, rfl⟩ | ⟨e, u, rfl, rfl⟩ := Ret.outcome_next ht
  · exact ⟨rfl, nofun⟩
  · exact ⟨rfl, fun e' he => by cases he; exact h⟩

/-- Every operation, by what its answer may carry. -/
theorem exec_returned {i : Instr} {s t : State} (ht : exec i s = .next t) :
    t.stat = t.result.status ∧ t.result.Returned := by
  cases i with
  | abrLoad text => exact (abrLoad_raises text s).outcome ht
  | abrRdu n => exact Ret.Raises.outcome (readLatch_raises ..) ht
  | abrRdi n => exact Ret.Raises.outcome (readLatch_raises ..) ht
  | abrRdb => exact Ret.Raises.outcome (readLatch_raises ..) ht
  | abrRdr n => exact Ret.Raises.outcome (readLatch_raises ..) ht
  | abrAex => exact (abrAex_raises s).outcome ht
  | parParse line => exact (parParse_raises line s).outcome ht
  | rsmPush snt => exact (rsmPush_raises snt s).outcome ht
  | dspDisp => exact (dspDisp_raises s).outcome ht
  | fdcPosa => exact (fdcPosa_raises s).outcome ht
  | frmPush chunk => exact (frmPush_raises chunk s).outcome ht
  | frmEos =>
    cases ht
    exact ⟨rfl, nofun⟩
  | topFeed chunk => exact (topFeed_raises chunk s).outcome ht
  | topEos => exact (topEos_raises s).outcome ht
  | topSrcerr => exact (topSrcerr_raises s).outcome ht

/-- `STAT[7:4]` of a status word is its kind (R22). -/
theorem statusWord_kind (k c : BitVec 4) : (statusWord k c).extractLsb' 4 4 = k :=
  BitVec.extractLsb'_append_eq_left

/-- The kinds a returned result can have (R220). -/
theorem Result.Returned.kind {w : Result} (h : w.Returned) :
    w.status.extractLsb' 4 4 ∈ [(0 : BitVec 4), 1, 2, 4, 7] := by
  cases w with
  | ok v =>
    rw [State.status_ok]
    decide
  | err e =>
    rw [Result.status, statusWord_kind]
    cases e with
    | source => exact absurd rfl (h _ rfl).1
    | parse | reassembly | decode | illegal => simp [Error.kind, Kind.code]

/-- Settles O12: `exec_returned` gives the word and the errors, the errors give the kinds. -/
theorem statusEncodesTheResult : Obligations.StatusEncodesTheResult := by
  intro i s t ht
  obtain ⟨hstat, hret⟩ := exec_returned ht
  refine ⟨hstat, ?_, fun h => (hret _ h).1 rfl, fun h => (hret _ h).2 rfl⟩
  rw [State.statKind, hstat]
  exact hret.kind

end Sys2Proof.Machine
end

section
/-! ### Sessions share nothing (spec/10_state.md R38, 60_exceptions.md R243) -/

namespace Sys2Proof.Machine

section

variable {n : Nat} {k : Fin (n + 1)} {ss : Sessions n}

/-- A system goes on exactly when the session that moves does, with that session replaced. -/
theorem stepSession_eq_next {ss' : Sessions n} :
    stepSession k ss = .next ss' ↔ ∃ t, step ss[k] = .next t ∧ ss' = ss.set k t := by
  unfold stepSession
  cases step ss[k] <;> simp [eq_comm]

theorem stepSession_refused {r : Refusal} (h : step ss[k] = .refused r) : stepSession k ss = .refused r := by
  simp only [stepSession, h]

end

/-- Settles O58: `stepSession` replaces the session that moves. -/
theorem sessionsAreIndependent : Obligations.SessionsAreIndependent := by
  intro n k ss
  refine ⟨fun ss' h => ?others, fun t h => ?own, fun r => stepSession_refused⟩
  case others =>
    obtain ⟨t, ht, rfl⟩ := stepSession_eq_next.1 h
    refine ⟨fun j hj => ?_, ?_⟩
    · exact Vector.getElem_set_ne _ _ (fun e => hj (Fin.ext e.symm))
    · rw [ht]
      exact congrArg _ (Vector.getElem_set_self _).symm
  case own => exact ⟨ss.set k t, stepSession_eq_next.2 ⟨t, h, rfl⟩, Vector.getElem_set_self _⟩

end Sys2Proof.Machine
end

section
/-! ### The decoder, the encoder and the opcode table agree (spec/30_encoding.md R74 to R77) -/

namespace Sys2Proof

/-- A word is put together from its three fields. -/
theorem cmdWord_of_fields {w : CmdWord} {u f a : Nat} (hu : cwUnit w = u) (hf : cwFunc w = f) (ha : cwArg w = a) :
    cmdWord u f a = w := by
  subst hu hf ha
  exact cmdWord_eta w

/-! The word selects the operation; the operand comes from the request's lines -/

/-- The operation with its operand taken from the request's lines. -/
def Instr.withOperand (i : Instr) (r : Request) : Instr :=
  match i with
  | .abrLoad _ => .abrLoad r.text
  | .parParse _ => .parParse r.text
  | .rsmPush _ => .rsmPush r.sentence
  | .frmPush _ => .frmPush r.text
  | .topFeed _ => .topFeed r.text
  | i => i

@[simp] theorem Instr.withOperand_mnemonic (i : Instr) (r : Request) : (i.withOperand r).mnemonic = i.mnemonic := by
  cases i <;> rfl

@[simp] theorem Instr.withOperand_wellFormed (i : Instr) (r : Request) :
    (i.withOperand r).wellFormed = i.wellFormed := by
  cases i <;> rfl

@[simp] theorem encodeWord_withOperand (i : Instr) (r : Request) : encodeWord (i.withOperand r) = encodeWord i := by
  cases i <;> rfl

theorem encode_cw (i : Instr) : (encode i).cw = encodeWord i := by
  cases i <;> rfl

/-- The encoder puts an operand on the line the decoder reads it from. -/
theorem Instr.withOperand_encode (i : Instr) : i.withOperand (encode i) = i := by
  cases i <;> rfl

/-- A request with a well-formed operation's word selects that operation. -/
theorem decode_of_encodeWord {r : Request} {i : Instr} (hwf : i.wellFormed = true) (h : r.cw = encodeWord i) :
    decode r = .ok (i.withOperand r) := by
  cases i with
  | abrRdu n | abrRdi n | abrRdr n =>
    have hn : n % 256 = n := Nat.mod_eq_of_lt (of_decide_eq_true hwf)
    simp only [decode, h, encodeWord, cwUnit_cmdWord, cwFunc_cmdWord, cwArg_cmdWord, Nat.reduceMod, hn,
      Instr.withOperand]
  | abrLoad | abrRdb | abrAex | parParse | rsmPush | dspDisp | fdcPosa | frmPush | frmEos | topFeed | topEos
  | topSrcerr =>
    simp only [decode, h, encodeWord, cwUnit_cmdWord, cwFunc_cmdWord, cwArg_cmdWord, Nat.reduceMod,
      fixedArg, if_true, Instr.withOperand]

/-- Settles O4: the encoding's word selects the operation, and its lines hold the operand. -/
theorem decodeEncodeAgree : Obligations.DecodeEncodeAgree := fun i hwf => by
  rw [decode_of_encodeWord hwf (encode_cw i), i.withOperand_encode]

/-! What decodes has the word it was read from -/

theorem fixedArg_eq_ok {a : Nat} {i j : Instr} : fixedArg a i = .ok j ↔ a = 0 ∧ i = j := by
  unfold fixedArg
  split <;> simp [*]

/-- A fixed operation's arm of the decoder answers an operation with the word it was read from. -/
theorem encodeWord_of_fixedArg {w : CmdWord} {u f : Nat} {i j : Instr} (hi : encodeWord i = cmdWord u f 0)
    (hwf : i.wellFormed = true) (hu : cwUnit w = u) (hf : cwFunc w = f) (h : fixedArg (cwArg w) i = .ok j) :
    encodeWord j = w ∧ j.wellFormed = true := by
  obtain ⟨ha, rfl⟩ := fixedArg_eq_ok.1 h
  exact ⟨hi.trans (cmdWord_of_fields hu hf ha), hwf⟩

/-- The operation a word decodes to is well-formed and has that word (R75). The decoder's arms are of three sorts:
fixed operations, reads with a count, and reserved words. -/
theorem encodeWord_of_decode {r : Request} {i : Instr} (h : decode r = .ok i) :
    encodeWord i = r.cw ∧ i.wellFormed = true := by
  unfold decode at h
  dsimp only at h
  split at h
  case h_1 | h_4 | h_6 | h_8 | h_10 | h_12 | h_14 | h_16 | h_17 | h_19 | h_20 | h_21 =>
    exact encodeWord_of_fixedArg rfl rfl ‹_› ‹_› h
  case h_2 | h_3 | h_5 =>
    cases h
    exact ⟨cmdWord_of_fields ‹_› ‹_› rfl, decide_eq_true (cwArg_lt r.cw)⟩
  all_goals cases h

/-! Words of no row -/

/-- Every operation's word is in the row that bears its mnemonic (R75). -/
theorem encodeWord_has_row (i : Instr) : Laws.Opcode.Statement i := by
  cases i with
  | abrLoad t => exact Laws.Opcode.abrLoad t
  | abrRdu n => exact Laws.Opcode.abrRdu n
  | abrRdi n => exact Laws.Opcode.abrRdi n
  | abrRdb => exact Laws.Opcode.abrRdb
  | abrRdr n => exact Laws.Opcode.abrRdr n
  | abrAex => exact Laws.Opcode.abrAex
  | parParse t => exact Laws.Opcode.parParse t
  | rsmPush snt => exact Laws.Opcode.rsmPush snt
  | dspDisp => exact Laws.Opcode.dspDisp
  | fdcPosa => exact Laws.Opcode.fdcPosa
  | frmPush t => exact Laws.Opcode.frmPush t
  | frmEos => exact Laws.Opcode.frmEos
  | topFeed t => exact Laws.Opcode.topFeed t
  | topEos => exact Laws.Opcode.topEos
  | topSrcerr => exact Laws.Opcode.topSrcerr

/-- A word of no row is reserved (R77). -/
theorem decode_error_of_no_row {r : Request} (h : ∀ row ∈ opcodeRows, row.has r.cw = false) :
    ∃ e, decode r = .error e := by
  cases hd : decode r with
  | error e => exact ⟨e, rfl⟩
  | ok i =>
    obtain ⟨hw, hwf⟩ := encodeWord_of_decode hd
    obtain ⟨row, hrow, -, hhas⟩ := encodeWord_has_row i hwf
    exact absurd (hw ▸ hhas) (Bool.eq_false_iff.1 (h row hrow))

/-- Settles O2: such a word decodes to no operation, and the step takes the error. -/
theorem reservedWordChangesOnlyStatus : Obligations.ReservedWordChangesOnlyStatus := by
  intro s r rest hp hno
  obtain ⟨e, hd⟩ := decode_error_of_no_row hno
  exact Machine.step_reserved hp hd

/-! Words of a row -/

/-- Each word of the row is the word of a well-formed operation with the row's mnemonic. -/
def OpcodeRow.Encodes (row : OpcodeRow) : Prop :=
  ∀ w, row.has w = true → ∃ i : Instr, i.mnemonic = row.mnemonic ∧ encodeWord i = w ∧ i.wellFormed = true

/-- A fixed operation is all that is in its row. -/
theorem encodes_fixed {v : CmdWord} (i : Instr) (hv : encodeWord i = v) (hwf : i.wellFormed = true) :
    (OpcodeRow.mk i.mnemonic v 0xFFFF).Encodes := by
  intro w hw
  rw [has_full, beq_iff_eq] at hw
  exact ⟨i, rfl, hv.trans hw.symm, hwf⟩

/-- A read's row holds one operation for each value of `ARG` (R76). -/
theorem encodes_read {m : String} {u f : Nat} (op : Nat → Instr) (hu : u < 16) (hf : f < 16)
    (hm : ∀ n, (op n).mnemonic = m) (hv : ∀ n, encodeWord (op n) = cmdWord u f n)
    (hwf : ∀ n, (op n).wellFormed = argFits n) : (OpcodeRow.mk m (cmdWord u f 0) 0xFF00).Encodes := by
  intro w hw
  rw [has_arg, beq_iff_eq] at hw
  have hunit := congrArg cwUnit hw
  have hfunc := congrArg cwFunc hw
  rw [cwUnit_cmdWord, cwUnit_cmdWord, Nat.mod_eq_of_lt (cwUnit_lt w), Nat.mod_eq_of_lt hu] at hunit
  rw [cwFunc_cmdWord, cwFunc_cmdWord, Nat.mod_eq_of_lt (cwFunc_lt w), Nat.mod_eq_of_lt hf] at hfunc
  exact ⟨op (cwArg w), hm _, (hv _).trans (cmdWord_of_fields hunit hfunc rfl),
    (hwf _).trans (decide_eq_true (cwArg_lt w))⟩

/-- The table of R75, row by row. -/
theorem opcodeRows_encode : ∀ row ∈ opcodeRows, row.Encodes := by
  simp only [opcodeRows, List.forall_mem_cons]
  exact ⟨encodes_fixed (.abrLoad []) rfl rfl,
    encodes_read (u := 1) (f := 1) .abrRdu (by decide) (by decide) (fun _ => rfl) (fun _ => rfl) (fun _ => rfl),
    encodes_read (u := 1) (f := 2) .abrRdi (by decide) (by decide) (fun _ => rfl) (fun _ => rfl) (fun _ => rfl),
    encodes_fixed .abrRdb rfl rfl,
    encodes_read (u := 1) (f := 4) .abrRdr (by decide) (by decide) (fun _ => rfl) (fun _ => rfl) (fun _ => rfl),
    encodes_fixed .abrAex rfl rfl,
    encodes_fixed (.parParse []) rfl rfl,
    encodes_fixed (.rsmPush .zero) rfl rfl,
    encodes_fixed .dspDisp rfl rfl,
    encodes_fixed .fdcPosa rfl rfl,
    encodes_fixed (.frmPush []) rfl rfl,
    encodes_fixed .frmEos rfl rfl,
    encodes_fixed (.topFeed []) rfl rfl,
    encodes_fixed .topEos rfl rfl,
    encodes_fixed .topSrcerr rfl rfl,
    nofun⟩

/-- Settles O3: the row names an operation with the word, and the word selects it. -/
theorem decodeFollowsOpcodeTable : Obligations.DecodeFollowsOpcodeTable := by
  intro r row hrow hhas
  obtain ⟨i, hm, hw, hwf⟩ := opcodeRows_encode row hrow r.cw hhas
  refine ⟨i.withOperand r, decode_of_encodeWord hwf hw.symm, ?_, ?_, ?_⟩
  · rw [i.withOperand_mnemonic, hm]
  · rw [encodeWord_withOperand, hw]
  · rw [i.withOperand_wellFormed, hwf]

/-- Settles O1: the step on a request that decodes. -/
theorem stepRunsDecodedInstruction : Obligations.StepRunsDecodedInstruction := fun _ _ _ _ => Machine.step_issue

/-- Settles O5, word by word: the decoder computes each. -/
theorem decodesWrittenOutWords : Obligations.DecodesWrittenOutWords :=
  ⟨rfl, rfl, rfl, rfl, rfl, rfl, rfl⟩

end Sys2Proof
end

section
/-! ### The armor alphabet, and a load with a byte outside it (spec/30_encoding.md R60 to R62) -/

namespace Sys2Proof.Machine

/-! The three ranges of `armor` (R60, R62) -/

theorem armor_low {c : Byte} (h1 : 0x30 ≤ c.toNat) (h2 : c.toNat ≤ 0x57) : armor c = some (c.toNat - 0x30) :=
  if_pos ⟨h1, h2⟩

theorem armor_high {c : Byte} (h1 : 0x60 ≤ c.toNat) (h2 : c.toNat ≤ 0x77) : armor c = some (c.toNat - 0x38) := by
  rw [armor, if_neg (by omega), if_pos ⟨h1, h2⟩]

theorem armor_invalid {c : Byte} (h1 : c.toNat < 0x30 ∨ 0x57 < c.toNat) (h2 : c.toNat < 0x60 ∨ 0x77 < c.toNat) :
    armor c = none := by
  rw [armor, if_neg (by omega), if_neg (by omega)]

/-- Everything `armor` can answer. -/
theorem armor_cases (c : Byte) :
    (0x30 ≤ c.toNat ∧ c.toNat ≤ 0x57 ∧ armor c = some (c.toNat - 0x30)) ∨
    (0x60 ≤ c.toNat ∧ c.toNat ≤ 0x77 ∧ armor c = some (c.toNat - 0x38)) ∨
    ((c.toNat ≤ 0x2F ∨ (0x58 ≤ c.toNat ∧ c.toNat ≤ 0x5F) ∨ 0x78 ≤ c.toNat) ∧ armor c = none) := by
  by_cases hl : 0x30 ≤ c.toNat ∧ c.toNat ≤ 0x57
  · exact .inl ⟨hl.1, hl.2, armor_low hl.1 hl.2⟩
  · by_cases hh : 0x60 ≤ c.toNat ∧ c.toNat ≤ 0x77
    · exact .inr (.inl ⟨hh.1, hh.2, armor_high hh.1 hh.2⟩)
    · exact .inr (.inr ⟨by omega, armor_invalid (by omega) (by omega)⟩)

theorem armor_eq_none_iff (c : Byte) :
    armor c = none ↔ c.toNat ≤ 0x2F ∨ (0x58 ≤ c.toNat ∧ c.toNat ≤ 0x5F) ∨ 0x78 ≤ c.toNat := by
  obtain ⟨h1, h2, h⟩ | ⟨h1, h2, h⟩ | ⟨hc, h⟩ := armor_cases c
  · exact iff_of_false (by simp [h]) (by omega)
  · exact iff_of_false (by simp [h]) (by omega)
  · exact iff_of_true h hc

/-- Settles O16: the three ranges, and the six bits of a value read back. -/
theorem armorAlphabet : Obligations.ArmorAlphabet :=
  ⟨fun _ => armor_low, fun _ => armor_high, fun _ => armor_invalid,
    fun _ hv => ⟨charBits_length .msbFirst _, uint_charBits .msbFirst hv⟩⟩

/-! `unarmor` undoes `armor` (R61) -/

theorem unarmor_low {v : Nat} (h : v ≤ 39) : (unarmor v).toNat = v + 0x30 := by
  rw [unarmor, if_pos h, BitVec.toNat_ofNat]
  omega

theorem unarmor_high {v : Nat} (h1 : 39 < v) (h2 : v < 64) : (unarmor v).toNat = v + 0x38 := by
  rw [unarmor, if_neg (by omega), BitVec.toNat_ofNat]
  omega

theorem armor_unarmor {v : Nat} (h : v < 64) : armor (unarmor v) = some v := by
  by_cases hl : v ≤ 39
  · have hv := unarmor_low hl
    rw [armor_low (by omega) (by omega), hv, Nat.add_sub_cancel]
  · have hv := unarmor_high (by omega) h
    rw [armor_high (by omega) (by omega), hv, Nat.add_sub_cancel]

theorem unarmor_armor {c : Byte} {v : Nat} (h : armor c = some v) : unarmor v = c := by
  apply BitVec.eq_of_toNat_eq
  obtain ⟨h1, h2, hc⟩ | ⟨h1, h2, hc⟩ | ⟨-, hc⟩ := armor_cases c <;> cases hc.symm.trans h
  · rw [unarmor_low (by omega)]
    omega
  · rw [unarmor_high (by omega) (by omega)]
    omega

/-- Settles O17, with `armor_lt` for the values' range. -/
theorem armorIsABijection : Obligations.ArmorIsABijection :=
  ⟨fun _ => armor_unarmor, fun _ _ h => ⟨armor_lt h, unarmor_armor h⟩⟩

/-! A load with an invalid byte (R90) -/

/-- One invalid byte, wherever it stands, and the text has no bits. -/
theorem dearmor_invalid (o : BitOrder) {t : Text} {c : Byte} (hc : c ∈ t) (h : armor c = none) :
    dearmor o t = none := by
  rw [dearmor_eq, if_neg]
  intro hall
  simpa [h] using hall c hc

theorem abrLoad_invalid {s : State} {t : Text} {c : Byte} (hl : exceeds (loadMax s.cfg) t.length = false)
    (hc : c ∈ t) (h : armor c = none) : abrLoad t s = .err (.parse .armor) s := by
  simp only [abrLoad, hl, dearmor_invalid _ hc h]
  rfl

/-- R62's count, over the 256 bytes. -/
theorem invalidArmor_count : ((List.range 256).filter fun c => armor (BitVec.ofNat 8 c) == none).length = 192 := by
  decide +kernel

/-- Settles O18: the invalid ranges, their count, and the load that one of their bytes fails. -/
theorem invalidArmorFailsTheLoad : Obligations.InvalidArmorFailsTheLoad := by
  refine ⟨armor_eq_none_iff, invalidArmor_count, fun s t c hl hc h => ?_⟩
  exact congrArg (Ret.outcome _ _) (abrLoad_invalid hl hc h)

end Sys2Proof.Machine
end

section
/-! ### The class-A report of a whole buffer (spec/30_encoding.md R72, 44_field_decoder_posa.md R160, R161) -/

namespace Sys2Proof.Machine

theorem abrAex_ok {s : State} (hb : s.bv = true) (hc : s.cur = s.len) : abrAex s = .ok () s := by
  rw [abrAex, if_neg (by simp [hb]), if_neg (not_not.2 hc)]

/-- The widths of the class-A fields add up to what follows the type code in 168 bits (R72). -/
theorem totalWidth_classA : totalWidth classA = 162 := rfl

/-- Read one after another from address 6, the fields stand at R72's addresses. -/
theorem valuesAt_classA (o : BitOrder) (now : BitVec 64) (buf : List Bool) :
    valuesAt o now buf classA 6 = classAReport o buf now := rfl

/-- The last of them is latched (R21). -/
theorem resAt_classA (o : BitOrder) (buf : List Bool) (r : BitVec 32) :
    resAt o buf classA 6 r = BitVec.ofNat 32 (uint o (bitsAt buf 154 14)) := rfl

/-- FDC.POSA on 168 bits with the cursor at 6 (R160, R161). -/
theorem fdcPosa_ok {s : State} (hb : s.bv = true) (hc : s.cur = 6) (hl : s.len = 168) :
    fdcPosa s = .ok (classAReport s.cfg.bitOrder s.buf s.now)
      { s with cur := 168, res := BitVec.ofNat 32 (uint s.cfg.bitOrder (bitsAt s.buf 154 14)) } := by
  have fits : s.cur + totalWidth classA ≤ s.len := by rw [hc, hl, totalWidth_classA]
  rw [fdcPosa, if_neg (by simp [hb]), if_neg (not_not.2 hc : ¬s.cur ≠ Config.typeBits), readFields_ok classA hb fits,
    Ret.bind_ok, hc, totalWidth_classA, valuesAt_classA, resAt_classA, abrAex_ok (by exact hb) (by exact hl.symm),
    Ret.bind_ok]

/-- Settles O41: the answer of `fdcPosa_ok`, returned. -/
theorem classAFieldsByAddress : Obligations.ClassAFieldsByAddress := fun _ hb hc hl =>
  congrArg (Ret.outcome _ _) (fdcPosa_ok hb hc hl)

end Sys2Proof.Machine
end

section
/-! ### A failed operation is invisible (spec/40_armor_reader.md R98 (e), 60_exceptions.md R236) -/

namespace Sys2Proof.Machine

namespace Ret

variable {α β : Type} {s : State} {r : Ret α}

/-- An answer that is an error carries the state `s`. -/
def ErrKeeps (s : State) : Ret α → Prop
  | .ok _ _ => True
  | .err _ t => t = s
  | .refused _ => True

/-- An answer that is never an error keeps any state in that case. -/
theorem errKeeps_of_never_errs (h : ∀ t e, r ≠ .err e t) : r.ErrKeeps s := by
  cases r with
  | ok => trivial
  | err e t => exact absurd rfl (h t e)
  | refused => trivial

theorem ErrKeeps.bind {f : α → State → Ret β} (h : r.ErrKeeps s) (hf : ∀ v s1, (f v s1).ErrKeeps s) :
    (r.bind f).ErrKeeps s := by
  cases r with
  | ok v s1 => exact hf v s1
  | err e t => exact h
  | refused w => trivial

/-- The operation that ends with an error writes the port and nothing else. -/
theorem ErrKeeps.outcome {val : α → Val} {ev : α → List BreakCause} {t : State} {e : Error} (h : r.ErrKeeps s)
    (ht : r.outcome val ev = .next t) (he : t.result = .err e) :
    t = { s with result := .err e, events := [], stat := t.stat } := by
  obtain ⟨v, u, rfl, rfl⟩ | ⟨e', u, rfl, rfl⟩ := outcome_next ht
  · cases he
  · cases he
    cases h
    rfl

end Ret

theorem abrLoad_errKeeps (text : Text) (s : State) : (abrLoad text s).ErrKeeps s := by
  unfold abrLoad
  split
  · trivial
  · split
    · rfl
    · trivial

theorem readLatch_errKeeps {α : Type} (n : Nat) (f : List Bool → α) (g : List Bool → BitVec 32) (s : State) :
    (readLatch n f g s).ErrKeeps s := by
  unfold readLatch
  obtain ⟨_, h⟩ | ⟨_, _, h⟩ | ⟨_, _, _, h⟩ | ⟨_, _, _, h⟩ := readBits_cases n s <;> rw [h]
  · rfl
  · rfl
  · rfl
  · trivial

theorem abrAex_errKeeps (s : State) : (abrAex s).ErrKeeps s := by
  unfold abrAex
  split
  · rfl
  · split
    · rfl
    · trivial

theorem parParse_errKeeps (line : Text) (s : State) : (parParse line s).ErrKeeps s := by
  unfold parParse
  cases parse s.cfg line with
  | sentence => trivial
  | error => rfl
  | refused => trivial

/-- FRM.PUSH never fails (R190). -/
theorem frmPush_errKeeps (chunk : Text) (s s0 : State) : (frmPush chunk s).ErrKeeps s0 := by
  unfold frmPush
  dsimp only
  split <;> trivial

/-- An operation of the pipeline changes nothing when it fails for a closed source (R213). -/
theorem errKeeps_of_opened {α : Type} {s : State} {r : Ret α} (h : r.ErrKeeps s) :
    (if s.src ≠ .opened then .err (.illegal .srcState) s else r).ErrKeeps s := by
  split
  · rfl
  · exact h

/-- On an open source TOP.FEED does not fail: what goes wrong with a line is an item (R206). -/
theorem topFeed_errKeeps (chunk : Text) (s : State) : (topFeed chunk s).ErrKeeps s :=
  errKeeps_of_opened <| (frmPush_errKeeps chunk s s).bind fun lines s1 =>
    Ret.errKeeps_of_never_errs (processAll_never_errs lines s1)

theorem topEos_errKeeps (s : State) : (topEos s).ErrKeeps s := errKeeps_of_opened trivial
theorem topSrcerr_errKeeps (s : State) : (topSrcerr s).ErrKeeps s := errKeeps_of_opened trivial

/-- Settles O15, one operation at a time: each error carries the state the operation began in. -/
theorem failedOperationIsInvisible : Obligations.FailedOperationIsInvisible := by
  intro i s t e ht he hrsm hdsp hfdc
  cases i with
  | abrLoad text => exact (abrLoad_errKeeps text s).outcome ht he
  | abrRdu n => exact Ret.ErrKeeps.outcome (readLatch_errKeeps ..) ht he
  | abrRdi n => exact Ret.ErrKeeps.outcome (readLatch_errKeeps ..) ht he
  | abrRdb => exact Ret.ErrKeeps.outcome (readLatch_errKeeps ..) ht he
  | abrRdr n => exact Ret.ErrKeeps.outcome (readLatch_errKeeps ..) ht he
  | abrAex => exact (abrAex_errKeeps s).outcome ht he
  | parParse line => exact (parParse_errKeeps line s).outcome ht he
  | rsmPush snt => exact absurd rfl (hrsm snt)
  | dspDisp => exact absurd rfl hdsp
  | fdcPosa => exact absurd rfl hfdc
  | frmPush chunk => exact (frmPush_errKeeps chunk s s).outcome ht he
  | frmEos =>
    cases ht
    cases he
  | topFeed chunk => exact (topFeed_errKeeps chunk s).outcome ht he
  | topEos => exact (topEos_errKeeps s).outcome ht he
  | topSrcerr => exact (topSrcerr_errKeeps s).outcome ht he

end Sys2Proof.Machine
end

section
/-! ### The checks of the reads and of ABR.AEX (spec/40_armor_reader.md R91 to R97, 60_exceptions.md R234) -/

namespace Sys2Proof.Machine

theorem legalCount_eq_true {n : Nat} : legalCount n = true ↔ 1 ≤ n ∧ n ≤ 32 := by
  rw [legalCount, Bool.and_eq_true, decide_eq_true_iff, decide_eq_true_iff]
  rfl

theorem legalCount_eq_false {n : Nat} : legalCount n = false ↔ n < 1 ∨ 32 < n := by
  rw [← Bool.not_eq_true, legalCount_eq_true]
  omega

section
variable {α : Type} {n : Nat} {f : List Bool → α} {g : List Bool → BitVec 32} {s : State}

theorem readLatch_nobuf (hb : s.bv = false) : readLatch n f g s = .err (.illegal .nobuf) s := by
  rw [readLatch, readBits, if_pos hb, Ret.bind_err]

theorem readLatch_operand (hb : s.bv = true) (hn : n < 1 ∨ 32 < n) :
    readLatch n f g s = .err (.illegal .operand) s := by
  rw [readLatch, readBits, if_neg (by simp [hb]), if_pos (legalCount_eq_false.2 hn), Ret.bind_err]

theorem readLatch_underrun (hb : s.bv = true) (h1 : 1 ≤ n) (h2 : n ≤ 32) (hl : s.len - s.cur < n) :
    readLatch n f g s = .err (.decode .underrun) s := by
  rw [readLatch, readBits, if_neg (by simp [hb]), if_neg (by simp [legalCount_eq_true.2 ⟨h1, h2⟩]), if_pos hl,
    Ret.bind_err]

/-- A read that fits gives the `n` bits at the cursor to both of its functions. -/
theorem readLatch_fits (hb : s.bv = true) (h1 : 1 ≤ n) (h2 : n ≤ 32) (hl : s.cur + n ≤ s.len) :
    readLatch n f g s =
      .ok (f (bitsAt s.buf s.cur n)) ((s.advance n).setRes (g (bitsAt s.buf s.cur n))) :=
  readLatch_ok hb (legalCount_eq_true.2 ⟨h1, h2⟩) (by omega)

end

/-- Settles O23: every read is a `readLatch`, which makes the checks. -/
theorem readChecksInOrder : Obligations.ReadChecksInOrder := by
  intro s n i
  simp only [List.mem_cons, List.not_mem_nil, or_false]
  refine ⟨fun hb hi => ?_, fun hb hn hi => ?_, fun hb h1 h2 hl hi => ?_, fun hb hl => ?_⟩
  · obtain rfl | rfl | rfl := hi <;> exact congrArg (Ret.outcome _ _) (readLatch_nobuf hb)
  · obtain rfl | rfl := hi <;> exact congrArg (Ret.outcome _ _) (readLatch_operand hb (by omega))
  · obtain rfl | rfl := hi <;> exact congrArg (Ret.outcome _ _) (readLatch_underrun hb h1 h2 hl)
  · exact congrArg (Ret.outcome _ _) (readLatch_underrun hb le_rfl (by omega) (by omega))

theorem abrAex_nobuf {s : State} (hb : s.bv = false) : abrAex s = .err (.illegal .nobuf) s := if_pos hb

theorem abrAex_trailing {s : State} (hb : s.bv = true) (hc : s.cur ≠ s.len) :
    abrAex s = .err (.decode .trailing) s := by
  rw [abrAex, if_neg (by simp [hb]), if_pos hc]

/-- Settles O24, the three branches of ABR.AEX. -/
theorem exhaustionCheck : Obligations.ExhaustionCheck := fun _ =>
  ⟨fun hb => congrArg (Ret.outcome _ _) (abrAex_nobuf hb),
    fun hb hc => congrArg (Ret.outcome _ _) (abrAex_trailing hb hc),
    fun hb hc => congrArg (Ret.outcome _ _) (abrAex_ok hb hc)⟩

end Sys2Proof.Machine
end

section
/-! ### The value of a read that fits (spec/40_armor_reader.md R93 to R96, R98 (a), 20_memory.md R41) -/

namespace Sys2Proof.Machine

theorem bitsAt_length {buf : List Bool} {a n : Nat} (h : a + n ≤ buf.length) : (bitsAt buf a n).length = n := by
  rw [List.length_take, List.length_drop]
  omega

theorem bitsAt_getD {buf : List Bool} {a n i : Nat} (h : i < n) :
    (bitsAt buf a n).getD i false = buf.getD (a + i) false := by
  simp [List.getD_eq_getElem?_getD, h]

theorem bitsAt_one {buf : List Bool} {a : Nat} {b : Bool} (h : buf[a]? = some b) : bitsAt buf a 1 = [b] := by
  obtain ⟨hlt, rfl⟩ := List.getElem?_eq_some_iff.1 h
  rw [bitsAt, List.drop_eq_getElem_cons hlt, List.take_succ_cons, List.take_zero]

/-- The bit at index `i` of `n` has the weight `2^(n-1-i)` (R12). -/
theorem uintMsb_eq_sum (b : List Bool) :
    uintMsb b = ((List.range b.length).map fun i => (b.getD i false).toNat * 2 ^ (b.length - 1 - i)).sum := by
  induction b with
  | nil => rfl
  | cons x xs ih =>
    simp [uintMsb, ih, List.range_succ_eq_map, Function.comp_def, Nat.sub_sub, Nat.add_comm 1]

theorem uint_singleton (o : BitOrder) (b : Bool) : uint o [b] = b.toNat := by
  cases o <;> simp [uint, uintMsb, uintLsb]

theorem uint_bitsAt_lt (o : BitOrder) {buf : List Bool} {a n : Nat} (h : a + n ≤ buf.length) :
    uint o (bitsAt buf a n) < 2 ^ n := by
  simpa only [bitsAt_length h] using uint_lt o (bitsAt buf a n)

/-- Under `msb_first` the bit at the lowest address weighs most (R41). -/
theorem uintMsb_bitsAt {buf : List Bool} {a n : Nat} (h : a + n ≤ buf.length) :
    uintMsb (bitsAt buf a n) =
      ((List.range n).map fun i => (buf.getD (a + i) false).toNat * 2 ^ (n - 1 - i)).sum := by
  rw [uintMsb_eq_sum, bitsAt_length h]
  refine congrArg List.sum (List.map_congr_left fun i hi => ?_)
  rw [bitsAt_getD (List.mem_range.1 hi)]

/-- A read is two reads end to end, the first of them the high part (R98 (a)). -/
theorem uintMsb_bitsAt_add {buf : List Bool} {a m n : Nat} (h : a + (m + n) ≤ buf.length) :
    uintMsb (bitsAt buf a (m + n)) = uintMsb (bitsAt buf a m) * 2 ^ n + uintMsb (bitsAt buf (a + m) n) := by
  rw [bitsAt, List.take_add, List.drop_drop, uintMsb_append, bitsAt_length (by omega)]

/-- ABR.RDU of bits that are there (R93). -/
theorem exec_abrRdu_fits {s : State} {n : Nat} (hb : s.bv = true) (h1 : 1 ≤ n) (h2 : n ≤ 32)
    (hl : s.cur + n ≤ s.len) :
    let u := uint s.cfg.bitOrder (bitsAt s.buf s.cur n)
    exec (.abrRdu n) s = .next (((s.advance n).setRes (BitVec.ofNat 32 u)).respond (.ok (.nat u)) []) :=
  congrArg (Ret.outcome _ _) (readLatch_fits hb h1 h2 hl)

/-- Settles O20: the read's answer, and the weights of its bits. -/
theorem unsignedReadReturnsTheNextBits : Obligations.UnsignedReadReturnsTheNextBits := by
  intro s n hb h1 h2 hl u
  refine ⟨uint_bitsAt_lt _ hl, fun ho => ?_, exec_abrRdu_fits hb h1 h2 hl⟩
  simp only [u, ho]
  exact uintMsb_bitsAt hl

/-- A read's two's-complement value fits the 32 bits of `RES` (R13, R94). -/
theorem toInt_ofInt_sext {n u : Nat} (h1 : 1 ≤ n) (h2 : n ≤ 32) (hu : u < 2 ^ n) :
    (BitVec.ofInt 32 (sext n u)).toInt = sext n u := by
  obtain ⟨hlo, hhi⟩ := sext_range h1 hu
  have wide : (2 : Int) ^ (n - 1) ≤ 2 ^ 31 := pow_le_pow_right₀ (by decide) (by omega)
  exact BitVec.toInt_ofInt_eq_self (by decide) (by omega) (by omega)

/-- Settles O21: the checks of `readLatch`, then the range of `sext`. -/
theorem signedReadIsTwosComplement : Obligations.SignedReadIsTwosComplement := by
  intro s n
  refine ⟨fun hb => congrArg (Ret.outcome _ _) (readLatch_nobuf hb),
    fun hb hn => congrArg (Ret.outcome _ _) (readLatch_operand hb hn),
    fun hb h1 h2 hl => congrArg (Ret.outcome _ _) (readLatch_underrun hb h1 h2 hl),
    fun hb h1 h2 hl => ?_⟩
  have hu : uint s.cfg.bitOrder (bitsAt s.buf s.cur n) < 2 ^ n := uint_bitsAt_lt _ hl
  obtain ⟨hlo, hhi⟩ := sext_range h1 hu
  exact ⟨_, rfl, hlo, Int.le_sub_one_of_lt hhi, toInt_ofInt_sext h1 h2 hu,
    congrArg (Ret.outcome _ _) (readLatch_fits hb h1 h2 hl)⟩

/-- ABR.RDB of a bit that is there (R95). -/
theorem abrRdb_fits {s : State} {b : Bool} (hb : s.bv = true) (h : s.buf[s.cur]? = some b) :
    abrRdb s = .ok b ((s.advance 1).setRes (BitVec.ofNat 32 b.toNat)) := by
  have hl : s.cur + 1 ≤ s.len := (List.getElem?_eq_some_iff.1 h).1
  rw [abrRdb, readLatch_fits hb le_rfl (by decide) hl, bitsAt_one h, uint_singleton]
  cases b <;> rfl

/-- Settles O22: `abrRdb_fits`, and ABR.RDR's bits as they stand. -/
theorem booleanAndRawReads : Obligations.BooleanAndRawReads :=
  ⟨fun _ _ hb h => congrArg (Ret.outcome _ _) (abrRdb_fits hb h),
    fun _ _ hb h1 h2 hl => ⟨bitsAt_length hl, congrArg (Ret.outcome _ _) (readLatch_fits hb h1 h2 hl)⟩⟩

/-- Settles O25: the second read begins where the first one ends. -/
theorem readsConcatenate : Obligations.ReadsConcatenate := by
  intro s a b ho hb ha1 hb1 hab hl
  have hlb : s.cur + a + b ≤ s.len := by omega
  refine ⟨_, _, _, _, _, exec_abrRdu_fits hb ha1 (by omega) (by omega), rfl,
    exec_abrRdu_fits (by exact hb) hb1 (by omega) (by exact hlb), rfl,
    exec_abrRdu_fits hb (by omega) hab hl, ?_, (Nat.add_assoc ..).symm⟩
  simpa [ho, uint] using uintMsb_bitsAt_add hl

end Sys2Proof.Machine
end

section
/-! ### The buffer of a legal text, and its characters read back (spec/40_armor_reader.md R90, R98 (b)) -/

namespace Sys2Proof.Machine

/-- The bits of a legal text: the six of each character in order (R41). -/
def textBits (o : BitOrder) (t : Text) : List Bool := t.flatMap fun c => charBits o ((armor c).getD 0)

theorem textBits_cons (o : BitOrder) (c : Byte) (t : Text) :
    textBits o (c :: t) = charBits o ((armor c).getD 0) ++ textBits o t := rfl

theorem dearmor_legal (o : BitOrder) {t : Text} (h : ∀ c ∈ t, armor c ≠ none) :
    dearmor o t = some (textBits o t) := by
  rw [dearmor_eq, if_pos fun c hc => Option.isSome_iff_ne_none.2 (h c hc)]
  rfl

theorem textBits_length (o : BitOrder) (t : Text) : (textBits o t).length = 6 * t.length := by
  simp [textBits, List.length_flatMap, Nat.mul_comm]

/-- Character `k` has the six bits from address `6 k` on. -/
theorem bitsAt_textBits (o : BitOrder) {t : Text} {k : Nat} {c : Byte} (h : t[k]? = some c) :
    bitsAt (textBits o t) (6 * k) 6 = charBits o ((armor c).getD 0) := by
  induction t generalizing k with
  | nil => simp at h
  | cons x xs ih =>
    rw [textBits_cons]
    cases k with
    | zero =>
      cases h
      exact List.take_left' (charBits_length ..)
    | succ k =>
      rw [bitsAt, Nat.mul_succ, Nat.add_comm, ← List.drop_drop, List.drop_left' (charBits_length ..)]
      exact ih (by simpa using h)

/-- ABR.LOAD of a legal text that fits (R90). -/
theorem exec_abrLoad_legal {s : State} {t : Text} (hl : exceeds (loadMax s.cfg) t.length = false)
    (h : ∀ c ∈ t, armor c ≠ none) :
    exec (.abrLoad t) s = .next ((s.loadBuf (textBits s.cfg.bitOrder t)).respond (.ok .none) []) := by
  have load : abrLoad t s = .ok () (s.loadBuf (textBits s.cfg.bitOrder t)) := by
    simp [abrLoad, hl, dearmor_legal _ h]
  exact congrArg (Ret.outcome _ _) load

/-- Settles O19: the bits of the text, loaded. -/
theorem loadBuildsTheBuffer : Obligations.LoadBuildsTheBuffer := fun s t hl h =>
  ⟨textBits_length s.cfg.bitOrder t, exec_abrLoad_legal hl h⟩

/-- Settles O26: the read meets the six bits of one character, and these read back (`uint_charBits`). -/
theorem sixBitReadsRecoverTheText : Obligations.SixBitReadsRecoverTheText := by
  intro s t text k c hl hlegal ht hk
  cases (exec_abrLoad_legal hl hlegal).symm.trans ht
  obtain ⟨hlt, hc⟩ := List.getElem?_eq_some_iff.1 hk
  obtain ⟨v, hv⟩ := Option.ne_none_iff_exists'.1 (hlegal c (hc ▸ List.getElem_mem hlt))
  have fits : 6 * k + 6 ≤ (textBits s.cfg.bitOrder text).length := by
    rw [textBits_length]
    omega
  have value : uint s.cfg.bitOrder (bitsAt (textBits s.cfg.bitOrder text) (6 * k) 6) = v := by
    rw [bitsAt_textBits _ hk, hv, Option.getD_some, uint_charBits _ (armor_lt hv)]
  exact ⟨_, v, exec_abrRdu_fits rfl (by decide) (by decide) fits, rfl,
    congrArg (fun u => Result.ok (.nat u)) value, hv, unarmor_armor hv⟩

end Sys2Proof.Machine
end

section
/-! ### The checks of PAR.PARSE, in their order (spec/41_sentence_parser.md R110 to R122) -/

namespace Sys2Proof.Machine

/-! What PAR.PARSE answers, with the state unchanged (R110) -/

theorem exec_parParse_sentence {l : Text} {s : State} {snt : Sentence} (h : parse s.cfg l = .sentence snt) :
    exec (.parParse l) s = .next (s.respond (.ok (.sentence snt)) []) :=
  congrArg (Ret.outcome _ _) (show parParse l s = .ok snt s by rw [parParse, h])

theorem exec_parParse_error {l : Text} {s : State} {e : ParseCause} (h : parse s.cfg l = .error e) :
    exec (.parParse l) s = .next (s.respond (.err (.parse e)) []) :=
  congrArg (Ret.outcome _ _) (show parParse l s = .err (.parse e) s by rw [parParse, h])

/-! The first byte (R111, R112), and the number of fields (R113) -/

section
variable {c : Config} {l : Text} (hl : exceeds c.lineMax l.length = false)
include hl

theorem parse_delimited (h : l.head? = some dollar) : parse c l = .sentence (.delimited l) := by
  rw [parse, if_neg (by simp [hl]), h]
  rfl

theorem parse_comment (h : l.head? = some hashSign) : parse c l = .sentence (.comment l) := by
  rw [parse, if_neg (by simp [hl]), h]
  rfl

theorem parse_marker (hb : l.head? ≠ some bang) (hd : l.head? ≠ some dollar) (hh : l.head? ≠ some hashSign) :
    parse c l = .error .marker := by
  rw [parse, if_neg (by simp [hl])]
  cases hm : l.head? with
  | none => rfl
  | some m =>
    rw [hm, ne_eq, Option.some.injEq] at hb hd hh
    simp only [if_neg hb, if_neg hd, if_neg hh]

/-- A `'!'` line has its seven fields checked, or it has another number of fields. -/
theorem parse_bang (h : l.head? = some bang) :
    (∃ f0 f1 f2 f3 f4 f5 f6, split comma l = [f0, f1, f2, f3, f4, f5, f6] ∧
      parse c l = parseFields c l f0 f1 f2 f3 f4 f5 f6) ∨
    ((split comma l).length ≠ 7 ∧ parse c l = .error .fields) := by
  rw [parse, if_neg (by simp [hl]), h]
  dsimp only
  rw [if_neg (by decide), if_neg (by decide), if_pos rfl]
  split
  · next hs => exact .inl ⟨_, _, _, _, _, _, _, hs, rfl⟩
  · next hs =>
    refine .inr ⟨fun h7 => ?_, rfl⟩
    match hf : split comma l, h7 with
    | [_, _, _, _, _, _, _], _ => exact hs _ _ _ _ _ _ _ hf

theorem parse_not_seven (h : l.head? = some bang) (h7 : (split comma l).length ≠ 7) :
    parse c l = .error .fields := by
  obtain ⟨_, _, _, _, _, _, _, hf, -⟩ | ⟨-, he⟩ := parse_bang hl h
  · exact absurd (congrArg List.length hf) h7
  · exact he

theorem parse_seven (h : l.head? = some bang) {f0 f1 f2 f3 f4 f5 f6 : Text}
    (hf : split comma l = [f0, f1, f2, f3, f4, f5, f6]) : parse c l = parseFields c l f0 f1 f2 f3 f4 f5 f6 := by
  obtain ⟨_, _, _, _, _, _, _, hf', he⟩ | ⟨h7, -⟩ := parse_bang hl h
  · cases hf.symm.trans hf'
    exact he
  · exact absurd (congrArg List.length hf) h7

end

/-- Settles O31: the three outcomes of the first byte's check. -/
theorem otherFramesPassThrough : Obligations.OtherFramesPassThrough := fun _ _ hl =>
  ⟨fun h => exec_parParse_sentence (parse_delimited hl h), fun h => exec_parParse_sentence (parse_comment hl h),
    fun hb hd hh => exec_parParse_error (parse_marker hl hb hd hh)⟩

/-! The lexical checks of the fields (R114 to R117) -/

section
variable (c : Config) (l : Text) {f0 f1 f2 : Text} (f3 f4 f5 : Text) {f6 : Text}

theorem parseFields_header (h0 : f0.length < 3) : parseFields c l f0 f1 f2 f3 f4 f5 f6 = .error .header :=
  if_pos h0

theorem parseFields_integer (h0 : 3 ≤ f0.length) (hd : decimal f1 = false ∨ decimal f2 = false) :
    parseFields c l f0 f1 f2 f3 f4 f5 f6 = .error .integer := by
  rw [parseFields, if_neg (by omega), if_pos hd]

theorem parseFields_ckField (h0 : 3 ≤ f0.length) (h1 : decimal f1 = true) (h2 : decimal f2 = true)
    (h6 : statedChecksum c.hexCase f6 = none) : parseFields c l f0 f1 f2 f3 f4 f5 f6 = .error .ckField := by
  rw [parseFields, if_neg (by omega), if_neg (by simp [h1, h2]), h6]

/-- A wrong checksum is met before the two capacities, so the fields are in error, not refused. -/
theorem parseFields_error_of_checksum {ck : Byte} (h6 : statedChecksum c.hexCase f6 = some ck)
    (hx : xorAll (checksumSpan l) ≠ ck) : ∃ e, parseFields c l f0 f1 f2 f3 f4 f5 f6 = .error e := by
  by_cases h0 : f0.length < 3
  · exact ⟨_, parseFields_header c l f3 f4 f5 h0⟩
  by_cases hd : decimal f1 = false ∨ decimal f2 = false
  · exact ⟨_, parseFields_integer c l f3 f4 f5 (by omega) hd⟩
  · rw [parseFields, if_neg h0, if_neg hd, h6]
    exact ⟨_, if_pos hx⟩

end

/-- A field that does not end with `'*'` and two hex digits states no checksum (R69). -/
theorem statedChecksum_none {hc : HexCase} {f6 : Text}
    (h : ∀ pad a b, f6 = pad ++ [asterisk, a, b] → hexVal hc a = none ∨ hexVal hc b = none) :
    statedChecksum hc f6 = none := by
  cases hs : statedChecksum hc f6 with
  | none => rfl
  | some ck =>
    obtain ⟨pad, a, b, _, _, he, ha, hb, -⟩ := statedChecksum_some hs
    simpa [ha, hb] using h pad a b he

/-! The checks of a line put together from its parts, from the checksum on (R117 to R120) -/

section
variable {c : Config} {p : LineParts} {ck : Byte} (h : p.fieldsOk) (hs : p.states c.hexCase ck)
  (hl : exceeds c.lineMax p.line.length = false)
include h hs hl

theorem parse_line_ckSum (hx : xorAll p.span ≠ ck) : parse c p.line = .error .ckSum := by
  rw [parse_line h hs hl, if_pos hx]

variable (hx : xorAll p.span = ck) (hp : exceeds c.partsMax p.countOf = false)
include hx hp

theorem parse_line_partIdx (hi : ¬(1 ≤ p.indexOf ∧ p.indexOf ≤ p.countOf)) : parse c p.line = .error .partIdx := by
  rw [parse_line h hs hl, if_neg (not_not.2 hx), if_neg (by simp [hp]), if_pos hi]

variable (hi : 1 ≤ p.indexOf ∧ p.indexOf ≤ p.countOf)
include hi

theorem parse_line_channel (hc : inChannelSet c p.channel = false) : parse c p.line = .error .channel := by
  rw [parse_line h hs hl, if_neg (not_not.2 hx), if_neg (by simp [hp]), if_neg (not_not.2 hi), if_pos hc]

variable (hc : inChannelSet c p.channel = true)
include hc

theorem parse_line_seqId (hq : ¬(p.seqId ≠ [] ↔ 1 < p.countOf)) : parse c p.line = .error .seqId := by
  rw [parse_line h hs hl, if_neg (not_not.2 hx), if_neg (by simp [hp]), if_neg (not_not.2 hi),
    if_neg (by simp [hc]), if_pos hq]

theorem parse_line_sentence (hq : p.seqId ≠ [] ↔ 1 < p.countOf)
    (hf : exceeds c.fragMax p.payload.length = false) :
    parse c p.line = .sentence (.encapsulated (p.fragment ck)) := by
  rw [parse_line h hs hl, if_neg (not_not.2 hx), if_neg (by simp [hp]), if_neg (not_not.2 hi),
    if_neg (by simp [hc]), if_neg (not_not.2 hq), if_neg (by simp [hf])]

end

/-- Settles O27: no check of the line fails. -/
theorem wellFormedLineParses : Obligations.WellFormedLineParses :=
  fun _ _ _ h hs hx h1 h2 hc hq hl hp hf =>
    exec_parParse_sentence (parse_line_sentence h hs hl hx hp ⟨h1, h2⟩ hc hq hf)

/-- Settles O29: the part index is checked first, the sequence id after the channel. -/
theorem partFieldsAreConsistent : Obligations.PartFieldsAreConsistent := by
  refine fun s p ck h hs hx hl hp => ⟨fun hi => ?range, fun h1 h2 hc hq => ?seqId, fun h1 h2 hc hf hq => ?passes⟩
  case range => exact exec_parParse_error (parse_line_partIdx h hs hl hx hp hi)
  case seqId => exact exec_parParse_error (parse_line_seqId h hs hl hx hp ⟨h1, h2⟩ hc hq)
  case passes =>
    have consistent : p.seqId ≠ [] ↔ 1 < p.countOf := by
      obtain ⟨hq, hn⟩ | ⟨hq, hn⟩ := hq
      · exact iff_of_true hq hn
      · exact iff_of_false (not_not.2 hq) (by omega)
    exact ⟨_, exec_parParse_sentence (parse_line_sentence h hs hl hx hp ⟨h1, h2⟩ hc consistent hf), rfl⟩

/-- Settles O30: each check in its turn, those before it having passed. -/
theorem malformedLinesAreParseErrors : Obligations.MalformedLinesAreParseErrors := by
  refine ⟨fun s line hb hl => ⟨fun h7 => ?fields, fun f0 f1 f2 f3 f4 f5 f6 hf =>
    ⟨fun h0 => ?header, fun h0 hd => ?integer, fun h0 h1 h2 h6 => ?ckField⟩⟩,
    fun s p ck h hs hx hl hp h1 h2 hc1 hc2 => ?channel⟩
  case fields => exact exec_parParse_error (parse_not_seven hl hb h7)
  case header => exact exec_parParse_error ((parse_seven hl hb hf).trans (parseFields_header _ _ _ _ _ h0))
  case integer => exact exec_parParse_error ((parse_seven hl hb hf).trans (parseFields_integer _ _ _ _ _ h0 hd))
  case ckField =>
    exact exec_parParse_error ((parse_seven hl hb hf).trans
      (parseFields_ckField _ _ _ _ _ h0 h1 h2 (statedChecksum_none h6)))
  case channel =>
    have outside : inChannelSet s.cfg p.channel = false := by simp [inChannelSet, hc1, hc2]
    exact exec_parParse_error (parse_line_channel h hs hl hx hp ⟨h1, h2⟩ outside)

end Sys2Proof.Machine
end

section
/-! ### The checksum guards the span (spec/41_sentence_parser.md R117) -/

namespace Sys2Proof.Machine

/-- A byte that is replaced without changing the XOR of the text was there before. -/
theorem getElem?_of_xorAll_set {t : Text} {j : Nat} {b : Byte} (hj : j < t.length)
    (h : xorAll (t.set j b) = xorAll t) : t[j]? = some b := by
  induction t generalizing j with
  | nil => cases hj
  | cons x xs ih =>
    cases j with
    | zero =>
      rw [List.set_cons_zero, xorAll_cons, xorAll_cons, BitVec.xor_left_inj] at h
      rw [List.getElem?_cons_zero, h]
    | succ j =>
      rw [List.set_cons_succ, xorAll_cons, xorAll_cons, BitVec.xor_right_inj] at h
      rw [List.getElem?_cons_succ]
      exact ih (Nat.lt_of_succ_lt_succ hj) h

theorem checksumSpan_of_digits (span : Text) (a b : Byte) :
    checksumSpan (bang :: (span ++ [asterisk, a, b])) = span := by
  simp [checksumSpan]

/-- A line that gives an encapsulated Sentence: the marker, the span, `'*'` and two hex digits for the span's XOR. -/
theorem encapsulated_span {c : Config} {l : Text} {f : Fragment} (h : parse c l = .sentence (.encapsulated f)) :
    ∃ span a b hv lv, l = bang :: (span ++ [asterisk, a, b]) ∧ hexVal c.hexCase a = some hv ∧
      hexVal c.hexCase b = some lv ∧ xorAll span = BitVec.ofNat 8 (16 * hv + lv) := by
  obtain ⟨_, _, _, _, _, _, f6, hb, -, hf, hp⟩ := parse_encapsulated h
  obtain ⟨-, -, -, hst, hx, -⟩ := parseFields_sentence hp
  obtain ⟨pad, a, b, hv, lv, rfl, ha, hbv, hck⟩ := statedChecksum_some hst
  obtain ⟨pre, hl⟩ := split_suffix comma l
  rw [hf, show [_, _, _, _, _, _, pad ++ [asterisk, a, b]].getLastD [] = pad ++ [asterisk, a, b] from rfl,
    ← List.append_assoc] at hl
  obtain ⟨span, rfl⟩ : ∃ span, l = bang :: (span ++ [asterisk, a, b]) := by
    cases hbody : pre ++ pad with
    | nil =>
      rw [hl, hbody] at hb
      exact absurd (Option.some.inj hb : asterisk = bang) (by decide)
    | cons m span =>
      rw [hl, hbody] at hb
      cases hb
      exact ⟨span, hl.trans (congrArg (· ++ _) hbody)⟩
  refine ⟨span, a, b, hv, lv, rfl, ha, hbv, ?_⟩
  rw [← hck, ← hx, checksumSpan_of_digits]

/-- A `'!'` line that ends with `'*'` and two hex digits for another value than the XOR of its span is in error,
whatever its fields. -/
theorem parse_error_of_span {c : Config} {span : Text} {a b : Byte} {hv lv : Nat}
    (hl : exceeds c.lineMax (bang :: (span ++ [asterisk, a, b])).length = false)
    (ha : hexVal c.hexCase a = some hv) (hb : hexVal c.hexCase b = some lv)
    (hx : xorAll span ≠ BitVec.ofNat 8 (16 * hv + lv)) :
    ∃ e, parse c (bang :: (span ++ [asterisk, a, b])) = .error e := by
  obtain ⟨f0, f1, f2, f3, f4, f5, f6, hf, hp⟩ | ⟨-, hp⟩ := parse_bang hl rfl
  · have free : comma ∉ [asterisk, a, b] := by
      simp only [List.mem_cons, List.not_mem_nil, not_or, or_false]
      exact ⟨by decide, (hexVal_ne ha).1.symm, (hexVal_ne hb).1.symm⟩
    have last : f6 = (split comma (bang :: span)).getLastD [] ++ [asterisk, a, b] := by
      have := congrArg (List.getLastD · []) (hf.symm.trans (split_append_free comma (bang :: span) free))
      simpa using this
    rw [hp]
    subst last
    exact parseFields_error_of_checksum _ _ _ _ _ (statedChecksum_ok _ ha hb) (by rwa [checksumSpan_of_digits])
  · exact ⟨_, hp⟩

/-- Settles O28: the mismatch by `parse_line_ckSum`; a changed byte changes the XOR of the span, while the two
digits go on stating the old one. -/
theorem checksumGuardsTheSpan : Obligations.ChecksumGuardsTheSpan := by
  refine ⟨fun s p ck h hs hx hl => ?mismatch, fun s l f k b h h1 hk hne => ?changed, fun s l f h => ?unmodified⟩
  case mismatch => exact exec_parParse_error (parse_line_ckSum h hs hl hx)
  case changed =>
    obtain ⟨_, _, _, _, _, _, _, -, hl, -⟩ := parse_encapsulated h
    obtain ⟨span, d1, d2, hv, lv, rfl, hd1, hd2, hx⟩ := encapsulated_span h
    obtain ⟨j, rfl⟩ := Nat.exists_eq_add_of_le' h1
    have hj : j < span.length := by
      simp only [List.length_cons, List.length_append, List.length_nil] at hk
      omega
    have changed : xorAll (span.set j b) ≠ BitVec.ofNat 8 (16 * hv + lv) := by
      intro e
      refine hne ?_
      rw [List.getElem?_cons_succ, List.getElem?_append_left hj]
      exact getElem?_of_xorAll_set hj (e.trans hx.symm)
    obtain ⟨e, he⟩ := parse_error_of_span (by simpa using hl) hd1 hd2 changed
    rw [List.set_cons_succ, List.set_append_left _ _ hj]
    exact ⟨e, _, exec_parParse_error he, rfl⟩
  case unmodified =>
    obtain ⟨_, _, _, _, _, _, _, -, -, -, hp⟩ := parse_encapsulated h
    obtain ⟨-, -, -, -, hx, -⟩ := parseFields_sentence hp
    exact ⟨hx.symm, _, exec_parParse_sentence h, rfl⟩

end Sys2Proof.Machine
end

section
/-! ### What a parsed Sentence guarantees (spec/41_sentence_parser.md R121, 10_state.md R30) -/

namespace Sys2Proof.Machine

/-- RSM.PUSH answers an error only for a Sentence that is neither self-contained nor a fragment (R136). -/
theorem rsmPush_never_errs {f : Fragment} (h : selfContained f = true ∨ isFragment f = true) (s t : State)
    (e : Error) : rsmPush (.encapsulated f) s ≠ .err e t := by
  cases ho : overCapacity s.cfg (.encapsulated f) with
  | some r =>
    rw [rsmPush_over ho]
    nofun
  | none =>
    rw [rsmPush_fits ho]
    obtain h | h := h
    · rw [offer_selfContained h]
      nofun
    · rw [offer_fragment h]
      obtain ⟨_, _, hp⟩ | ⟨_, _, hp⟩ | ⟨_, _, hp⟩ | ⟨_, _, _, hp⟩ | ⟨_, _, _, hp⟩ := pushFragment_cases h s <;>
        rw [hp] <;> nofun

/-- A part index in range and a sequence id exactly when there are several parts leave these two shapes. -/
theorem selfContained_or_isFragment {f : Fragment} (h1 : 1 ≤ f.partIndex) (h2 : f.partIndex ≤ f.partCount)
    (hq : f.seqId ≠ [] ↔ 1 < f.partCount) : selfContained f = true ∨ isFragment f = true := by
  by_cases hid : f.seqId = []
  · have hn : ¬1 < f.partCount := fun h => hq.2 h hid
    exact .inl ((selfContained_iff f).2 ⟨by omega, hid, by omega⟩)
  · exact .inr ((isFragment_iff f).2 ⟨hid, hq.1 hid, h1, h2⟩)

/-- Settles O32: what the checks leave (`parseFields_sentence`), and the two shapes RSM.PUSH takes. -/
theorem parsedSentenceGuarantees : Obligations.ParsedSentenceGuarantees := by
  intro c line f h
  obtain ⟨f0, _, _, _, _, _, _, -, -, -, hp⟩ := parse_encapsulated h
  obtain ⟨h0, -, -, -, hx, -, h1, h2, hc, hq, -, hf⟩ := parseFields_sentence hp
  have talker : f.talker.length = 2 := by
    rw [hf, List.length_take, List.length_drop]
    omega
  have shape := selfContained_or_isFragment h1 h2 hq
  refine ⟨by rw [hf], talker, hx.symm, h1, h2, hc, hq, shape, fun s t e ht he => ?_⟩
  obtain ⟨_, _, -, rfl⟩ | ⟨_, _, hr, -⟩ := Ret.outcome_next ht
  · cases he
  · exact rsmPush_never_errs shape _ _ _ hr

end Sys2Proof.Machine
end

section
/-! ### RSM.PUSH of a Sentence that fits (spec/42_reassembler.md R130 to R136) -/

namespace Sys2Proof.Machine

/-! The end of a push, from what the state machine answers -/

section
variable {snt : Sentence} {f : Fragment} {s : State} {v : Option Text} {ev : List BreakCause} {q : List Fragment}

theorem exec_rsmPush_ok (ho : overCapacity s.cfg snt = none) (h : offer snt s = .ok (v, ev) (s.setQ q)) :
    exec (.rsmPush snt) s = .next ((s.setQ q).respond (.ok (.text v)) ev) :=
  congrArg (Ret.outcome _ _) ((rsmPush_fits ho).trans h)

theorem exec_rsmPush_fragment (ho : overCapacity s.cfg (.encapsulated f) = none) (hf : isFragment f = true)
    (h : pushFragment f s = .ok (v, ev) (s.setQ q)) :
    exec (.rsmPush (.encapsulated f)) s = .next ((s.setQ q).respond (.ok (.text v)) ev) :=
  exec_rsmPush_ok ho ((offer_fragment hf s).trans h)

theorem exec_rsmPush_shape (ho : overCapacity s.cfg snt = none)
    (h : ∀ f, snt = .encapsulated f → selfContained f = false ∧ isFragment f = false) :
    exec (.rsmPush snt) s = .next ((s.setQ []).respond (.err (.reassembly .shape)) []) :=
  congrArg (Ret.outcome _ _) ((rsmPush_fits ho).trans (offer_other h s))

end

/-- Settles O33: the self-contained arm. -/
theorem selfContainedIsEmittedAtOnce : Obligations.SelfContainedIsEmittedAtOnce := fun s f hc hid hi hl hp hx =>
  exec_rsmPush_ok ((overCapacity_encapsulated s.cfg f).2 ⟨hl, hc.symm ▸ hp, hx⟩)
    (offer_selfContained ((selfContained_iff f).2 ⟨hc, hid, hi⟩) s)

/-! A fragment joins the queue, breaks it, or is an orphan -/

/-- `f` starts an accumulation, or continues the last fragment queued (R132). -/
def Joins (q : List Fragment) (f : Fragment) : Prop :=
  (q = [] ∧ f.partIndex = 1) ∨
    ∃ p, q.getLast? = some p ∧ sameMessage p f ∧ f.partIndex = p.partIndex + 1

/-- A fragment joins the queue unless it breaks it or is an orphan. -/
theorem joins_iff {q : List Fragment} {f : Fragment} :
    Joins q f ↔ breaks q f = false ∧ ¬(q = [] ∧ f.partIndex ≠ 1) := by
  constructor
  · rintro (⟨rfl, hi⟩ | ⟨p, hp, hc⟩)
    · exact ⟨rfl, fun h => h.2 hi⟩
    · refine ⟨by rw [breaks_last hp, (continues_iff p f).2 hc]; rfl, ?_⟩
      rintro ⟨rfl, -⟩
      cases hp
  · rintro ⟨hb, hs⟩
    obtain rfl | ⟨p, hp, hc⟩ := breaks_false hb
    · exact .inl ⟨rfl, by simpa using hs⟩
    · exact .inr ⟨p, hp, (continues_iff p f).1 hc⟩

theorem breaks_of_not_continues {q : List Fragment} {f p : Fragment} (hp : q.getLast? = some p)
    (hn : ¬(sameMessage p f ∧ f.partIndex = p.partIndex + 1)) : breaks q f = true := by
  rw [breaks_last hp, Bool.not_eq_true', Bool.eq_false_iff]
  exact fun hc => hn ((continues_iff p f).1 hc)

section
variable {s : State} {f : Fragment} (hf : isFragment f = true)
include hf

theorem pushFragment_joins (hj : Joins s.q f) :
    pushFragment f s =
      if f.partIndex = f.partCount then .ok (some ((s.q ++ [f]).flatMap (·.payload)), []) (s.setQ [])
      else .ok (none, []) (s.setQ (s.q ++ [f])) := by
  obtain ⟨hb, hs⟩ := joins_iff.1 hj
  obtain ⟨hb', -⟩ | ⟨hb', -⟩ | ⟨hq, hi, -⟩ | ⟨-, -, hl, h⟩ | ⟨-, -, hn, h⟩ := pushFragment_cases hf s
  · cases hb.symm.trans hb'
  · cases hb.symm.trans hb'
  · exact absurd ⟨hq, hi⟩ hs
  · rw [h, if_pos hl]
  · rw [h, if_neg hn]

theorem pushFragment_breaks (hb : breaks s.q f = true) :
    pushFragment f s = .ok (none, [.sequence]) (s.setQ (if f.partIndex = 1 then [f] else [])) := by
  obtain ⟨-, hi, h⟩ | ⟨-, hi, h⟩ | ⟨hq, -⟩ | ⟨hb', -⟩ | ⟨hb', -⟩ := pushFragment_cases hf s
  · rw [h, if_neg hi]
  · rw [h, if_pos hi]
  · rw [hq] at hb
    cases hb
  · cases hb.symm.trans hb'
  · cases hb.symm.trans hb'

theorem pushFragment_orphan (hq : s.q = []) (hi : f.partIndex ≠ 1) :
    pushFragment f s = .ok (none, [.orphan]) (s.setQ []) := by
  have hb : breaks s.q f = false := by rw [hq]; rfl
  obtain ⟨hb', -⟩ | ⟨hb', -⟩ | ⟨-, -, h⟩ | ⟨-, hs, -⟩ | ⟨-, hs, -⟩ := pushFragment_cases hf s
  · cases hb.symm.trans hb'
  · cases hb.symm.trans hb'
  · exact h
  · exact absurd ⟨hq, hi⟩ hs
  · exact absurd ⟨hq, hi⟩ hs

end

/-- Settles O34: the two ways a fragment that joins the queue goes on. -/
theorem fragmentIsAppendedOrCompletes : Obligations.FragmentIsAppendedOrCompletes := by
  intro s f hid hc h1 hle hl hp hx hj
  have fits := (overCapacity_encapsulated s.cfg f).2 ⟨hl, hp, hx⟩
  have frag := (isFragment_iff f).2 ⟨hid, hc, h1, hle⟩
  exact ⟨fun hlast => exec_rsmPush_fragment fits frag ((pushFragment_joins frag hj).trans (if_pos hlast)),
    fun hn => exec_rsmPush_fragment fits frag ((pushFragment_joins frag hj).trans (if_neg hn))⟩

/-- Settles O35: the fragment breaks the queue, or is an orphan. -/
theorem brokenSequenceRestarts : Obligations.BrokenSequenceRestarts := by
  intro s f hid hc h1 hle hl hp hx
  have fits := (overCapacity_encapsulated s.cfg f).2 ⟨hl, hp, hx⟩
  have frag := (isFragment_iff f).2 ⟨hid, hc, h1, hle⟩
  exact ⟨fun p hlast hn =>
      exec_rsmPush_fragment fits frag (pushFragment_breaks frag (breaks_of_not_continues hlast hn)),
    fun hq hi => exec_rsmPush_fragment fits frag (pushFragment_orphan frag hq hi)⟩

/-! Every other shape (R136) -/

/-- The shapes that R136 excludes are those that are neither self-contained nor a fragment. -/
theorem otherShape_iff (f : Fragment) :
    ((f.partCount = 1 ∧ f.seqId ≠ []) ∨ (1 < f.partCount ∧ f.seqId = []) ∨ f.partCount = 0 ∨
      f.partIndex < 1 ∨ f.partCount < f.partIndex) ↔ selfContained f = false ∧ isFragment f = false := by
  simp only [Bool.eq_false_iff, ne_eq, selfContained_iff, isFragment_iff]
  by_cases hid : f.seqId = []
  · simp only [hid, not_true_eq_false, not_false_eq_true, and_false, and_true, true_and, false_and, false_or]
    omega
  · simp only [hid, not_false_eq_true, and_false, and_true, true_and, false_and, false_or]
    omega

/-- Settles O36: `otherShape_iff` for what RSM.PUSH raises, and for what PAR.PARSE cannot return. -/
theorem otherShapesAreReassemblyErrors : Obligations.OtherShapesAreReassemblyErrors := by
  refine ⟨fun s snt hk hl => ?notEncapsulated, fun s f hl hp hx h => ?otherShape, fun c line f h hn => ?parsed⟩
  case notEncapsulated =>
    exact exec_rsmPush_shape (overCapacity_other hk hl) fun f hs => absurd (by rw [hs]; rfl) hk
  case otherShape =>
    refine exec_rsmPush_shape ((overCapacity_encapsulated s.cfg f).2 ⟨hl, hp, hx⟩) fun g hg => ?_
    cases hg
    exact (otherShape_iff f).1 h
  case parsed =>
    obtain ⟨hs, hf⟩ := (otherShape_iff f).1 hn
    obtain ⟨-, -, -, -, -, -, -, hsc | hfr, -⟩ := parsedSentenceGuarantees c line f h
    · cases hs.symm.trans hsc
    · cases hf.symm.trans hfr

end Sys2Proof.Machine
end

section
/-! ### An emitted text is a whole message (spec/42_reassembler.md R137, 10_state.md R28) -/

namespace Sys2Proof.Machine

/-- A text is emitted by a self-contained Sentence, or by the last part of the message in the queue. -/
theorem rsmPush_emits {f : Fragment} {s t : State} {text : Text} {ev : List BreakCause}
    (h : rsmPush (.encapsulated f) s = .ok (some text, ev) t) :
    (selfContained f = true ∧ text = f.payload) ∨
      (Joins s.q f ∧ f.partIndex = f.partCount ∧ text = (s.q ++ [f]).flatMap (·.payload)) := by
  obtain ⟨_, -, e⟩ | e | ⟨_, ⟨⟩, hsc, e⟩ | ⟨_, ⟨⟩, hf, e⟩ := rsmPush_cases (.encapsulated f) s <;> rw [e] at h
  · cases h
  · cases h
  · cases h
    exact .inl ⟨hsc, rfl⟩
  · obtain ⟨-, -, e⟩ | ⟨-, -, e⟩ | ⟨-, -, e⟩ | ⟨hb, hs, hl, e⟩ | ⟨-, -, -, e⟩ := pushFragment_cases hf s <;>
      rw [e] at h <;> cases h
    exact .inr ⟨joins_iff.2 ⟨hb, hs⟩, hl, rfl⟩

/-- A fragment that joins the queue has the next part index and belongs to the queue's message. -/
theorem Joins.next {q : List Fragment} {f : Fragment} (hq : queueOk q) (hj : Joins q f) :
    f.partIndex = q.length + 1 ∧ ∀ g ∈ q, sameMessage g f := by
  obtain ⟨rfl, hi⟩ | ⟨p, hp, hc⟩ := hj
  · exact ⟨hi, nofun⟩
  · exact continues_queue hq hp ((continues_iff p f).2 hc)

/-- The queue and a fragment that joins it are the parts of one message, in order from 1. -/
theorem Joins.parts {q : List Fragment} {f : Fragment} (hq : queueOk q) (hj : Joins q f) {j : Nat} {g : Fragment}
    (hg : (q ++ [f])[j]? = some g) : g.partIndex = j + 1 ∧ sameMessage g f := by
  obtain ⟨hi, hs⟩ := hj.next hq
  rw [List.getElem?_append] at hg
  split at hg
  · obtain ⟨-, -, gi, -, -⟩ := hq j g hg
    exact ⟨gi, hs g (List.mem_of_getElem? hg)⟩
  · obtain ⟨hj0, rfl⟩ : j - q.length = 0 ∧ f = g := by simpa [List.getElem?_singleton] using hg
    exact ⟨by omega, sameMessage_refl f⟩

/-- Settles O37: the parts of the queue and the last one are the whole message. -/
theorem emittedTextIsAWholeMessage : Obligations.EmittedTextIsAWholeMessage := by
  intro s t f text hq ht hr
  obtain ⟨⟨v, ev⟩, u, hpush, rfl⟩ | ⟨_, _, -, rfl⟩ := Ret.outcome_next ht
  · obtain rfl : v = some text := by simpa using hr
    obtain hsc | ⟨hj, hl, htext⟩ := rsmPush_emits hpush
    · exact .inl hsc
    · have hlen : (s.q ++ [f]).length = f.partCount := by
        rw [List.length_append, List.length_singleton, ← hl, (hj.next hq).1]
      exact .inr ⟨s.q ++ [f], rfl, hlen, fun _ _ => hj.parts hq, htext⟩
  · cases hr

/-- Settles O38: the parts join the queue in turn; the third does not continue the first. -/
theorem partsInOrderAndPartsSkipped : Obligations.PartsInOrderAndPartsSkipped := by
  intro s f g h hq hu hfg hgh hid hc hf1 hg2 hh3
  have ⟨_, _, _, hidg, hcg⟩ := hfg
  have ⟨_, _, _, hidh, hch⟩ := hgh
  have ff := (isFragment_iff f).2 ⟨hid, by omega, by omega, by omega⟩
  have fg := (isFragment_iff g).2 ⟨hidg ▸ hid, by omega, by omega, by omega⟩
  have fh := (isFragment_iff h).2 ⟨hidh ▸ hidg ▸ hid, by omega, by omega, by omega⟩
  have fits := overCapacity_unbounded hu
  have first := (pushFragment_joins ff (.inl ⟨hq, hf1⟩)).trans (if_neg (by omega))
  refine ⟨_, _, _, _, exec_rsmPush_fragment (fits _) ff first, rfl, rfl,
    exec_rsmPush_fragment (fits _) fg ((pushFragment_joins fg ?second).trans (if_neg ?notLast)), rfl, rfl,
    exec_rsmPush_fragment (fits _) fh ((pushFragment_joins fh ?third).trans (if_pos ?last)), ?text, rfl, rfl,
    exec_rsmPush_fragment (fits _) fh (pushFragment_breaks fh (breaks_of_not_continues (p := f) ?queued ?skipped)),
    rfl, rfl, if_neg ?noStart⟩
  case second => exact .inr ⟨f, by simp, hfg, by omega⟩
  case third => exact .inr ⟨g, by simp, hgh, by omega⟩
  case queued => simp
  case skipped => omega
  case text => simp [hq]
  all_goals omega

end Sys2Proof.Machine
end

section
/-! ### What FDC.POSA answers to another buffer than one of 168 bits with the cursor at 6
(spec/44_field_decoder_posa.md R160, R171, R172) -/

namespace Sys2Proof.Machine

variable {s : State}

theorem fdcPosa_nobuf (hb : s.bv = false) : fdcPosa s = .err (.illegal .nobuf) s := if_pos hb

theorem fdcPosa_cursor (hb : s.bv = true) (hc : s.cur ≠ 6) : fdcPosa s = .err (.illegal .cursor) s := by
  rw [fdcPosa, if_neg (by simp [hb]), if_pos (by exact hc)]

/-- Past its preconditions FDC.POSA is the field sequence and the exhaustion check. -/
theorem fdcPosa_eq_readFields (hb : s.bv = true) (hc : s.cur = 6) :
    fdcPosa s = (readFields classA s).bind fun m s1 => (abrAex s1).bind fun _ s2 => .ok m s2 := by
  rw [fdcPosa, if_neg (by simp [hb]), if_neg (not_not.2 hc : ¬s.cur ≠ Config.typeBits)]

/-- A shorter buffer is an underrun at the one field that contains the missing bit (R172). -/
theorem fdcPosa_underrun (hb : s.bv = true) (hc : s.cur = 6) (h6 : 6 ≤ s.len) (hl : s.len < 168) :
    ∃ a w : Nat, (a, w) ∈ classALayout ∧ a ≤ s.len ∧ s.len < a + w ∧
      fdcPosa s = .err (.decode .underrun) { s with cur := a, res := classARes s.cfg.bitOrder s.buf s.res a } := by
  obtain ⟨before, f, after, parts, fits, cut, stops⟩ :=
    readFields_underrun classA hb (by omega) (by rw [hc, totalWidth_classA]; exact hl)
  obtain ⟨field, latched⟩ := classA_split parts s.cfg.bitOrder s.buf s.res
  rw [hc] at fits cut stops
  rw [latched] at stops
  exact ⟨_, _, field, fits, cut, by rw [fdcPosa_eq_readFields hb hc, stops, Ret.bind_err]⟩

/-- A longer buffer fails the exhaustion check after all fields (R171). -/
theorem fdcPosa_trailing (hb : s.bv = true) (hc : s.cur = 6) (hl : 168 < s.len) :
    fdcPosa s = .err (.decode .trailing)
      { s with cur := 168, res := BitVec.ofNat 32 (uint s.cfg.bitOrder (bitsAt s.buf 154 14)) } := by
  have fits : s.cur + totalWidth classA ≤ s.len := by
    rw [hc, totalWidth_classA]
    omega
  rw [fdcPosa_eq_readFields hb hc, readFields_ok classA hb fits, Ret.bind_ok, hc, totalWidth_classA, resAt_classA,
    abrAex_trailing (by exact hb) (by exact hl.ne), Ret.bind_err]

end Sys2Proof.Machine
end

section
/-! ### DSP.DISP: the type code, then the registry (spec/43_dispatcher.md R150 to R152) -/

namespace Sys2Proof.Machine

/-- The state that DSP.DISP routes from: the type code `t` read from the front and stored (R150). -/
def State.readType (t : Nat) (s : State) : State :=
  { s with cur := 6, res := BitVec.ofNat 32 t, typeCode := BitVec.ofNat 6 t }

theorem registry_classA {t : Nat} (ht : t = 1 ∨ t = 2 ∨ t = 3) : registry t = .classA := if_pos ht

theorem registry_ne_classA {t : Nat} (ht : ¬(t = 1 ∨ t = 2 ∨ t = 3)) : registry t ≠ .classA := by
  rw [registry, if_neg ht]
  split <;> decide

section
variable {s : State}

theorem dspDisp_nobuf (hb : s.bv = false) : dspDisp s = .err (.illegal .nobuf) s := if_pos hb

theorem dspDisp_cursor (hb : s.bv = true) (hc : s.cur ≠ 0) : dspDisp s = .err (.illegal .cursor) s := by
  rw [dspDisp, if_neg (by simp [hb]), if_pos hc]

/-- A buffer with no type code is the underrun of the read of it. -/
theorem dspDisp_noType (hb : s.bv = true) (hc : s.cur = 0) (hl : s.len < 6) :
    dspDisp s = .err (.decode .underrun) s := by
  have noType : abrRdu Config.typeBits s = .err (.decode .underrun) s :=
    readLatch_underrun hb (by decide) (by decide) (by rw [hc]; exact hl)
  rw [dspDisp, if_neg (by simp [hb]), if_neg (not_not.2 hc), noType, Ret.bind_err]

end

section
variable {s : State} {t : Nat} (hb : s.bv = true) (hc : s.cur = 0) (hl : 6 ≤ s.len)
  (hu : t = uint s.cfg.bitOrder (bitsAt s.buf 0 6))
include hb hc hl hu

theorem abrRdu_typeCode :
    abrRdu Config.typeBits s = .ok t { s with cur := 6, res := BitVec.ofNat 32 t } := by
  subst hu
  rw [abrRdu, readLatch_fits hb (by decide) (by decide) (by rw [hc]; exact hl)]
  simp only [State.advance, State.setRes, hc]
  rfl

/-- Types 1, 2 and 3 are FDC.POSA's (R151). -/
theorem dspDisp_classA (ht : t = 1 ∨ t = 2 ∨ t = 3) :
    dspDisp s = (fdcPosa (s.readType t)).map fun m => ⟨BitVec.ofNat 6 t, m⟩ := by
  rw [dspDisp, if_neg (by simp [hb]), if_neg (not_not.2 hc), abrRdu_typeCode hb hc hl hu, Ret.bind_ok]
  simp only [registry_classA ht]
  rfl

/-- Every other type gives the empty field map, a stub or not (R152). -/
theorem dspDisp_unsupported (ht : ¬(t = 1 ∨ t = 2 ∨ t = 3)) :
    dspDisp s = .ok ⟨BitVec.ofNat 6 t, []⟩ (s.readType t) := by
  rw [dspDisp, if_neg (by simp [hb]), if_neg (not_not.2 hc), abrRdu_typeCode hb hc hl hu, Ret.bind_ok]
  cases he : registry t with
  | classA => exact absurd he (registry_ne_classA ht)
  | stub => rfl
  | absent => rfl

/-- An error of FDC.POSA is DSP.DISP's (R150). -/
theorem dspDisp_err (ht : t = 1 ∨ t = 2 ∨ t = 3) {e : Error} {s' : State}
    (he : fdcPosa (s.readType t) = .err e s') : dspDisp s = .err e s' := by
  rw [dspDisp_classA hb hc hl hu ht, he, Ret.map_err]

end

/-- Settles O40: the answer of `dspDisp_unsupported`, returned. -/
theorem unsupportedTypesGiveAnEmptyMap : Obligations.UnsupportedTypesGiveAnEmptyMap := fun _ _ hb hc hl hu ht =>
  congrArg (Ret.outcome _ _) (dspDisp_unsupported hb hc hl hu (by omega))

/-- Settles O42: FDC.POSA meets the whole report behind the type code (`fdcPosa_ok`). -/
theorem classAMessagesAreDispatched : Obligations.ClassAMessagesAreDispatched := by
  intro s t hb hc hl hu ht
  have report : dspDisp s = (fdcPosa (s.readType t)).map _ := dspDisp_classA hb hc (by omega) hu ht
  rw [fdcPosa_ok (s := s.readType t) hb rfl hl] at report
  exact congrArg (Ret.outcome _ _) report

/-- Settles O43: FDC.POSA's two errors, and the same from the state in which DSP.DISP calls it. -/
theorem classAOfAnotherLengthFails : Obligations.ClassAOfAnotherLengthFails := by
  refine ⟨fun s hb hc hok => ⟨fun hl => ?_, fun hl => ?_⟩, fun s t hb hc h6 hu ht => ⟨fun hl => ?_, fun hl => ?_⟩⟩
  · obtain ⟨a, w, field, fits, cut, stops⟩ := fdcPosa_underrun hb hc (hc ▸ hok) hl
    exact ⟨a, w, field, fits, cut, congrArg (Ret.outcome _ _) stops⟩
  · exact congrArg (Ret.outcome _ _) (fdcPosa_trailing hb hc hl)
  · obtain ⟨a, w, field, fits, cut, stops⟩ := fdcPosa_underrun (s := s.readType t) hb rfl h6 hl
    exact ⟨a, w, field, fits, cut, congrArg (Ret.outcome _ _) (dspDisp_err hb hc h6 hu ht stops)⟩
  · exact congrArg (Ret.outcome _ _)
      (dspDisp_err hb hc h6 hu ht (fdcPosa_trailing (s := s.readType t) hb rfl hl))

/-- Settles O44: the checks in front of the two decoders, and the read of a type code that is not there. -/
theorem decoderPreconditions : Obligations.DecoderPreconditions := by
  refine fun s => ⟨fun hb i hi => ?_, fun hb hc => congrArg (Ret.outcome _ _) (dspDisp_cursor hb hc),
    fun hb hc => congrArg (Ret.outcome _ _) (fdcPosa_cursor hb hc),
    fun hb hc hl => congrArg (Ret.outcome _ _) (dspDisp_noType hb hc hl)⟩
  simp only [List.mem_cons, List.not_mem_nil, or_false] at hi
  obtain rfl | rfl := hi
  · exact congrArg (Ret.outcome _ _) (dspDisp_nobuf hb)
  · exact congrArg (Ret.outcome _ _) (fdcPosa_nobuf hb)

end Sys2Proof.Machine
end

section
/-! ### The unit converters in exact rationals (spec/44_field_decoder_posa.md R162 to R168) -/

namespace Sys2Proof.Machine

/-! The rate of turn (R162) -/

/-- Between the sentinels the rate is the signed square of the raw value, scaled. -/
theorem convRot_real {raw : Int} (h1 : -126 ≤ raw) (h2 : raw ≤ 126) :
    convRot raw = .real ((raw.sign : Rat) * raw ^ 2 * 50000 / 67203867) := by
  rw [convRot, if_neg (by omega), if_neg (by omega), if_neg (by omega), Rat.mkRat_eq_div]
  push_cast
  rfl

/-- The signed square is at most that of the largest raw value. -/
theorem abs_sign_mul_sq_le {raw : Int} (h1 : -126 ≤ raw) (h2 : raw ≤ 126) :
    |(raw.sign : Rat) * raw ^ 2| ≤ 126 ^ 2 := by
  have sq : (raw : Rat) ^ 2 ≤ 126 ^ 2 := sq_le_sq' (by exact_mod_cast h1) (by exact_mod_cast h2)
  have sign : |(raw.sign : Rat)| ≤ 1 := by
    obtain h | h | h := Int.sign_trichotomy raw <;> simp [h]
  calc |(raw.sign : Rat) * raw ^ 2| = |(raw.sign : Rat)| * raw ^ 2 := by rw [abs_mul, abs_sq]
    _ ≤ 1 * 126 ^ 2 := mul_le_mul sign sq (sq_nonneg _) zero_le_one
    _ = 126 ^ 2 := one_mul _

/-- Settles O45: `convRot_real` in the form of R162, its symmetry, and the bound of `abs_sign_mul_sq_le`, scaled. -/
theorem rateOfTurn : Obligations.RateOfTurn := by
  refine ⟨rfl, rfl, rfl, by simp [convRot], fun raw h1 h2 =>
    ⟨_, convRot_real h1 h2, ?formula, rfl, ?odd, ?least, ?greatest⟩⟩
  case formula =>
    rw [div_pow, sq_abs]
    ring
  case odd =>
    rw [convRot_real (by omega) (by omega), Int.sign_neg]
    push_cast
    ring_nf
  case least => linarith only [neg_le_of_abs_le (abs_sign_mul_sq_le h1 h2)]
  case greatest => linarith only [le_of_abs_le (abs_sign_mul_sq_le h1 h2)]

/-! Longitude and latitude (R164, R165) -/

theorem mkRat_eq_degrees (raw : Int) : mkRat raw 600000 = (raw : Rat) / 10000 / 60 := by
  rw [Rat.mkRat_eq_div, div_div]
  norm_num

/-- One raw value scales to a whole number of degrees. -/
theorem degrees_eq_iff (raw d : Int) : (raw : Rat) / 10000 / 60 = d ↔ raw = d * 600000 := by
  rw [div_div, div_eq_iff (by norm_num), ← @Int.cast_inj Rat]
  norm_num

theorem convLon_real {raw : Int} (h : raw ≠ 108600000) : convLon raw = .real ((raw : Rat) / 10000 / 60) := by
  rw [convLon, if_neg h, mkRat_eq_degrees]

theorem convLat_real {raw : Int} (h : raw ≠ 54600000) : convLat raw = .real ((raw : Rat) / 10000 / 60) := by
  rw [convLat, if_neg h, mkRat_eq_degrees]

theorem convLon_eq_notAvailable {raw : Int} : convLon raw = .notAvailable ↔ raw = 108600000 := by
  refine ⟨fun h => by_contra fun hn => ?_, fun h => if_pos h⟩
  cases (convLon_real hn).symm.trans h

theorem convLat_eq_notAvailable {raw : Int} : convLat raw = .notAvailable ↔ raw = 54600000 := by
  refine ⟨fun h => by_contra fun hn => ?_, fun h => if_pos h⟩
  cases (convLat_real hn).symm.trans h

/-- Settles O46: the sentinels are 181 and 91 degrees, in raw units (`degrees_eq_iff`). -/
theorem positionScalingAndSentinels : Obligations.PositionScalingAndSentinels :=
  ⟨fun raw => convLon_eq_notAvailable.trans (degrees_eq_iff raw 181).symm, fun _ => convLon_real,
    fun raw => convLat_eq_notAvailable.trans (degrees_eq_iff raw 91).symm, fun _ => convLat_real⟩

/-! Speed, course and heading (R163, R166, R167) -/

theorem mkRat_eq_tenths (raw : Nat) : mkRat raw 10 = (raw : Rat) / 10 := by
  rw [Rat.mkRat_eq_div]
  rfl

/-- Settles O47: past its sentinel, if it has one, each field is scaled. -/
theorem speedCourseAndHeading : Obligations.SpeedCourseAndHeading := by
  refine ⟨fun raw _ => ?speed, rfl, fun raw _ hn => ?course, rfl, fun raw hlt => ?heading⟩
  case speed => rw [convSog, mkRat_eq_tenths]
  case course => rw [convCog, if_neg hn, mkRat_eq_tenths]
  case heading => rw [convHdg, if_neg (by omega)]

/-! The time stamp (R168) -/

theorem convTs_mode {raw : Nat} (h : 60 ≤ raw) (now : BitVec 64) : convTs raw now = .timeMode raw := if_pos h

/-- The instant with second `raw` of the minute of `NOW`. -/
def inCurrentMinute (raw : Nat) (now : BitVec 64) : Int := 60 * ((now.toNat : Int) / 60) + raw

/-- A second is that of the current minute, or of the one before or after when that is more than 30 s from `NOW`. -/
theorem convTs_instant {raw : Nat} (h : raw < 60) (now : BitVec 64) :
    (30 < inCurrentMinute raw now - now.toNat ∧ convTs raw now = .instant (inCurrentMinute raw now - 60)) ∨
    (inCurrentMinute raw now - now.toNat < -30 ∧ convTs raw now = .instant (inCurrentMinute raw now + 60)) ∨
    (-30 ≤ inCurrentMinute raw now - now.toNat ∧ inCurrentMinute raw now - now.toNat ≤ 30 ∧
      convTs raw now = .instant (inCurrentMinute raw now)) := by
  rw [convTs, if_neg (by omega)]
  simp only [inCurrentMinute]
  split
  · exact .inl ⟨by assumption, rfl⟩
  · split
    · exact .inr (.inl ⟨by assumption, rfl⟩)
    · exact .inr (.inr ⟨by omega, by omega, rfl⟩)

/-- Settles O48: the three minutes the instant can lie in (`convTs_instant`). -/
theorem timestampReconciliation : Obligations.TimestampReconciliation := by
  refine ⟨fun raw now h _ => convTs_mode h now, fun raw now h => ?_⟩
  have hc : inCurrentMinute raw now = 60 * ((now.toNat : Int) / 60) + raw := rfl
  obtain ⟨far, ht⟩ | ⟨far, ht⟩ | ⟨lo, hi, ht⟩ := convTs_instant h now <;>
    exact ⟨_, ht, by omega, by omega, by omega, fun c _ _ _ => by omega⟩

end Sys2Proof.Machine
end

section
/-! ### FDC.POSA is a function of the bits from address 6 on, `LEN` and `NOW` (spec/44_field_decoder_posa.md R173) -/

namespace Sys2Proof.Machine

/-- Buffers that agree from address `k` on have the same bits there. -/
theorem bitsAt_congr {b1 b2 : List Bool} {k a : Nat} (h : b1.drop k = b2.drop k) (ha : k ≤ a) (w : Nat) :
    bitsAt b1 a w = bitsAt b2 a w := by
  obtain ⟨i, rfl⟩ := Nat.exists_eq_add_of_le ha
  rw [bitsAt, bitsAt, ← List.drop_drop, ← List.drop_drop, h]

theorem valuesAt_congr (o : BitOrder) (now : BitVec 64) {b1 b2 : List Bool} {k : Nat} (h : b1.drop k = b2.drop k)
    (fs : List FieldName) {a : Nat} (ha : k ≤ a) : valuesAt o now b1 fs a = valuesAt o now b2 fs a := by
  induction fs generalizing a with
  | nil => rfl
  | cons f fs ih => rw [valuesAt, valuesAt, bitsAt_congr h ha, ih (by omega)]

/-- The report does not see the type code's bits. -/
theorem classAReport_congr (o : BitOrder) (now : BitVec 64) {b1 b2 : List Bool} (h : b1.drop 6 = b2.drop 6) :
    classAReport o b1 now = classAReport o b2 now := by
  rw [← valuesAt_classA, ← valuesAt_classA, valuesAt_congr o now h classA le_rfl]

/-- `NOW` is not read when the time stamp is a mode (R168). -/
theorem classAReport_of_mode {o : BitOrder} {buf : List Bool} (h : 60 ≤ uint o (bitsAt buf 137 6))
    (n1 n2 : BitVec 64) : classAReport o buf n1 = classAReport o buf n2 := by
  simp only [classAReport, convTs_mode h]

/-- The fields do not overlap, so an address lies in one field only. -/
theorem classALayout_unique {a1 w1 a2 w2 n : Nat} (h1 : (a1, w1) ∈ classALayout) (h2 : (a2, w2) ∈ classALayout)
    (l1 : a1 ≤ n) (u1 : n < a1 + w1) (l2 : a2 ≤ n) (u2 : n < a2 + w2) : a1 = a2 := by
  have apart : ∀ p ∈ classALayout, ∀ q ∈ classALayout, p.1 = q.1 ∨ p.1 + p.2 ≤ q.1 ∨ q.1 + q.2 ≤ p.1 := by decide
  have := apart _ h1 _ h2
  omega

/-- A buffer without the whole type code is an underrun at the first field. -/
theorem fdcPosa_underrun_first {s : State} (hb : s.bv = true) (hc : s.cur = 6) (hl : s.len < 6) :
    fdcPosa s = .err (.decode .underrun) s := by
  have stops : readField .repeatInd s = .err (.decode .underrun) s :=
    readField_underrun _ hb (by rw [hc, Nat.sub_eq_zero_of_le hl.le]; decide)
  rw [fdcPosa_eq_readFields hb hc, classA, readFields, stops, Ret.bind_err, Ret.bind_err]

/-- Settles O49, by the length: a short buffer underruns in one field, a long one has trailing bits, and the report of
168 bits is that of the bits behind the type code. -/
theorem decoderIsPure : Obligations.DecoderIsPure := by
  intro s1 s2 ho b1 b2 c1 c2 hl hd hn
  obtain h6 | h6 := Nat.lt_or_ge s1.len 6
  · exact ⟨_, _, congrArg (Ret.outcome _ _) (fdcPosa_underrun_first b1 c1 h6),
      congrArg (Ret.outcome _ _) (fdcPosa_underrun_first b2 c2 (hl ▸ h6)), rfl, c1.trans c2.symm, rfl⟩
  obtain short | whole | long := Nat.lt_trichotomy s1.len 168
  · obtain ⟨a1, w1, f1, l1, u1, stops1⟩ := fdcPosa_underrun b1 c1 h6 short
    obtain ⟨a2, w2, f2, l2, u2, stops2⟩ := fdcPosa_underrun b2 c2 (hl ▸ h6) (hl ▸ short)
    rw [← hl] at l2 u2
    exact ⟨_, _, congrArg (Ret.outcome _ _) stops1, congrArg (Ret.outcome _ _) stops2, rfl,
      classALayout_unique f1 f2 l1 u1 l2 u2, rfl⟩
  · have report : classAReport s2.cfg.bitOrder s2.buf s2.now = classAReport s1.cfg.bitOrder s1.buf s1.now := by
      rw [← ho, ← classAReport_congr _ _ hd]
      obtain now | cut | mode := hn
      · rw [now]
      · omega
      · exact classAReport_of_mode mode _ _
    have answer2 := fdcPosa_ok b2 c2 (hl ▸ whole)
    rw [report] at answer2
    exact ⟨_, _, congrArg (Ret.outcome _ _) (fdcPosa_ok b1 c1 whole), congrArg (Ret.outcome _ _) answer2, rfl, rfl, rfl⟩
  · exact ⟨_, _, congrArg (Ret.outcome _ _) (fdcPosa_trailing b1 c1 long),
      congrArg (Ret.outcome _ _) (fdcPosa_trailing b2 c2 (hl ▸ long)), rfl, rfl, rfl⟩

end Sys2Proof.Machine
end

section
/-! ### A text is LF-terminated tokens and a rest (spec/45_line_framer.md R190 to R192) -/

namespace Sys2Proof.Machine

/-- Terminated tokens and a rest split back into just these. -/
theorem split_terminated {sep : Byte} {ls : List Text} {rest : Text} (hl : ∀ l ∈ ls, sep ∉ l) (hr : sep ∉ rest) :
    split sep ((ls.flatMap fun l => l ++ [sep]) ++ rest) = ls ++ [rest] := by
  induction ls with
  | nil => exact split_free hr
  | cons l ls ih =>
    obtain ⟨h, hs⟩ := List.forall_mem_cons.1 hl
    rw [List.flatMap_cons, List.append_assoc, List.append_assoc, List.singleton_append, split_token h, ih hs,
      List.cons_append]

/-- The tokens before the last, each terminated, and the last make up the text. -/
theorem terminated_split (sep : Byte) (t : Text) :
    ((split sep t).dropLast.flatMap fun l => l ++ [sep]) ++ (split sep t).getLastD [] = t := by
  induction t with
  | nil => rfl
  | cons c t ih =>
    by_cases hc : c = sep
    · subst hc
      obtain ⟨x, xs, hs⟩ := List.exists_cons_of_ne_nil (split_ne_nil c t)
      rw [split_cons_sep, hs]
      rw [hs] at ih
      exact congrArg (c :: ·) ih
    · simp only [split, splitTokens, hc, if_false] at ih ⊢
      generalize (splitTokens sep t).2 = later at ih ⊢
      cases later with
      | nil => exact congrArg (c :: ·) ih
      | cons => exact congrArg (c :: ·) ih

/-- The tokens before the last are free of the separator. -/
theorem dropLast_split_free (sep : Byte) (t : Text) : ∀ l ∈ (split sep t).dropLast, sep ∉ l :=
  fun _ h => split_tokens_free (List.mem_of_mem_dropLast h)

/-- Only `split` cuts a text into terminated tokens and a rest. -/
theorem existsUnique_terminated (sep : Byte) (t : Text) :
    ∃! p : List Text × Text, (∀ l ∈ p.1, sep ∉ l) ∧ sep ∉ p.2 ∧ t = (p.1.flatMap fun l => l ++ [sep]) ++ p.2 := by
  refine ⟨((split sep t).dropLast, (split sep t).getLastD []),
    ⟨dropLast_split_free sep t, getLastD_split_free sep t, (terminated_split sep t).symm⟩, ?_⟩
  rintro ⟨ls, rest⟩ ⟨hl, hr, rfl⟩
  rw [split_terminated hl hr]
  simp

/-- `rtrimCr` takes off a run of CR, and all of it (R192). -/
theorem rtrimCr_maximal (x : Text) :
    ∃ n, x = rtrimCr x ++ List.replicate n CR ∧ (rtrimCr x).getLast? ≠ some CR := by
  refine ⟨(x.rtakeWhile (· == CR)).length, ?cut, ?last⟩
  case cut =>
    have run : x.rtakeWhile (· == CR) = List.replicate (x.rtakeWhile (· == CR)).length CR :=
      List.eq_replicate_of_mem fun _ h => eq_of_beq (List.mem_rtakeWhile_imp (p := (· == CR)) h)
    rw [← run]
    exact List.rdropWhile_append_rtakeWhile.symm
  case last =>
    intro h
    obtain ⟨hn, e⟩ := List.mem_getLast?_eq_getLast h
    exact List.rdropWhile_last_not (· == CR) x hn (beq_iff_eq.2 e.symm)

end Sys2Proof.Machine
end

section
/-! ### FRM.PUSH, and the end of the stream (spec/45_line_framer.md R190 to R195, 46_pipeline.md R211, R212) -/

namespace Sys2Proof.Machine

/-- FRM.PUSH by the tokens and the rest that the carry and the chunk are together. -/
theorem frmPush_terminated {s : State} {chunk : Text} {ls : List Text} {rest : Text} (hl : ∀ l ∈ ls, LF ∉ l)
    (hr : LF ∉ rest) (ht : s.carry ++ chunk = (ls.flatMap fun l => l ++ [LF]) ++ rest)
    (fit : ∀ l ∈ rest :: ls, exceeds s.cfg.lineMax l.length = false) :
    frmPush chunk s = .ok (linesOf ls) (s.setCarry rest) := by
  have fits : ¬ (ls ++ [rest]).any fun l => exceeds s.cfg.lineMax l.length := by
    simpa [or_imp, forall_and, and_comm] using fit
  unfold frmPush
  rw [ht, split_terminated hl hr, if_neg fits]
  simp

/-- Settles O50: `split` is the one way to cut the text, and FRM.PUSH returns what it cuts. -/
theorem framerReturnsTheCompletedLines : Obligations.FramerReturnsTheCompletedLines :=
  ⟨existsUnique_terminated LF, rtrimCr_maximal, fun _ _ _ _ hl hr ht fit =>
    congrArg (Ret.outcome _ _) (frmPush_terminated hl hr ht fit)⟩

theorem exec_frmPush_unbounded (chunk : Text) (s : State) (hu : unbounded s.cfg) :
    exec (.frmPush chunk) s = .next ((s.setCarry ((split LF (s.carry ++ chunk)).getLastD [])).complete
      (.lines (linesOf (split LF (s.carry ++ chunk)).dropLast)) []) :=
  congrArg (Ret.outcome _ _) (frmPush_unbounded chunk s hu)

/-- Settles O51: the tokens completed by the two chunks are those of their concatenation (`split_two_chunks`). -/
theorem framerChunkingDoesNotMatter : Obligations.FramerChunkingDoesNotMatter := by
  intro s a b hu
  have both := exec_frmPush_unbounded (a ++ b) s hu
  obtain ⟨tokens, carry⟩ := split_two_chunks s.carry a b
  rw [tokens, carry, linesOf_append] at both
  exact ⟨_, _, _, _, _, exec_frmPush_unbounded a s hu, rfl, exec_frmPush_unbounded b _ hu, rfl, both, rfl, rfl⟩

theorem topEos_opened {s : State} (ho : s.src = .opened) :
    topEos s = .ok [] ((s.setCarry []).setSrc .ended) := if_neg (not_not.2 ho)

theorem topSrcerr_opened {s : State} (ho : s.src = .opened) :
    topSrcerr s = .ok [.error .source []] (s.setSrc .failed) := if_neg (not_not.2 ho)

/-- Settles O52: on an open source neither TOP operation meets its check. -/
theorem endOfStreamOperations : Obligations.EndOfStreamOperations :=
  ⟨fun _ => rfl, fun _ ho => congrArg (Ret.outcome _ _) (topEos_opened ho),
    fun _ ho => congrArg (Ret.outcome _ _) (topSrcerr_opened ho)⟩

end Sys2Proof.Machine
end

section
/-! ### TOP.FEED answers items on an open source, and every TOP operation an error on a closed one
(spec/46_pipeline.md R205, R213) -/

namespace Sys2Proof.Machine

/-- Settles O53: a closed source is the first check of each TOP operation. -/
theorem nothingMoreAfterTheEnd : Obligations.NothingMoreAfterTheEnd := by
  intro s chunk i hc hi
  simp only [List.mem_cons, List.not_mem_nil, or_false] at hi
  obtain rfl | rfl | rfl := hi <;> exact congrArg (Ret.outcome _ _) (if_pos hc)

/-- On an open source TOP.FEED is neither refused nor an error. -/
theorem topFeed_completes {s : State} (hu : unbounded s.cfg) (ho : s.src = .opened) (chunk : Text) :
    ∃ items t, topFeed chunk s = .ok items t := by
  refine (topFeed_runs chunk s hu).value fun t e => ?_
  rw [topFeed_unbounded hu ho]
  exact processAll_never_errs _ _ t e

/-- A chunk that completes no line extends the carry. -/
theorem topFeed_no_line {s : State} {chunk : Text} (hu : unbounded s.cfg) (ho : s.src = .opened)
    (hs : LF ∉ s.carry) (hc : LF ∉ chunk) : topFeed chunk s = .ok [] (s.setCarry (s.carry ++ chunk)) := by
  rw [topFeed_unbounded hu ho, split_free (List.not_mem_append hs hc)]
  rfl

/-- Settles O54: the answer is a value, FRM.PUSH comes first, and without LF it returns no line. -/
theorem feedAlwaysCompletes : Obligations.FeedAlwaysCompletes := by
  intro s chunk hu ho
  refine ⟨?completes, fun t1 ls ht hl => ?lines, fun hs hc => ?noLine⟩
  case completes =>
    obtain ⟨items, t, h⟩ := topFeed_completes hu ho chunk
    exact ⟨_, items, congrArg (Ret.outcome _ _) h, rfl, rfl⟩
  case lines =>
    obtain ⟨k, hk⟩ := execFrmPush_lines ht hl
    have hcarry : s.setCarry k = { s with carry := t1.carry } := by
      cases (congrArg (Ret.outcome Val.lines noEvents) hk).symm.trans ht
      rfl
    refine congrArg (Ret.outcome _ _) ?_
    rw [topFeed_opened ho, hk, Ret.bind_ok, hcarry]
  case noLine => exact congrArg (Ret.outcome _ _) (topFeed_no_line hu ho hs hc)

end Sys2Proof.Machine
end

section
/-! ### The pipeline does not see the port, so chunking does not matter (spec/46_pipeline.md R209) -/

namespace Sys2Proof.Machine

theorem respond_transparent (r : Result) (ev : List BreakCause) : Transparent (State.respond r ev) :=
  ⟨fun s => ⟨s.cfg.realFormat, rfl⟩, fun _ => rfl, fun _ => rfl, fun _ => rfl, fun _ => rfl, fun _ => rfl,
    fun _ _ => rfl, fun _ _ => rfl, fun _ _ => rfl, fun _ _ => rfl, fun _ _ => rfl⟩

theorem setCarry_transparent (k : Text) : Transparent (State.setCarry k) :=
  ⟨fun s => ⟨s.cfg.realFormat, rfl⟩, fun _ => rfl, fun _ => rfl, fun _ => rfl, fun _ => rfl, fun _ => rfl,
    fun _ _ => rfl, fun _ _ => rfl, fun _ _ => rfl, fun _ _ => rfl, fun _ _ => rfl⟩

/-- An operation writes the whole port, so what it held before does not show. -/
theorem Ret.outcome_mapState_respond {α : Type} (val : α → Val) (ev : α → List BreakCause) (r : Result)
    (e : List BreakCause) (x : Ret α) :
    (x.mapState (State.respond r e)).outcome val ev = x.outcome val ev := by
  cases x <;> rfl

theorem Ret.bind_ok_eq_map {α β : Type} (f : α → β) (x : Ret α) :
    (x.bind fun v s => .ok (f v) s) = x.map f := by
  cases x <;> rfl

/-- TOP.FEED after another operation is TOP.FEED before it has answered. -/
theorem exec_topFeed_respond {s : State} (hu : unbounded s.cfg) (ho : s.src = .opened) (r : Result)
    (e : List BreakCause) (chunk : Text) : exec (.topFeed chunk) (s.respond r e) = exec (.topFeed chunk) s := by
  have unseen : topFeed chunk (s.respond r e) = (topFeed chunk s).mapState (State.respond r e) := by
    rw [topFeed_unbounded hu ho, topFeed_unbounded (s := s.respond r e) hu ho]
    exact (respond_transparent r e).processAll _ (s.setCarry _)
  exact (congrArg (Ret.outcome _ _) unseen).trans (Ret.outcome_mapState_respond ..)

/-- Lines processed with another carry held give the same items. -/
theorem processAll_setCarry {ls : List Text} {s u : State} {c : Text} {items : List Item}
    (h : processAll ls (s.setCarry c) = .ok items u) (k : Text) :
    processAll ls (s.setCarry k) = .ok items (u.setCarry k) :=
  ((setCarry_transparent k).processAll ls (s.setCarry c)).trans (congrArg (Ret.mapState (State.setCarry k)) h)

/-- The second chunk goes on where the first one ended, and its items follow. -/
theorem topFeed_append {s u : State} {a : Text} {ia : List Item} (hu : unbounded s.cfg) (ho : s.src = .opened)
    (h : topFeed a s = .ok ia u) (b : Text) : topFeed (a ++ b) s = (topFeed b u).map (ia ++ ·) := by
  obtain ⟨tokens, carry⟩ := split_two_chunks s.carry a b
  rw [topFeed_unbounded hu ho] at h
  have frame := processAll_processes (linesOf (split LF (s.carry ++ a)).dropLast)
    (s.setCarry ((split LF (s.carry ++ a)).getLastD []))
  rw [h] at frame
  have first := processAll_setCarry h
  obtain ⟨_, _, _, _, _, _, rfl⟩ := frame
  rw [topFeed_unbounded hu ho, tokens, carry, linesOf_append, processAll_append, first, Ret.bind_ok,
    Ret.bind_ok_eq_map, topFeed_unbounded (by exact hu) (by exact ho)]
  rfl

/-- Settles O56: the second chunk goes on where the first one ended (`topFeed_append`), and does not see what the
first one answered (`exec_topFeed_respond`). -/
theorem feedChunkingDoesNotMatter : Obligations.FeedChunkingDoesNotMatter := by
  intro s a b hu ho
  obtain ⟨ia, u, ha⟩ := topFeed_completes hu ho a
  have frame := topFeed_feeds a s
  rw [ha] at frame
  have kept : u.cfg = s.cfg ∧ u.src = s.src := by
    obtain ⟨_, _, _, _, _, _, _, rfl⟩ := frame
    exact ⟨rfl, rfl⟩
  have hu' : unbounded u.cfg := kept.1 ▸ hu
  have ho' : u.src = .opened := kept.2.trans ho
  obtain ⟨ib, v, hb⟩ := topFeed_completes hu' ho' b
  have both := topFeed_append hu ho ha b
  rw [hb, Ret.map_ok] at both
  refine ⟨_, _, ia, ib, congrArg (Ret.outcome _ _) ha, rfl,
    (exec_topFeed_respond hu' ho' _ _ b).trans (congrArg (Ret.outcome _ _) hb), rfl,
    (congrArg (Ret.outcome _ _) both).trans ?_⟩
  rw [Ret.outcome_ok, itemEvents_append]
  rfl

end Sys2Proof.Machine
end

section
/-! ### The items of one line (spec/46_pipeline.md R206 to R208) -/

namespace Sys2Proof.Machine

/-- At most one of Message, NonAis, Error, and no event. -/
def AtMostOneOutput (items : List Item) : Prop := items.length ≤ 1 ∧ ∀ c, .event c ∉ items

theorem atMostOneOutput_nil : AtMostOneOutput [] := ⟨Nat.zero_le 1, fun _ => List.not_mem_nil⟩

theorem atMostOneOutput_singleton {item : Item} (h : ∀ c, .event c ≠ item) : AtMostOneOutput [item] :=
  ⟨le_rfl, fun c => mt List.mem_singleton.1 (h c)⟩

theorem finish_atMostOneOutput {text line : Text} {s t : State} {items : List Item}
    (h : finish text line s = .ok items t) : AtMostOneOutput items := by
  unfold finish at h
  split at h
  · cases h
  · cases h
    exact atMostOneOutput_singleton nofun
  · split at h
    · cases h
    · cases h
      exact atMostOneOutput_singleton nofun
    · cases h
      exact atMostOneOutput_singleton nofun

/-- RSM.PUSH emits at most one event, and beside a text only that of a pre-empted accumulation (R131 to R135). -/
theorem rsmPush_events {f : Fragment} {s u : State} {v : Option Text} {ev : List BreakCause}
    (h : rsmPush (.encapsulated f) s = .ok (v, ev) u) :
    ev.length ≤ 1 ∧ (v ≠ none → ev ≠ [] → ev = [.preempt] ∧ s.q ≠ []) := by
  obtain ⟨_, -, e⟩ | e | ⟨_, -, -, e⟩ | ⟨_, ⟨⟩, hf, e⟩ := rsmPush_cases (.encapsulated f) s <;> rw [e] at h
  · cases h
  · cases h
  · cases h
    by_cases hq : s.q = [] <;> simp [hq]
  · obtain ⟨-, -, e⟩ | ⟨-, -, e⟩ | ⟨-, -, e⟩ | ⟨-, -, -, e⟩ | ⟨-, -, -, e⟩ := pushFragment_cases hf s <;>
      rw [e] at h <;> cases h <;> simp

/-- What follows a push: its events, then what the error or the message gives. -/
theorem afterPush_items {line : Text} {r : Ret Pushed} {t : State} {items : List Item}
    (h : afterPush line r = .ok items t) :
    AtMostOneOutput items ∨ ∃ v ev u rest, r = .ok (v, ev) u ∧ items = ev.map .event ++ rest ∧
      AtMostOneOutput rest ∧ (v = none → rest = []) := by
  unfold afterPush at h
  split at h
  · cases h
  · cases h
    exact .inl (atMostOneOutput_singleton nofun)
  · rename_i p u
    obtain ⟨v, ev⟩ := p
    cases v with
    | none =>
      cases h
      exact .inr ⟨none, ev, _, [], rfl, (List.append_nil _).symm, atMostOneOutput_nil, fun _ => rfl⟩
    | some text =>
      dsimp only at h
      cases hx : finish text line u with
      | refused w => rw [hx] at h; cases h
      | err e u' => rw [hx] at h; cases h
      | ok rest u' =>
        rw [hx] at h
        cases h
        exact .inr ⟨_, ev, u, rest, rfl, rfl, finish_atMostOneOutput hx, nofun⟩

/-- The items of a line: an output, or what follows the push of its Sentence. -/
theorem process_items {line : Text} {s t : State} {items : List Item} (h : process line s = .ok items t) :
    AtMostOneOutput items ∨ ∃ f, afterPush line (rsmPush (.encapsulated f) s) = .ok items t := by
  unfold process at h
  split at h
  · cases h
  · cases h
    exact .inl (atMostOneOutput_singleton nofun)
  · cases h
    exact .inl (atMostOneOutput_singleton nofun)
  · cases h
    exact .inl (atMostOneOutput_singleton nofun)
  · exact .inr ⟨_, h⟩

/-- Settles O57: the events are those of the push (`rsmPush_events`), and the rest is one output. -/
theorem itemsOfOneLine : Obligations.ItemsOfOneLine := by
  intro s t line items h
  obtain out | ⟨f, h⟩ := process_items h
  · exact ⟨[], items, rfl, Nat.zero_le 1, out.1, out.2, fun hn => absurd rfl hn⟩
  obtain out | ⟨v, ev, u, rest, hr, rfl, out, hv⟩ := afterPush_items h
  · exact ⟨[], items, rfl, Nat.zero_le 1, out.1, out.2, fun hn => absurd rfl hn⟩
  · obtain ⟨one, preempts⟩ := rsmPush_events hr
    exact ⟨ev, rest, rfl, one, out.1, out.2, fun he hn => preempts (mt hv hn) he⟩

end Sys2Proof.Machine
end

section
/-! ### Feeding one line is the unit operations in order (spec/46_pipeline.md R206, R207) -/

namespace Sys2Proof.Machine

theorem rtrimCr_eq_self {l : Text} (h : l.getLast? ≠ some CR) : rtrimCr l = l := by
  refine List.rdropWhile_eq_self_iff.2 fun hn hl => h ?_
  rw [List.getLast?_eq_some_getLast hn, eq_of_beq hl]

/-- A terminated line that needs no trimming, fed with nothing held back, is processed. -/
theorem topFeed_line {s : State} {line : Text} (hu : unbounded s.cfg) (ho : s.src = .opened) (hc : s.carry = [])
    (hlf : LF ∉ line) (hne : line ≠ []) (hcr : line.getLast? ≠ some CR) :
    topFeed (line ++ [LF]) s = process line s := by
  have same : s.setCarry [] = s := by
    rw [← hc]
    rfl
  have one : linesOf [line] = [line] := by
    simp [linesOf, rtrimCr_eq_self hcr, hne]
  rw [topFeed_unbounded hu ho, hc, List.nil_append, split_token hlf, split_nil]
  simp only [List.dropLast_cons_cons, List.dropLast_singleton, List.getLastD_cons, List.getLastD_nil, one, same,
    processAll, Ret.bind_ok, List.append_nil]
  cases process line s <;> rfl

/-! PROCESS and FINISH, by what the unit operations answer -/

section
variable {line text : Text} {s u w : State} {e : Error} {ev : List BreakCause}

theorem process_error {c : ParseCause} (h : parse s.cfg line = .error c) :
    process line s = .ok [.error (.parse c) line] s := by
  simp only [process, h]

theorem process_nonAis {snt : Sentence} (h : parse s.cfg line = .sentence snt) (hk : snt.kind ≠ .encapsulated) :
    process line s = .ok [.nonAis snt] s := by
  cases snt with
  | encapsulated f => exact absurd rfl hk
  | delimited raw => simp only [process, h]
  | comment raw => simp only [process, h]

theorem process_incomplete {f : Fragment} (h : parse s.cfg line = .sentence (.encapsulated f))
    (hr : rsmPush (.encapsulated f) s = .ok (none, ev) u) : process line s = .ok (ev.map .event) u := by
  simp only [process, h, hr, afterPush]

theorem process_complete {f : Fragment} (h : parse s.cfg line = .sentence (.encapsulated f))
    (hr : rsmPush (.encapsulated f) s = .ok (some text, ev) u) :
    process line s = (finish text line u).map (ev.map .event ++ ·) := by
  simp only [process, h, hr, afterPush]

theorem finish_load_err (h : abrLoad text s = .err e u) : finish text line s = .ok [.error e line] u := by
  simp only [finish, h]

theorem finish_disp_err (h : abrLoad text s = .ok () u) (hd : dspDisp u = .err e w) :
    finish text line s = .ok [.error e line] w := by
  simp only [finish, h, hd]

theorem finish_message {m : DecodedMessage} (h : abrLoad text s = .ok () u) (hd : dspDisp u = .ok m w) :
    finish text line s = .ok [.message m] w := by
  simp only [finish, h, hd]

end

/-! The unit operations issued one by one -/

/-- RSM.PUSH of a Sentence that PAR.PARSE returned answers a value and writes `Q` only; the ReassemblyError arm is
never taken. -/
theorem rsmPush_parsed {s : State} {line : Text} {f : Fragment} (hu : unbounded s.cfg)
    (h : parse s.cfg line = .sentence (.encapsulated f)) :
    ∃ v ev q, rsmPush (.encapsulated f) s = .ok (v, ev) (s.setQ q) := by
  obtain ⟨-, -, -, -, -, -, -, shape, -⟩ := parsedSentenceGuarantees _ _ _ h
  obtain ⟨⟨v, ev⟩, u, hr⟩ := (rsmPush_runs _ s hu).value (rsmPush_never_errs shape s)
  have frame := rsmPush_setQ (.encapsulated f) s
  rw [hr] at frame
  obtain ⟨q, rfl⟩ := frame
  exact ⟨v, ev, q, hr⟩

theorem exec_abrLoad_respond (text : Text) (s : State) (r : Result) (e : List BreakCause) :
    exec (.abrLoad text) (s.respond r e) = exec (.abrLoad text) s :=
  (congrArg (Ret.outcome _ _) ((respond_transparent r e).abrLoad text s)).trans (Ret.outcome_mapState_respond ..)

theorem exec_dspDisp_respond (s : State) (r : Result) (e : List BreakCause) :
    exec .dspDisp (s.respond r e) = exec .dspDisp s :=
  (congrArg (Ret.outcome _ _) ((respond_transparent r e).dspDisp s)).trans (Ret.outcome_mapState_respond ..)

/-- TOP.FEED's end when the push gave `ev` and FINISH one output: the events are those of the push. -/
theorem outcome_of_finish {text line : Text} {s u : State} {ev : List BreakCause} {item : Item}
    (hf : finish text line s = .ok [item] u) (h : itemEvents [item] = []) :
    ((finish text line s).map (ev.map .event ++ ·)).outcome .items itemEvents =
      .next (u.respond (.ok (.items (ev.map .event ++ [item]))) ev) := by
  rw [hf, Ret.map_ok, Ret.outcome_ok, itemEvents_append, itemEvents_events, h, List.append_nil]

/-- FINISH is ABR.LOAD, then DSP.DISP: the item is the first error met, or the message (R207). -/
theorem finish_cases {s : State} (hu : unbounded s.cfg) (text line : Text) :
    (∃ e, exec (.abrLoad text) s = .next (s.respond (.err e) []) ∧ finish text line s = .ok [.error e line] s) ∨
    (∃ u, exec (.abrLoad text) s = .next (u.respond (.ok .none) []) ∧
      ((∃ e v, exec .dspDisp u = .next (v.respond (.err e) []) ∧ finish text line s = .ok [.error e line] v) ∨
        (∃ m v, exec .dspDisp u = .next (v.respond (.ok (.message m)) []) ∧
          finish text line s = .ok [.message m] v))) := by
  have loads := abrLoad_runs text s hu
  have keeps := abrLoad_errKeeps text s
  cases ha : abrLoad text s with
  | refused r => rw [ha] at loads; exact loads.elim
  | err e u =>
    rw [ha] at keeps
    cases keeps
    exact .inl ⟨e, congrArg (Ret.outcome _ _) ha, finish_load_err ha⟩
  | ok _ u =>
    refine .inr ⟨u, congrArg (Ret.outcome _ _) ha, ?_⟩
    have dispatches := dspDisp_runs u
    cases hd : dspDisp u with
    | refused r => rw [hd] at dispatches; exact dispatches.elim
    | err e v => exact .inl ⟨e, v, congrArg (Ret.outcome _ _) hd, finish_disp_err ha hd⟩
    | ok m v => exact .inr ⟨m, v, congrArg (Ret.outcome _ _) hd, finish_message ha hd⟩

/-- Settles O55, by what PAR.PARSE returns, then by whether RSM.PUSH completes a message. -/
theorem feedingALineIsTheUnitOperationsInOrder : Obligations.FeedingALineIsTheUnitOperationsInOrder := by
  intro s line hu ho hc hlf hne hcr
  have feed : exec (.topFeed (line ++ [LF])) s = (process line s).outcome .items itemEvents :=
    congrArg (Ret.outcome _ _) (topFeed_line hu ho hc hlf hne hcr)
  cases hp : parse s.cfg line with
  | refused r => exact absurd hp (parse_runs _ _ hu r)
  | error c =>
    refine ⟨_, exec_parParse_error hp, fun e he => ?_, nofun, nofun⟩
    cases he
    rw [feed, process_error hp]
    rfl
  | sentence snt =>
    refine ⟨_, exec_parParse_sentence hp, nofun, fun snt' he hk => ?passed, fun f he => ?pushed⟩
    case passed =>
      cases he
      rw [feed, process_nonAis hp hk]
      rfl
    case pushed =>
      cases he
      obtain ⟨v, ev, q, hr⟩ := rsmPush_parsed hu hp
      refine ⟨_, congrArg (Ret.outcome _ _) hr, nofun, fun ht => ?_, fun text ht => ?_⟩
      · cases ht
        rw [feed, process_incomplete hp hr, Ret.outcome_ok, itemEvents_events]
        rfl
      · cases ht
        rw [feed, process_complete hp hr]
        obtain ⟨e, load, hf⟩ | ⟨w, load, ⟨e, x, disp, hf⟩ | ⟨m, x, disp, hf⟩⟩ :=
          finish_cases (s := s.setQ q) hu text line
        · refine ⟨_, (exec_abrLoad_respond ..).trans load, fun e' he => ?_, nofun⟩
          cases he
          exact (outcome_of_finish hf rfl).trans rfl
        · refine ⟨_, (exec_abrLoad_respond ..).trans load, nofun, fun _ =>
            ⟨_, (exec_dspDisp_respond ..).trans disp, fun e' he => ?_, nofun⟩⟩
          cases he
          exact (outcome_of_finish hf rfl).trans rfl
        · refine ⟨_, (exec_abrLoad_respond ..).trans load, nofun, fun _ =>
            ⟨_, (exec_dspDisp_respond ..).trans disp, nofun, fun m' he => ?_⟩⟩
          cases he
          exact (outcome_of_finish hf rfl).trans rfl

end Sys2Proof.Machine
end

section
/-! ### Every discard of the queue is reported (spec/60_exceptions.md R232, decision D20) -/

namespace Sys2Proof.Machine

/-- RSM.PUSH without an error reports one event, unless there is nothing to discard: the queue is empty, takes the
fragment, or is completed by it (R131 to R135). -/
theorem rsmPush_reports {snt : Sentence} {s u : State} {v : Option Text} {ev : List BreakCause}
    (h : rsmPush snt s = .ok (v, ev) u) :
    ev.length = 1 ∨ ev = [] ∧ (s.q = [] ∨ ∃ f, snt = .encapsulated f ∧
      (u.q = s.q ++ [f] ∨ selfContained f = false ∧ v = some ((s.q ++ [f]).flatMap (·.payload)))) := by
  obtain ⟨_, -, e⟩ | e | ⟨_, -, -, e⟩ | ⟨f, rfl, hf, e⟩ := rsmPush_cases snt s <;> rw [e] at h
  · cases h
  · cases h
  · cases h
    by_cases hq : s.q = []
    · exact .inr ⟨if_pos hq, .inl hq⟩
    · exact .inl (congrArg List.length (if_neg hq))
  · obtain ⟨-, -, e⟩ | ⟨-, -, e⟩ | ⟨-, -, e⟩ | ⟨-, -, -, e⟩ | ⟨-, -, -, e⟩ := pushFragment_cases hf s <;>
      rw [e] at h <;> cases h
    · exact .inl rfl
    · exact .inl rfl
    · exact .inl rfl
    · exact .inr ⟨rfl, .inr ⟨f, rfl, .inr ⟨selfContained_of_isFragment hf, rfl⟩⟩⟩
    · exact .inr ⟨rfl, .inr ⟨f, rfl, .inl rfl⟩⟩

/-- Settles O39: a push without an event (`rsmPush_reports`) discards nothing, or completes the message; an error
has no event. -/
theorem everyDiscardIsReported : Obligations.EveryDiscardIsReported := by
  intro s t snt ht
  obtain ⟨⟨v, ev⟩, u, hr, rfl⟩ | ⟨e, u, -, rfl⟩ := Ret.outcome_next ht
  · obtain one | ⟨rfl, silent⟩ := rsmPush_reports hr
    · exact ⟨one.le, fun _ _ _ => one⟩
    · refine ⟨Nat.zero_le 1, fun hq _ hd => ?_⟩
      obtain empty | ⟨f, rfl, kept | ⟨hsc, rfl⟩⟩ := silent
      · exact absurd empty hq
      · exact absurd kept (hd f rfl).1
      · exact absurd rfl ((hd f rfl).2 hsc)
  · exact ⟨Nat.zero_le 1, fun _ hne _ => absurd rfl (hne e)⟩

end Sys2Proof.Machine
end
